-- ==== Sys2Proof/Word.lean ====
section
/-! DEFINITION. The word types of RAVR-CORE: 00_scope.md R9 (WORD, SAMPLE_INT) and 20_memory.md R69. -/

namespace Sys2Proof

/-- A command, response or CSR word, and the binary32 pattern of a float sample (R9, R13). -/
abbrev Word := BitVec 32

/-- A PCM16 sample's bit pattern, one half of a PCM16 word (R9, R65). -/
abbrev Half := BitVec 16

/-- One byte of a serialised word (R64). -/
abbrev Byte := BitVec 8

end Sys2Proof
end

