-- ==== Sys2Proof/Config.lean ====
section
/-! DEFINITION. What is fixed for the block (00_scope.md R9, R10) and the values the spec leaves open, as free values
without a body: nothing in Lean can evaluate one or prove a value of it. -/

namespace Sys2Proof

/-- The two ports, one agent each: the producer P and the sink S (R10, R20). A second producer or consumer is refused by
R10: it cannot be written down. -/
inductive Port where
  | producer
  | sink
  deriving DecidableEq, Repr, Inhabited

/-- COUNT_MAX, the largest element count one command carries: `2^24 - 1` (R9). -/
def countMax : Nat := 16777215

/-- The open capacity parameters STORAGE_CAP (samples) and CHUNK_CAP (chunks), `none` for unbounded (R9, R195). They stand
in the state as constants no step changes, so that a claim about every state covers every value of them (log entry 5). -/
structure Params where
  storageCap : Option Nat
  chunkCap : Option Nat
  deriving DecidableEq, Repr

/-- Any binary32 NaN: a sign and a nonzero 23-bit fraction, held as the fraction less one (R13, R168). Every NaN pattern is
exactly one of these. -/
structure NaNPattern where
  neg : Bool
  fractionLessOne : Fin 8388607
  deriving DecidableEq, Repr, Inhabited

/-- NAN_DRAW (R9, R168): the NaN pattern of output sample `i` of the resampling of a sequence from rate RIN to rate ROUT. A free
value of the operands, so a repeated command answers alike (R71, R160): a claim holds for every NaN pattern (log entry 4). -/
opaque Config.nanDraw (x : List Word) (rin rout : Word) (i : Nat) : NaNPattern

/-- Which port moves when both can and `State.agenda` names none (R72: any interleaving). A free value (log entry 3). -/
opaque Config.arbiter : Nat → Port

end Sys2Proof
end

