-- ==== Sys2Proof/Machine/Float.lean ====
section
/-! DEFINITION. IEEE-754 binary32 patterns and binary64 arithmetic as 00_scope.md R13 uses them: every operation computes its
exact value and rounds once, to nearest, ties to even (log entry 12). -/

namespace Sys2Proof.Machine

/-- A floating-point value: a NaN, a signed infinity, or `±mant * 2^exp` with the sign of zero kept. -/
inductive FVal where
  | nan
  | inf (neg : Bool)
  | fin (neg : Bool) (mant : Nat) (exp : Int)
  deriving DecidableEq, Repr

/-- A binary format: bits of precision, and the exponents of the least significant bit of its smallest and largest numbers. -/
structure Format where
  prec : Nat
  minExp : Int
  maxExp : Int
  deriving DecidableEq, Repr

/-- IEEE-754 binary32, subnormals included. -/
def binary32 : Format := { prec := 24, minExp := -149, maxExp := 104 }

/-- IEEE-754 binary64, subnormals included. -/
def binary64 : Format := { prec := 53, minExp := -1074, maxExp := 971 }

/-- `2^k` for `k ≥ 0`, and 1 below; `m * 2^k` is `m * pow2 k / pow2 (-k)` for every integer `k`. -/
def pow2 (k : Int) : Nat := 2 ^ k.toNat

/-- `a / b` to the nearest integer, ties to even. -/
def divNearestEven (a b : Nat) : Nat :=
  let q := a / b
  let r := a % b
  if 2 * r < b then q
  else if b < 2 * r then q + 1
  else if q % 2 = 0 then q
  else q + 1

/-- The exponent of the last bit that format `f` keeps of the positive number `num / den`. -/
def lastBitExp (f : Format) (num den : Nat) : Int :=
  let e : Int := (num.log2 : Int) - (den.log2 : Int) - ((f.prec : Int) - 1)
  let e' : Int := if num * pow2 (-e) < 2 ^ (f.prec - 1) * (den * pow2 e) then e - 1 else e
  max e' f.minExp

/-- `±num / den` rounded to format `f`: to nearest, ties to even, subnormals kept, beyond the largest number an infinity (R13). -/
def roundTo (f : Format) (neg : Bool) (num den : Nat) : FVal :=
  if num = 0 then .fin neg 0 f.minExp
  else
    let e := lastBitExp f num den
    let m := divNearestEven (num * pow2 (-e)) (den * pow2 e)
    let m' := if m = 2 ^ f.prec then 2 ^ (f.prec - 1) else m
    let e' := if m = 2 ^ f.prec then e + 1 else e
    if f.maxExp < e' then .inf neg else .fin neg m' e'

/-- `f32(w)`: the binary32 value a pattern denotes (R13); widening to binary64 changes no value. -/
def f32 (w : Word) : FVal :=
  let neg : Bool := w.extractLsb' 31 1 = 1#1
  let ex : Nat := (w.extractLsb' 23 8).toNat
  let fr : Nat := (w.extractLsb' 0 23).toNat
  if ex = 255 then (if fr = 0 then .inf neg else .nan)
  else if ex = 0 then .fin neg fr (-149)
  else .fin neg (2 ^ 23 + fr) ((ex : Int) - 150)

/-- The pattern of a drawn NaN (R168): exponent field all ones, fraction nonzero. -/
def nanWord (p : NaNPattern) : Word :=
  BitVec.ofBool p.neg ++ (255#8 ++ BitVec.ofNat 23 (p.fractionLessOne.val + 1))

/-- Whether a pattern is a NaN: exponent field all ones and a nonzero fraction (R13). -/
def isNaNPattern (w : Word) : Bool := w.extractLsb' 23 8 == 255#8 && w.extractLsb' 0 23 != 0#23

/-- `bits32(v)`: the pattern of a binary32 value in the form `roundTo binary32` gives (R13). A NaN has no one pattern: the
caller draws it (R168), and the draw passed in is used for it alone. -/
def bits32 (draw : NaNPattern) (v : FVal) : Word :=
  match v with
  | .nan => nanWord draw
  | .inf neg => BitVec.ofBool neg ++ (255#8 ++ 0#23)
  | .fin neg m e =>
    if m < 2 ^ 23 then BitVec.ofBool neg ++ (0#8 ++ BitVec.ofNat 23 m)
    else BitVec.ofBool neg ++ (BitVec.ofNat 8 (e + 150).toNat ++ BitVec.ofNat 23 (m - 2 ^ 23))

/-- `fl32(v)`: a binary64 value rounded to binary32 (R13). -/
def fl32 (v : FVal) : FVal :=
  match v with
  | .nan => .nan
  | .inf neg => .inf neg
  | .fin neg m e => roundTo binary32 neg (m * pow2 e) (pow2 (-e))

/-- A natural number as a binary64 value; exact below `2^53` (R162, R164). -/
def ofNat64 (n : Nat) : FVal := roundTo binary64 false n 1

/-- Negation: the sign flipped. -/
def fneg : FVal → FVal
  | .nan => .nan
  | .inf neg => .inf (!neg)
  | .fin neg m e => .fin (!neg) m e

/-- Binary64 product (R13): a NaN operand or `inf * 0` gives a NaN; the sign is the XOR of the signs. -/
def fmul : FVal → FVal → FVal
  | .nan, _ => .nan
  | .inf _, .nan => .nan
  | .inf a, .inf b => .inf (a != b)
  | .inf a, .fin b m _ => if m = 0 then .nan else .inf (a != b)
  | .fin _ _ _, .nan => .nan
  | .fin a m _, .inf b => if m = 0 then .nan else .inf (a != b)
  | .fin a m e, .fin b k g => roundTo binary64 (a != b) (m * k * pow2 (e + g)) (pow2 (-(e + g)))

/-- `±m` as an integer. -/
def signed (neg : Bool) (m : Nat) : Int := if neg then -(m : Int) else (m : Int)

/-- Binary64 sum (R13): `inf + -inf` gives a NaN; an exact zero sum is `-0.0` only when both operands are negative. -/
def fadd : FVal → FVal → FVal
  | .nan, _ => .nan
  | .inf _, .nan => .nan
  | .inf a, .inf b => if a = b then .inf a else .nan
  | .inf a, .fin _ _ _ => .inf a
  | .fin _ _ _, .nan => .nan
  | .fin _ _ _, .inf b => .inf b
  | .fin a m e, .fin b k g =>
    let c : Int := min e g
    let x : Int := signed a (m * pow2 (e - c)) + signed b (k * pow2 (g - c))
    if x = 0 then .fin (a && b) 0 binary64.minExp
    else roundTo binary64 (decide (x < 0)) (x.natAbs * pow2 c) (pow2 (-c))

/-- Binary64 difference: the sum with the negated second operand. -/
def fsub (x y : FVal) : FVal := fadd x (fneg y)

/-- Binary64 quotient (R13): `0 / 0` and `inf / inf` give a NaN, a nonzero number over zero an infinity. -/
def fdiv : FVal → FVal → FVal
  | .nan, _ => .nan
  | .inf _, .nan => .nan
  | .inf _, .inf _ => .nan
  | .inf a, .fin b _ _ => .inf (a != b)
  | .fin _ _ _, .nan => .nan
  | .fin a _ _, .inf b => .fin (a != b) 0 binary64.minExp
  | .fin a m e, .fin b k g =>
    if k = 0 then (if m = 0 then .nan else .inf (a != b))
    else roundTo binary64 (a != b) (m * pow2 (e - g)) (k * pow2 (g - e))

/-- `floor` of a nonnegative finite value, the only kind the resampler takes the floor of (R162, R164); 0 on others. -/
def floorNat : FVal → Nat
  | .fin false m e => m * pow2 e / pow2 (-e)
  | .fin true _ _ => 0
  | .nan => 0
  | .inf _ => 0

end Sys2Proof.Machine
end

