-- ==== Sys2Proof/Syntax.lean ====
section
/-! DEFINITION. The ten commands of 30_encoding.md R93 with their operand words, the CSR names of 10_state.md R29, and the
assembler's lines and pseudo-instructions (R107, R108). -/

namespace Sys2Proof

/-- The ten opcodes by name (R93, R96). -/
inductive Op where
  | enc | dec | rsmp | tx | rx | enq | clear | csrr | csrw | drain
  deriving DecidableEq, Repr

/-- A command: the header's fields and the operand words in order (R92, R94). `n` is the element count N of the header, `rin`
and `rout` are the rate words, `ws` the payload words as they stand on the port. -/
inductive Instr where
  | enc (n : BitVec 24) (ws : List Word)
  | dec (n : BitVec 24) (ws : List Word)
  | rsmp (n : BitVec 24) (rin rout : Word) (ws : List Word)
  | tx (n : BitVec 24) (rin rout : Word) (ws : List Word)
  | rx (n : BitVec 24) (rin rout : Word) (ws : List Word)
  | enq (n : BitVec 24) (ws : List Word)
  | clear
  | csrr (idx : BitVec 8)
  | csrw (idx : BitVec 8) (value : Word)
  | drain (n : BitVec 24)
  deriving DecidableEq, Repr

/-- The nine control and status registers (R29). -/
inductive Csr where
  | qsamples | qchunks | underruns | silence | overflows | dropped | policy | maxQueued | lastErr
  deriving DecidableEq, Repr

/-- A CSR as an assembler line names it: by its name or by a number 0 to 255 (R107). -/
inductive CsrRef where
  | name (c : Csr)
  | number (idx : BitVec 8)
  deriving DecidableEq, Repr

/-- One line of assembly (R107). A float literal is its binary32 pattern, a PCM16 literal an integer in [-32768, 32767]. The
sink's `S: DRAIN n` is `drain`; every other line is on port P. -/
inductive AsmLine where
  | enc (fs : List Word)
  | dec (samples : List Int)
  | rsmp (rin rout : Word) (fs : List Word)
  | tx (rin rout : Word) (fs : List Word)
  | rx (rin rout : Word) (samples : List Int)
  | enq (fs : List Word)
  | clear
  | csrr (csr : CsrRef)
  | csrw (csr : CsrRef) (value : Word)
  | drain (n : BitVec 24)
  deriving DecidableEq, Repr

/-- The pseudo-instructions (R108). -/
inductive Pseudo where
  | policyUnbounded
  | policyDropOldest
  | policyDropNewest
  | maxq (v : Word)
  | csrz (csr : CsrRef)
  | resample (rin rout : Word) (fs : List Word)
  deriving DecidableEq, Repr

end Sys2Proof
end

