-- ==== Sys2Proof/WellFormed.lean ====
section
/-! DEFINITION. When a command is well formed: its payload has the number of words its header announces (30_encoding.md R92,
R95). Field widths are the types' own. -/

namespace Sys2Proof

/-- Words that hold `n` PCM16 samples: `ceil(n/2)` (R65). -/
def pcmWords (n : Nat) : Nat := (n + 1) / 2

/-- The payload has the length the header's N gives it (R92, R95). -/
abbrev Instr.WellFormed : Instr → Prop
  | .enc n ws => ws.length = n.toNat
  | .dec n ws => ws.length = pcmWords n.toNat
  | .rsmp n _ _ ws => ws.length = n.toNat
  | .tx n _ _ ws => ws.length = n.toNat
  | .rx n _ _ ws => ws.length = pcmWords n.toNat
  | .enq n ws => ws.length = n.toNat
  | .clear => True
  | .csrr _ => True
  | .csrw _ _ => True
  | .drain _ => True

/-- A PCM16 literal's range (R107). -/
abbrev pcmRange (v : Int) : Prop := -32768 ≤ v ∧ v ≤ 32767

/-- An assembly line is well formed: the list fits COUNT_MAX elements and PCM16 literals are in range (R94, R107). -/
abbrev AsmLine.WellFormed : AsmLine → Prop
  | .enc fs => fs.length ≤ countMax
  | .dec ss => ss.length ≤ countMax ∧ ∀ v ∈ ss, pcmRange v
  | .rsmp _ _ fs => fs.length ≤ countMax
  | .tx _ _ fs => fs.length ≤ countMax
  | .rx _ _ ss => ss.length ≤ countMax ∧ ∀ v ∈ ss, pcmRange v
  | .enq fs => fs.length ≤ countMax
  | .clear => True
  | .csrr _ => True
  | .csrw _ _ => True
  | .drain _ => True

end Sys2Proof
end

