-- ==== Sys2Proof/Decode.lean ====
section
/-! DEFINITION. Reading commands from a port's words and writing them (30_encoding.md R90 to R106), total on any words, and
the byte order of serialised words (20_memory.md R63, R64). -/

namespace Sys2Proof

/-! ### Header fields -/

/-- OP, header bits [31:24] (R91). -/
def headerOp (h : Word) : BitVec 8 := h.extractLsb' 24 8

/-- ARG, header bits [23:0]; N of formats L and R (R91, R94). -/
def headerArg (h : Word) : BitVec 24 := h.extractLsb' 0 24

/-- IDX, header bits [7:0] of format C (R92, R94). -/
def headerIdx (h : Word) : BitVec 8 := h.extractLsb' 0 8

/-- The bits [23:8] that format C reserves (R92). -/
def headerCsrReserved (h : Word) : BitVec 16 := h.extractLsb' 8 16

/-- The opcode numbers (R93). -/
def opCode : Op → BitVec 8
  | .enc => 0x01
  | .dec => 0x02
  | .rsmp => 0x03
  | .tx => 0x04
  | .rx => 0x05
  | .enq => 0x06
  | .clear => 0x07
  | .csrr => 0x08
  | .csrw => 0x09
  | .drain => 0x0A

/-- The opcode a number names; 0x00 and 0x0B to 0xFF name none (R93, R100). -/
def opOfCode? (c : BitVec 8) : Option Op :=
  if c = 0x01 then some .enc
  else if c = 0x02 then some .dec
  else if c = 0x03 then some .rsmp
  else if c = 0x04 then some .tx
  else if c = 0x05 then some .rx
  else if c = 0x06 then some .enq
  else if c = 0x07 then some .clear
  else if c = 0x08 then some .csrr
  else if c = 0x09 then some .csrw
  else if c = 0x0A then some .drain
  else none

/-- The port an opcode belongs to: DRAIN to the sink, every other to the producer (R93, R282). -/
def opPort : Op → Port
  | .drain => .sink
  | .enc | .dec | .rsmp | .tx | .rx | .enq | .clear | .csrr | .csrw => .producer

/-- Whether a header sets argument bits its format reserves (R92, R101). -/
def reservedBitsSet (op : Op) (h : Word) : Bool :=
  match op with
  | .clear => headerArg h != 0
  | .csrr | .csrw => headerCsrReserved h != 0
  | .enc | .dec | .rsmp | .tx | .rx | .enq | .drain => false

/-- Why a header is no command (R100, R101, R102). -/
inductive HeaderError where
  | undefinedOp
  | reservedBits
  | wrongPort
  deriving DecidableEq, Repr

/-- The three header checks in the order of R106. -/
def checkHeader (p : Port) (h : Word) : Except HeaderError Op :=
  match opOfCode? (headerOp h) with
  | none => .error .undefinedOp
  | some op =>
    if reservedBitsSet op h then .error .reservedBits
    else if opPort op = p then .ok op
    else .error .wrongPort

/-- Operand words after the header, `w - 1` of R95, for element count `n`. -/
def operandCount (op : Op) (n : Nat) : Nat :=
  match op with
  | .enc | .enq => n
  | .dec => pcmWords n
  | .rsmp | .tx => 2 + n
  | .rx => 2 + pcmWords n
  | .csrw => 1
  | .clear | .csrr | .drain => 0

/-- The command of a header and its operand words (R92, R94). -/
def assemble (op : Op) (h : Word) (ops : List Word) : Instr :=
  match op with
  | .enc => .enc (headerArg h) ops
  | .dec => .dec (headerArg h) ops
  | .rsmp => .rsmp (headerArg h) (ops.getD 0 0) (ops.getD 1 0) (ops.drop 2)
  | .tx => .tx (headerArg h) (ops.getD 0 0) (ops.getD 1 0) (ops.drop 2)
  | .rx => .rx (headerArg h) (ops.getD 0 0) (ops.getD 1 0) (ops.drop 2)
  | .enq => .enq (headerArg h) ops
  | .clear => .clear
  | .csrr => .csrr (headerIdx h)
  | .csrw => .csrw (headerIdx h) (ops.getD 0 0)
  | .drain => .drain (headerArg h)

/-- What the words at the front of an input stream are. -/
inductive Decoded where
  /-- a whole command, and the words after it -/
  | command (i : Instr) (rest : List Word)
  /-- a header that is no command: it alone is taken (R100 to R102) -/
  | illegal (e : HeaderError) (header : Word) (rest : List Word)
  /-- no header yet, or a command whose words have not all arrived: the port is held (R42, R310) -/
  | incomplete
  deriving DecidableEq, Repr

/-- The decoder: total on any words of a port (R103, R106). -/
def decode (p : Port) (ws : List Word) : Decoded :=
  match ws with
  | [] => .incomplete
  | h :: rest =>
    match checkHeader p h with
    | .error e => .illegal e h rest
    | .ok op =>
      let k := operandCount op (headerArg h).toNat
      if rest.length < k then .incomplete
      else .command (assemble op h (rest.take k)) (rest.drop k)

/-! ### Encoding -/

/-- The opcode of a command. -/
def instrOp : Instr → Op
  | .enc .. => .enc
  | .dec .. => .dec
  | .rsmp .. => .rsmp
  | .tx .. => .tx
  | .rx .. => .rx
  | .enq .. => .enq
  | .clear => .clear
  | .csrr .. => .csrr
  | .csrw .. => .csrw
  | .drain .. => .drain

/-- The port a command is issued on (R93). -/
def instrPort (i : Instr) : Port := opPort (instrOp i)

/-- The argument field ARG of a command's header (R92). -/
def instrArg : Instr → BitVec 24
  | .enc n _ => n
  | .dec n _ => n
  | .rsmp n _ _ _ => n
  | .tx n _ _ _ => n
  | .rx n _ _ _ => n
  | .enq n _ => n
  | .clear => 0
  | .csrr idx => (0 : BitVec 16) ++ idx
  | .csrw idx _ => (0 : BitVec 16) ++ idx
  | .drain n => n

/-- The header word `OP` in [31:24] and `ARG` in [23:0] (R91). -/
def instrHeader (i : Instr) : Word := opCode (instrOp i) ++ instrArg i

/-- The operand words of a command, in order (R92). -/
def instrOperands : Instr → List Word
  | .enc _ ws => ws
  | .dec _ ws => ws
  | .rsmp _ rin rout ws => rin :: rout :: ws
  | .tx _ rin rout ws => rin :: rout :: ws
  | .rx _ rin rout ws => rin :: rout :: ws
  | .enq _ ws => ws
  | .clear => []
  | .csrr _ => []
  | .csrw _ v => [v]
  | .drain _ => []

/-- The words of a command (R90). -/
def encode (i : Instr) : List Word := instrHeader i :: instrOperands i

/-! ### CSR indices -/

/-- The index of a CSR (R29). -/
def csrIndex : Csr → BitVec 8
  | .qsamples => 0x00
  | .qchunks => 0x01
  | .underruns => 0x02
  | .silence => 0x03
  | .overflows => 0x04
  | .dropped => 0x05
  | .policy => 0x06
  | .maxQueued => 0x07
  | .lastErr => 0x08

/-- The CSR an index names; 0x09 to 0xFF name none (R29). -/
def csrOfIndex? (idx : BitVec 8) : Option Csr :=
  if idx = 0x00 then some .qsamples
  else if idx = 0x01 then some .qchunks
  else if idx = 0x02 then some .underruns
  else if idx = 0x03 then some .silence
  else if idx = 0x04 then some .overflows
  else if idx = 0x05 then some .dropped
  else if idx = 0x06 then some .policy
  else if idx = 0x07 then some .maxQueued
  else if idx = 0x08 then some .lastErr
  else none

/-! ### Serialised bytes -/

/-- The four bytes of a word, low byte first (R64). -/
def wordBytes (w : Word) : List Byte :=
  [w.extractLsb' 0 8, w.extractLsb' 8 8, w.extractLsb' 16 8, w.extractLsb' 24 8]

/-- The two bytes of a PCM16 sample's pattern, low byte first (R63). -/
def halfBytes (h : Half) : List Byte := [h.extractLsb' 0 8, h.extractLsb' 8 8]

/-- A host's byte buffer as words; a length that is no multiple of four cannot be presented to a port (R64, R69). -/
def frameBytes : List Byte → Option (List Word)
  | [] => some []
  | b0 :: b1 :: b2 :: b3 :: bs => (frameBytes bs).map (fun ws => (b3 ++ b2 ++ b1 ++ b0) :: ws)
  | _ => none

/-! ### One instruction placed from outside -/

/-- The port whose command a header would be: the sink for DRAIN's OP, the producer for every other (R93). -/
def headerPort (h : Word) : Port := if headerOp h = opCode .drain then .sink else .producer

/-- The words of an instruction whose bits are `w`, bit 0 the least significant of its first word: the header, and as many
operand words as the header announces, each operand bit at or above `nbits` zero. -/
def tableWords (nbits w : Nat) : List Word :=
  let b := w % 2 ^ nbits
  let h : Word := BitVec.ofNat 32 b
  let k := match checkHeader (headerPort h) h with
    | .ok op => operandCount op (headerArg h).toNat
    | .error _ => 0
  h :: (List.range k).map (fun j => BitVec.ofNat 32 (b >>> (32 * (j + 1))))

/-- What `decode` reads from the words of `tableWords`, on the port the opcode belongs to. -/
def decodeTableWord (nbits w : Nat) : Option Instr :=
  let ws := tableWords nbits w
  match decode (headerPort (BitVec.ofNat 32 (w % 2 ^ nbits))) ws with
  | .command i _ => some i
  | .illegal _ _ _ => none
  | .incomplete => none

end Sys2Proof
end

