-- ==== Sys2Proof/Machine/Operands.lean ====
section
/-! DEFINITION. The operand forms: PCM16 samples in the halves of words (20_memory.md R65, 30_encoding.md R94). Float operands
are the words themselves (R67). -/

namespace Sys2Proof.Machine

/-- `int16(h)`: a half read as a two's-complement integer (R12). -/
def int16 (h : Half) : Int := h.toInt

/-- `bits16(n)`: the two's-complement half of an integer (R12). -/
def bits16 (n : Int) : Half := BitVec.ofInt 16 n

/-- Bits [15:0] of a PCM16 word, the even sample (R65). -/
def lowHalf (w : Word) : Half := w.extractLsb' 0 16

/-- Bits [31:16] of a PCM16 word, the odd sample or padding (R65). -/
def highHalf (w : Word) : Half := w.extractLsb' 16 16

/-- `pack16`: two samples a word, the even one low; the pad half of an odd count is 0x0000 (R65). -/
def pack16 : List Half → List Word
  | [] => []
  | [a] => [(0 : Half) ++ a]
  | a :: b :: hs => (b ++ a) :: pack16 hs

/-- All the halves of PCM16 words, even sample first. -/
def halves : List Word → List Half
  | [] => []
  | w :: ws => lowHalf w :: highHalf w :: halves ws

/-- The `n` samples of PCM16 payload words; the pad half of an odd count is ignored (R65, R94). -/
def pcmSamples (n : Nat) (ws : List Word) : List Int := ((halves ws).take n).map int16

/-- The words of a PCM16 sample sequence (R65). -/
def packSamples (xs : List Int) : List Word := pack16 (xs.map bits16)

end Sys2Proof.Machine
end

