-- ==== Sys2Proof/Machine/State.lean ====
section
/-! DEFINITION. Everything the spec gives the block to hold (10_state.md), the reset state (R44), and the reasons a step can
stop. -/

namespace Sys2Proof.Machine

/-- A playback chunk: its samples as binary32 patterns, exactly as enqueued, and the index of its first unconsumed sample (R24). -/
structure Chunk where
  data : List Word
  cursor : Nat
  deriving DecidableEq, Repr

/-- A port: the words supplied and not taken, the count of words taken since reset, the words written and not read (R23, R42). -/
structure PortState where
  input : List Word
  pos : Nat
  output : List Word
  deriving DecidableEq, Repr

/-- The named model faults (R41, R280). -/
inductive ModelFault where
  | storageExhausted
  | resampleIndexGuard
  deriving DecidableEq, Repr

/-- What the host H can do (R317). -/
inductive HostAct where
  /-- supply words to a port's input stream -/
  | supply (p : Port) (ws : List Word)
  /-- read the oldest unread response word of a port -/
  | read (p : Port)
  /-- assert reset (R300) -/
  | reset
  deriving DecidableEq, Repr

/-- One entry of the linearization still to come (R72): the port asked next, or an action of H. -/
inductive Event where
  | turn (p : Port)
  | host (a : HostAct)
  deriving DecidableEq, Repr

/-- The state of RAVR-CORE. The first nine fields and the two ports are the spec's (R24, R29 to R42); QSAMPLES and QCHUNKS are
derived from `queue` (R30, R31). `params` are the spec's open parameters (R9, R43). `turns` and `agenda` are the model's
own: the index of the next free choice and the order of steps still to come (log entries 2 and 3). -/
structure State where
  queue : List Chunk
  underruns : Word
  silence : Word
  overflows : Word
  dropped : Word
  policy : Word
  maxQueued : Word
  lastErr : Word
  fault : Option ModelFault
  producer : PortState
  sink : PortState
  params : Params
  turns : Nat
  agenda : List Event
  deriving DecidableEq, Repr

/-- Why a step stops. -/
inductive Fault where
  /-- Raised by every step of a port while `State.fault` holds a model fault: no agent of the block has a further step until
  reset (R41, R280). Safe: the spec gives such a state no step. -/
  | stopped (f : ModelFault)
  /-- Raised when the agenda is empty and no input word waits on either port: no agent has a step (R288). Safe. -/
  | idle
  /-- Raised when the agenda is empty, no port has a step and a port is held by an incomplete command (R310, R316). Safe. -/
  | held
  deriving DecidableEq, Repr

/-- Why an instruction has no meaning. -/
inductive Refusal where
  /-- An instruction not modelled yet, by its mnemonic; raised by no arm, since every command has its meaning. Safe. -/
  | notModelled (mnemonic : String)
  deriving DecidableEq, Repr

/-- A port after reset: streams empty, position 0 (R44). -/
def PortState.reset : PortState := { input := [], pos := 0, output := [] }

/-- The state right after reset (R44, R300). STORAGE_CAP and CHUNK_CAP `none` is the model's choice (log entry 5), as are the
model's own two fields (log entries 2 and 3). -/
def State.reset : State where
  queue := []
  underruns := 0
  silence := 0
  overflows := 0
  dropped := 0
  policy := 0
  maxQueued := 0xFFFFFFFF
  lastErr := 0
  fault := none
  producer := PortState.reset
  sink := PortState.reset
  params := { storageCap := none, chunkCap := none }
  turns := 0
  agenda := []

end Sys2Proof.Machine
end

