-- ==== Sys2Proof/Machine/Flags.lean ====
section
/-! DEFINITION. The block has no flags (10_state.md R39); in their place: the status codes (60_exceptions.md R270), the response
header that carries one (30_encoding.md R104), the LAST_ERR word that keeps the last nonzero one (R38, R275), and the four
diagnostic counters (R32 to R35). -/

namespace Sys2Proof.Machine

/-- The response statuses (R270); codes 0x05 to 0xFF are never produced, so none names them. -/
inductive Status where
  | ok
  | invalidArgument
  | illegalCommand
  | illegalCsr
  | resultTooLong
  deriving DecidableEq, Repr

/-- The code of a status (R270). -/
def statusCode : Status → BitVec 8
  | .ok => 0x00
  | .invalidArgument => 0x01
  | .illegalCommand => 0x02
  | .illegalCsr => 0x03
  | .resultTooLong => 0x04

/-- The response header: STATUS [31:24], COUNT [23:0] (R104). -/
def responseHeader (st : Status) (count : BitVec 24) : Word := statusCode st ++ count

/-- The number LAST_ERR records for a port: 0 for P, 1 for S (R38, R286). -/
def portBit : Port → BitVec 1
  | .producer => 0
  | .sink => 1

/-- The LAST_ERR word of a rejection: STATUS [7:0], OPCODE [15:8], PORT [16], bits [31:17] zero (R275). -/
def errorWord (p : Port) (opcode : BitVec 8) (st : Status) : Word :=
  (0 : BitVec 15) ++ portBit p ++ opcode ++ statusCode st

/-- A drain that wrote `sil` silence samples: UNDERRUNS and SILENCE move when there is any (R196, R200). -/
def countUnderrun (sil : Nat) (s : State) : State :=
  if sil = 0 then s
  else { s with underruns := s.underruns + 1, silence := s.silence + BitVec.ofNat 32 sil }

/-- An enqueue that dropped `d` samples: OVERFLOWS and DROPPED move when there is any (R191). -/
def countOverflow (d : Nat) (s : State) : State :=
  if d = 0 then s
  else { s with overflows := s.overflows + 1, dropped := s.dropped + BitVec.ofNat 32 d }

end Sys2Proof.Machine
end

