-- ==== Sys2Proof/Machine/Ops.lean ====
section
/-! DEFINITION. The shared operations: the ports (00_scope.md R15, R16), rejection and model fault as the block's two ways of
leaving a command undone (60_exceptions.md R274 to R280), the queue (10_state.md R24 to R28, 42_playback.md), and reset. -/

namespace Sys2Proof.Machine

/-! ### Ports -/

/-- The port named. -/
def portOf (p : Port) (s : State) : PortState :=
  match p with
  | .producer => s.producer
  | .sink => s.sink

/-- The state with one port replaced. -/
def setPort (p : Port) (ps : PortState) (s : State) : State :=
  match p with
  | .producer => { s with producer := ps }
  | .sink => { s with sink := ps }

/-- Take words from the front of a port's input stream: `k` words go, `rest` remains, the stream position advances by `k` (R15, R23). -/
def takeWords (p : Port) (k : Nat) (rest : List Word) (s : State) : State :=
  setPort p { portOf p s with input := rest, pos := (portOf p s).pos + k } s

/-- `OutWord` for a whole response: words appended to a port's response stream (R15, R42). -/
def writeWords (p : Port) (ws : List Word) (s : State) : State :=
  setPort p { portOf p s with output := (portOf p s).output ++ ws } s

/-- `respond(st, n, ws)`: the response header, then the payload (R16, R104). -/
def respond (p : Port) (st : Status) (count : Nat) (ws : List Word) (s : State) : State :=
  writeWords p (responseHeader st (BitVec.ofNat 24 count) :: ws) s

/-! ### Rejection and model fault -/

/-- `reject(st)`, the block's exception entry: LAST_ERR records status, opcode and port, one response word is written, nothing
else changes (R16, R274, R275). There is no return from it: the port's next word is its next header (R276). -/
def reject (p : Port) (opcode : BitVec 8) (st : Status) (s : State) : State :=
  respond p st 0 [] { s with lastErr := errorWord p opcode st }

/-- `raise Fault(f)`: the fault field takes the name and no response is written (R16, R280). -/
def raiseFault (f : ModelFault) (s : State) : State := { s with fault := some f }

/-! ### The queue -/

/-- Unconsumed samples of a chunk. -/
def chunkAvail (c : Chunk) : Nat := c.data.length - c.cursor

/-- The unconsumed samples of a chunk, in order. -/
def chunkPending (c : Chunk) : List Word := c.data.drop c.cursor

/-- `queued(Q)` (R26). -/
def queued : List Chunk → Nat
  | [] => 0
  | c :: q => chunkAvail c + queued q

/-- `pending(Q)` (R26). -/
def pending : List Chunk → List Word
  | [] => []
  | c :: q => chunkPending c ++ pending q

/-- `drain(n)` without its silence and counters: the samples delivered and the queue left (R196). The walk stops when the frame
is full; a chunk left with samples keeps the head with its cursor advanced, any other reached chunk is removed. -/
def drainQueue (n : Nat) : List Chunk → List Word × List Chunk
  | [] => ([], [])
  | c :: q =>
    if n = 0 then ([], c :: q)
    else
      let take := min (chunkAvail c) n
      let got := (chunkPending c).take take
      if take < chunkAvail c then (got, { c with cursor := c.cursor + take } :: q)
      else
        let r := drainQueue (n - take) q
        (got ++ r.1, r.2)

/-- `discard_oldest(k)` (R204): the walk of a drain without copying. -/
def discardOldest (k : Nat) : List Chunk → List Chunk
  | [] => []
  | c :: q =>
    if k = 0 then c :: q
    else if chunkAvail c ≤ k then discardOldest (k - chunkAvail c) q
    else { c with cursor := c.cursor + k } :: q

/-- What an enqueue does to its samples: how many of the oldest queued ones go, what of the chunk is kept, how many are dropped. -/
structure OverflowPlan where
  discard : Nat
  kept : List Word
  dropped : Nat
  deriving DecidableEq, Repr

/-- MODE of POLICY, bits [1:0] (R36). -/
def policyMode (policy : Word) : BitVec 2 := policy.extractLsb' 0 2

/-- The overflow policy of an enqueue of `c` while `t` samples are queued (R191, R202 to R204). `t + len(c)` is an unbounded
natural number. MODE 3 cannot occur (R36); the last arm is the pseudocode's `else` (log entry 11). -/
def overflowPlan (mode : BitVec 2) (maxq t : Nat) (c : List Word) : OverflowPlan :=
  if mode = 0 ∨ t + c.length ≤ maxq then { discard := 0, kept := c, dropped := 0 }
  else if mode = 2 then
    let keep := maxq - t
    { discard := 0, kept := c.take keep, dropped := c.length - keep }
  else
    let excess := t + c.length - maxq
    let dq := min excess t
    { discard := dq, kept := c.drop (excess - dq), dropped := excess }

/-- Whether a count exceeds a capacity parameter; `none` is unbounded (R195). -/
def exceeds (n : Nat) (cap : Option Nat) : Bool :=
  match cap with
  | none => false
  | some k => k < n

/-- Whether appending `m` samples to `q` would outgrow the storage (R195). -/
def outgrows (params : Params) (q : List Chunk) (m : Nat) : Bool :=
  exceeds (queued q + m) params.storageCap || exceeds (q.length + 1) params.chunkCap

/-- How an enqueue ends: with samples accepted, or in StorageExhausted. -/
inductive Enqueued where
  | accepted (s : State) (count : Nat)
  | exhausted (s : State)
  deriving DecidableEq, Repr

/-- `enqueue(c)` (R191). The pseudocode's order: discard, storage check, append, counters; a queue the fault stops keeps the
discard (log entry 7). -/
def enqueue (c : List Word) (s : State) : Enqueued :=
  let plan := overflowPlan (policyMode s.policy) s.maxQueued.toNat (queued s.queue) c
  let q := discardOldest plan.discard s.queue
  if outgrows s.params q plan.kept.length then .exhausted (raiseFault .storageExhausted { s with queue := q })
  else .accepted (countOverflow plan.dropped { s with queue := q ++ [{ data := plan.kept, cursor := 0 }] }) plan.kept.length

/-- `zeros(k)`: silence, `k` patterns of +0.0 (R14, R196). -/
def silenceWords (k : Nat) : List Word := List.replicate k 0

/-- `drain(n)`: the frame of exactly `n` samples, and the state after (R196). -/
def drain (n : Nat) (s : State) : List Word × State :=
  let r := drainQueue n s.queue
  let sil := n - r.1.length
  (r.1 ++ silenceWords sil, countUnderrun sil { s with queue := r.2 })

/-! ### Reset -/

/-- Reset asserted by H (R300): every piece of the spec's state takes its value of R44. The parameters and the model's own
fields are not the block's and stay (log entry 9). -/
def resetBlock (s : State) : State :=
  { State.reset with params := s.params, turns := s.turns, agenda := s.agenda }

end Sys2Proof.Machine
end

