-- ==== Sys2Proof/Machine/Codec.lean ====
section
/-! DEFINITION. The PCM16 codec: encode, decode, ENC, DEC (40_codec.md). -/

namespace Sys2Proof.Machine

/-- `max(-1.0, min(1.0, x))` on a value that is no NaN (R130). -/
def clampUnit : FVal → FVal
  | .nan => .nan
  | .inf neg => .fin neg 1 0
  | .fin neg m e => if pow2 (-e) ≤ m * pow2 e then .fin neg 1 0 else .fin neg m e

/-- `trunc` of the exact product of `±m * 2^e` and a scale (R130, R131). -/
def truncScaled (neg : Bool) (m : Nat) (e : Int) (scale : Nat) : Int := signed neg (m * scale * pow2 e / pow2 (-e))

/-- `encode` on a binary32 pattern (R130): NaN gives 0; a value below zero (so not -0.0) is scaled by 32768, any other by 32767. -/
def encodeSample (w : Word) : Int :=
  match clampUnit (f32 w) with
  | .nan => 0
  | .inf _ => 0
  | .fin neg m e => if neg = true ∧ m ≠ 0 then truncScaled neg m e 32768 else truncScaled neg m e 32767

/-- `decode` on a PCM16 integer (R133): the pattern of `n / 32768`, which is exact and never a NaN. -/
def decodeSample (n : Int) : Word := bits32 default (roundTo binary32 (decide (n < 0)) n.natAbs 32768)

/-- ENC (R135). -/
def execEnc (n : BitVec 24) (ws : List Word) (s : State) : Host.Outcome State Fault Refusal :=
  .next (respond .producer .ok n.toNat (packSamples (ws.map encodeSample)) s)

/-- DEC (R136). -/
def execDec (n : BitVec 24) (ws : List Word) (s : State) : Host.Outcome State Fault Refusal :=
  .next (respond .producer .ok n.toNat ((pcmSamples n.toNat ws).map decodeSample) s)

end Sys2Proof.Machine
end

