-- ==== Sys2Proof/Machine/Resampler.lean ====
section
/-! DEFINITION. The linear-interpolation resampler and RSMP (41_resampler.md). -/

namespace Sys2Proof.Machine

/-- `ratio = fl64(ROUT / RIN)` (R162). -/
def rateRatio (rin rout : Word) : FVal := fdiv (ofNat64 rout.toNat) (ofNat64 rin.toNat)

/-- The output length M of `len` input samples, for nonzero rates (R162). -/
def outLen (len : Nat) (rin rout : Word) : Nat :=
  if rin = rout then len else floorNat (fmul (ofNat64 len) (rateRatio rin rout))

/-- `pos = fl64(i / ratio)` (R164). -/
def samplePos (ratio : FVal) (i : Nat) : FVal := fdiv (ofNat64 i) ratio

/-- Output sample `i` before its rounding to binary32, in the order of the formula of R164; `none` where the index guard
`low > L - 1` fires (R166). -/
def interpolate (x : List Word) (ratio : FVal) (i : Nat) : Option FVal :=
  let pos := samplePos ratio i
  let low := floorNat pos
  if x.length ≤ low then none
  else
    let high := min (low + 1) (x.length - 1)
    let t := fsub pos (ofNat64 low)
    let u := fsub (ofNat64 1) t
    let a := fmul (f32 (x.getD low 0)) u
    let b := fmul (f32 (x.getD high 0)) t
    some (fadd a b)

/-- Output samples `i` to `i + k - 1` (R164): each rounded once to binary32; a NaN sample takes the draw of its own index (R168). -/
def interpolateFrom (x : List Word) (ratio : FVal) (draw : Nat → NaNPattern) (i : Nat) : Nat → Option (List Word)
  | 0 => some []
  | k + 1 =>
    match interpolate x ratio i with
    | none => none
    | some v =>
      match interpolateFrom x ratio draw (i + 1) k with
      | none => none
      | some ys => some (bits32 (draw i) (fl32 v) :: ys)

/-- The resampler for nonzero rates with the patterns of its NaN samples given by `draw` (R163, R164, R168): the input itself for
equal rates; `none` where the index guard fires. -/
def resampleWith (draw : Nat → NaNPattern) (x : List Word) (rin rout : Word) : Option (List Word) :=
  if rin = rout then some x
  else interpolateFrom x (rateRatio rin rout) draw 0 (outLen x.length rin rout)

/-- `resample(x, RIN, ROUT)` for nonzero rates (R160), a function of its arguments alone: its NaN samples are the free values of
those arguments (R168; log entry 4). -/
def resample (x : List Word) (rin rout : Word) : Option (List Word) := resampleWith (Config.nanDraw x rin rout) x rin rout

/-- How a resampling command comes out before it responds. -/
inductive Resampled where
  | rejected (st : Status)
  | guard
  | samples (ys : List Word)
  deriving DecidableEq, Repr

/-- The checks and the resampling that RSMP, TX and RX share, in the order of R170 and R273. -/
def resampleChecked (rin rout : Word) (x : List Word) : Resampled :=
  if rin = 0 ∨ rout = 0 then .rejected .invalidArgument
  else if countMax < outLen x.length rin rout then .rejected .resultTooLong
  else
    match resample x rin rout with
    | none => .guard
    | some ys => .samples ys

/-- RSMP (R170). -/
def execRsmp (_n : BitVec 24) (rin rout : Word) (ws : List Word) (s : State) : Host.Outcome State Fault Refusal :=
  match resampleChecked rin rout ws with
  | .rejected st => .next (reject .producer (opCode .rsmp) st s)
  | .guard => .next (raiseFault .resampleIndexGuard s)
  | .samples ys => .next (respond .producer .ok ys.length ys s)

end Sys2Proof.Machine
end

