-- ==== Sys2Proof/Machine/Pipeline.lean ====
section
/-! DEFINITION. The capture and receive paths, TX and RX (43_pipeline_and_csr.md R240 to R244). -/

namespace Sys2Proof.Machine

/-- TX (R240): resample, then encode. A NaN the resampler produces encodes to 0, whatever its pattern. -/
def execTx (_n : BitVec 24) (rin rout : Word) (ws : List Word) (s : State) : Host.Outcome State Fault Refusal :=
  match resampleChecked rin rout ws with
  | .rejected st => .next (reject .producer (opCode .tx) st s)
  | .guard => .next (raiseFault .resampleIndexGuard s)
  | .samples ys => .next (respond .producer .ok ys.length (packSamples (ys.map encodeSample)) s)

/-- RX (R243): decode, resample, enqueue; COUNT is the resampled length M, whatever the policy kept. -/
def execRx (n : BitVec 24) (rin rout : Word) (ws : List Word) (s : State) : Host.Outcome State Fault Refusal :=
  match resampleChecked rin rout ((pcmSamples n.toNat ws).map decodeSample) with
  | .rejected st => .next (reject .producer (opCode .rx) st s)
  | .guard => .next (raiseFault .resampleIndexGuard s)
  | .samples ys =>
    match enqueue ys s with
    | .exhausted s' => .next s'
    | .accepted s' _ => .next (respond .producer .ok ys.length [] s')

end Sys2Proof.Machine
end

