-- ==== Sys2Proof/Machine/Playback.lean ====
section
/-! DEFINITION. The playback commands ENQ, DRAIN, CLEAR (42_playback.md). -/

namespace Sys2Proof.Machine

/-- ENQ (R192): never rejected (R194); StorageExhausted stops the block without a response (R195, R280). -/
def execEnq (_n : BitVec 24) (ws : List Word) (s : State) : Host.Outcome State Fault Refusal :=
  match enqueue ws s with
  | .exhausted s' => .next s'
  | .accepted s' count => .next (respond .producer .ok count [] s')

/-- CLEAR (R210): the queue alone. -/
def execClear (s : State) : Host.Outcome State Fault Refusal :=
  .next (respond .producer .ok 0 [] { s with queue := [] })

/-- DRAIN, one invocation of the callback adapter (R197, R206). -/
def execDrain (n : BitVec 24) (s : State) : Host.Outcome State Fault Refusal :=
  .next (respond .sink .ok n.toNat (drain n.toNat s).1 (drain n.toNat s).2)

end Sys2Proof.Machine
end

