-- ==== Sys2Proof/Machine/Registers.lean ====
section
/-! DEFINITION. The control and status registers: CSRR and CSRW (10_state.md R29 to R38, 43_pipeline_and_csr.md R250 to R253). -/

namespace Sys2Proof.Machine

/-- A gauge: saturates at `2^32 - 1` (R30, R31). -/
def saturate32 (n : Nat) : Word := BitVec.ofNat 32 (min n (2 ^ 32 - 1))

/-- The value of a CSR (R30 to R38). -/
def csrValue (c : Csr) (s : State) : Word :=
  match c with
  | .qsamples => saturate32 (queued s.queue)
  | .qchunks => saturate32 s.queue.length
  | .underruns => s.underruns
  | .silence => s.silence
  | .overflows => s.overflows
  | .dropped => s.dropped
  | .policy => s.policy
  | .maxQueued => s.maxQueued
  | .lastErr => s.lastErr

/-- POLICY accepts a value: bits [31:2] zero and MODE not 3 (R36). -/
def policyAccepts (v : Word) : Bool := v.extractLsb' 2 30 == 0#30 && policyMode v != 3#2

/-- LAST_ERR accepts a value: bits [31:17] zero (R38). -/
def lastErrAccepts (v : Word) : Bool := v.extractLsb' 17 15 == 0#15

/-- The state after an accepted write of a CSR, `none` for a rejected one: a read-only CSR, a reserved bit, the reserved MODE (R252, R253). -/
def csrWrite? (c : Csr) (v : Word) (s : State) : Option State :=
  match c with
  | .qsamples => none
  | .qchunks => none
  | .underruns => some { s with underruns := v }
  | .silence => some { s with silence := v }
  | .overflows => some { s with overflows := v }
  | .dropped => some { s with dropped := v }
  | .policy => if policyAccepts v then some { s with policy := v } else none
  | .maxQueued => some { s with maxQueued := v }
  | .lastErr => if lastErrAccepts v then some { s with lastErr := v } else none

/-- CSRR (R250, R251). -/
def execCsrr (idx : BitVec 8) (s : State) : Host.Outcome State Fault Refusal :=
  match csrOfIndex? idx with
  | none => .next (reject .producer (opCode .csrr) .illegalCsr s)
  | some c => .next (respond .producer .ok 1 [csrValue c s] s)

/-- CSRW (R252, R253). -/
def execCsrw (idx : BitVec 8) (value : Word) (s : State) : Host.Outcome State Fault Refusal :=
  match csrOfIndex? idx with
  | none => .next (reject .producer (opCode .csrw) .illegalCsr s)
  | some c =>
    match csrWrite? c value s with
    | none => .next (reject .producer (opCode .csrw) .illegalCsr s)
    | some s' => .next (respond .producer .ok 0 [] s')

end Sys2Proof.Machine
end

