-- ==== Sys2Proof/Machine/Dispatch.lean ====
section
/-! DEFINITION. One arm per command of 30_encoding.md R93. -/

namespace Sys2Proof.Machine

def exec (i : Instr) (s : State) : Host.Outcome State Fault Refusal :=
  match i with
  | .enc n ws => Sys2Proof.Machine.execEnc n ws s
  | .dec n ws => Sys2Proof.Machine.execDec n ws s
  | .rsmp n rin rout ws => Sys2Proof.Machine.execRsmp n rin rout ws s
  | .tx n rin rout ws => Sys2Proof.Machine.execTx n rin rout ws s
  | .rx n rin rout ws => Sys2Proof.Machine.execRx n rin rout ws s
  | .enq n ws => Sys2Proof.Machine.execEnq n ws s
  | .clear => Sys2Proof.Machine.execClear s
  | .csrr idx => Sys2Proof.Machine.execCsrr idx s
  | .csrw idx value => Sys2Proof.Machine.execCsrw idx value s
  | .drain n => Sys2Proof.Machine.execDrain n s

end Sys2Proof.Machine
end

