-- ==== Sys2Proof/Machine/Agents.lean ====
section
/-! DEFINITION. Who moves and what its step is: the ports P and S, the host H, and their order (10_state.md R20, R21, R42,
20_memory.md R72, 70_reset_and_hazards.md R300, R310, R317). -/

namespace Sys2Proof.Machine

/-- Words a command takes: the header and its operand words (R95). -/
def commandWords (i : Instr) : Nat := (encode i).length

/-- One step of a port that is asked to move. A faulted block has no step (R41, R280); a port held by an incomplete command, or
with no word, takes none and the turn passes (R42, R310; log entry 8); a header that is no command is rejected with
ILLEGAL_COMMAND and alone taken (R100 to R102); a command is taken whole and executed (R21, R106). -/
def runPort (p : Port) (s : State) : Host.Outcome State Fault Refusal :=
  match s.fault with
  | some f => .fault (.stopped f)
  | none =>
    match decode p (portOf p s).input with
    | .incomplete => .next s
    | .illegal _ h rest => .next (reject p (headerOp h) .illegalCommand (takeWords p 1 rest s))
    | .command i rest => exec i (takeWords p (commandWords i) rest s)

/-- Whether a port has a step: its stream begins with a whole command or with a header to reject. -/
def portReady (p : Port) (s : State) : Bool :=
  match decode p (portOf p s).input with
  | .incomplete => false
  | .illegal _ _ _ => true
  | .command _ _ => true

/-- An action of H (R317): words join the end of an input stream; the oldest response word leaves (none there: nothing
happens); reset (R300). H is no agent of the block, so a model fault does not stop it (log entry 9). -/
def hostStep (a : HostAct) (s : State) : State :=
  match a with
  | .supply p ws => setPort p { portOf p s with input := (portOf p s).input ++ ws } s
  | .read p => setPort p { portOf p s with output := (portOf p s).output.tail } s
  | .reset => resetBlock s

/-- A step with no agenda: the one port that can move; where both can, the free choice (log entry 3); where neither can, the
machine stops, idle when no input word waits and held otherwise (log entry 8). -/
def freeStep (s : State) : Host.Outcome State Fault Refusal :=
  match s.fault with
  | some f => .fault (.stopped f)
  | none =>
    match portReady .producer s, portReady .sink s with
    | true, false => runPort .producer s
    | false, true => runPort .sink s
    | true, true => runPort (Config.arbiter s.turns) { s with turns := s.turns + 1 }
    | false, false => .fault (if s.producer.input = [] ∧ s.sink.input = [] then .idle else .held)

/-- One step of the machine: the agenda's next entry, or a free step (R72; log entry 2). -/
def advance (s : State) : Host.Outcome State Fault Refusal :=
  match s.agenda with
  | .turn p :: rest => runPort p { s with agenda := rest }
  | .host a :: rest => .next (hostStep a { s with agenda := rest })
  | [] => freeStep s

/-- Words placed at the front of a port's input stream, and that port's turn next on the agenda. -/
def placeWords (p : Port) (ws : List Word) (s : State) : State :=
  { setPort p { portOf p s with input := ws ++ (portOf p s).input } s with agenda := .turn p :: s.agenda }

/-- The words of `tableWords` placed on the port their opcode belongs to (log entry 10). -/
def placeTableWord (nbits w : Nat) (s : State) : State :=
  placeWords (headerPort (BitVec.ofNat 32 (w % 2 ^ nbits))) (tableWords nbits w) s

end Sys2Proof.Machine
end

