-- ==== Sys2Proof/Machine/Step.lean ====
section
/-! DEFINITION. One step of the machine, and one instruction placed where the next step fetches it. -/

namespace Sys2Proof.Machine

/-- One step (10_state.md R21, 20_memory.md R72). -/
def step (s : State) : Host.Outcome State Fault Refusal := advance s

/-- The state with the instruction whose bits are `w` next on its port and that port next to move (log entry 10). -/
def State.withFetchWord (s : State) (nbits w : Nat) : State := placeTableWord nbits w s

end Sys2Proof.Machine
end

