-- ==== Sys2Proof/Machine/Assembler.lean ====
section
/-! DEFINITION. The assembler (30_encoding.md R107, R108): the command of an assembly line, the expansion of a
pseudo-instruction, and the reading of a line's text, as a list of characters. -/

namespace Sys2Proof.Machine

/-! ### Lines and pseudo-instructions -/

/-- The index a CSR reference names (R107). -/
def csrRefIndex : CsrRef → BitVec 8
  | .name c => csrIndex c
  | .number idx => idx

/-- The command of a line: N is the number of list elements (R107). -/
def assembleLine : AsmLine → Instr
  | .enc fs => .enc (BitVec.ofNat 24 fs.length) fs
  | .dec ss => .dec (BitVec.ofNat 24 ss.length) (packSamples ss)
  | .rsmp rin rout fs => .rsmp (BitVec.ofNat 24 fs.length) rin rout fs
  | .tx rin rout fs => .tx (BitVec.ofNat 24 fs.length) rin rout fs
  | .rx rin rout ss => .rx (BitVec.ofNat 24 ss.length) rin rout (packSamples ss)
  | .enq fs => .enq (BitVec.ofNat 24 fs.length) fs
  | .clear => .clear
  | .csrr c => .csrr (csrRefIndex c)
  | .csrw c v => .csrw (csrRefIndex c) v
  | .drain n => .drain n

/-- The expansion of a pseudo-instruction (R108). -/
def expandPseudo : Pseudo → AsmLine
  | .policyUnbounded => .csrw (.name .policy) 0
  | .policyDropOldest => .csrw (.name .policy) 1
  | .policyDropNewest => .csrw (.name .policy) 2
  | .maxq v => .csrw (.name .maxQueued) v
  | .csrz c => .csrw c 0
  | .resample rin rout fs => .rsmp rin rout fs

/-! ### Text -/

/-- A token: a punctuation character alone, or a run of other characters. -/
abbrev Token := List Char

/-- The finished token of reversed characters, if any. -/
def flushToken (cur : List Char) : List Token := if cur = [] then [] else [cur.reverse]

/-- The tokens of a line up to its comment (R107). -/
def tokens : List Char → List Char → List Token
  | [], cur => flushToken cur
  | c :: cs, cur =>
    if c = ';' then flushToken cur
    else if c = ' ' ∨ c = '\t' then flushToken cur ++ tokens cs []
    else if c = ',' ∨ c = '[' ∨ c = ']' ∨ c = '(' ∨ c = ')' ∨ c = ':' then flushToken cur ++ [c] :: tokens cs []
    else tokens cs (c :: cur)

/-- A digit's value in base ten or sixteen. -/
def digitOf? (base : Nat) (c : Char) : Option Nat :=
  let n := c.toNat
  let v := if 48 ≤ n ∧ n ≤ 57 then n - 48
    else if 65 ≤ n ∧ n ≤ 70 then n - 55
    else if 97 ≤ n ∧ n ≤ 102 then n - 87
    else base
  if v < base then some v else none

/-- Digits read onto an accumulator. -/
def digitsOnto (base : Nat) : List Char → Nat → Option Nat
  | [], acc => some acc
  | c :: cs, acc =>
    match digitOf? base c with
    | none => none
    | some d => digitsOnto base cs (base * acc + d)

/-- A nonempty run of digits. -/
def digits? (base : Nat) (cs : List Char) : Option Nat := if cs = [] then none else digitsOnto base cs 0

/-- An unsigned decimal or `0x` hexadecimal integer (R107). -/
def natLiteral? : Token → Option Nat
  | '0' :: 'x' :: cs => digits? 16 cs
  | cs => digits? 10 cs

/-- An unsigned integer that fits a field of `w` bits. -/
def fieldLiteral? (w : Nat) (t : Token) : Option (BitVec w) :=
  match natLiteral? t with
  | none => none
  | some n => if n < 2 ^ w then some (BitVec.ofNat w n) else none

/-- A decimal PCM16 integer in [-32768, 32767] (R107). -/
def pcmLiteral? (t : Token) : Option Int :=
  let v : Option Int := match t with
    | '-' :: cs => (digits? 10 cs).map (fun n => -(n : Int))
    | cs => (digits? 10 cs).map (fun n => (n : Int))
  match v with
  | none => none
  | some n => if -32768 ≤ n ∧ n ≤ 32767 then some n else none

/-- The binary32 pattern whose value is exactly `±num / den`, if there is one (R107). -/
def exactPattern? (neg : Bool) (num den : Nat) : Option Word :=
  match roundTo binary32 neg num den with
  | .fin s m e => if m * pow2 e * den = num * pow2 (-e) then some (bits32 default (.fin s m e)) else none
  | .nan => none
  | .inf _ => none

/-- A decimal number with its sign taken off (R107). -/
def decimalLiteral? (neg : Bool) (t : Token) : Option Word :=
  let whole := t.takeWhile (· ≠ '.')
  match t.dropWhile (· ≠ '.') with
  | [] => (digits? 10 whole).bind (fun n => exactPattern? neg n 1)
  | _ :: frac =>
    match digits? 10 whole, digits? 10 frac with
    | some n, some f => exactPattern? neg (n * 10 ^ frac.length + f) (10 ^ frac.length)
    | _, _ => none

/-- A float literal (R107): a decimal number that is exactly a binary32 value, `inf`, `-inf`, or a raw pattern. -/
def floatLiteral? : List Token → Option Word
  | [['i', 'n', 'f']] => some 0x7F800000
  | [['-', 'i', 'n', 'f']] => some 0xFF800000
  | [['b', '3', '2'], ['('], t, [')']] => fieldLiteral? 32 t
  | [t] =>
    match t with
    | '-' :: cs => decimalLiteral? true cs
    | cs => decimalLiteral? false cs
  | _ => none

/-- Tokens split at commas, the group being read held reversed. -/
def splitCommas : List Token → List Token → List (List Token)
  | [], cur => [cur.reverse]
  | t :: ts, cur => if t = [','] then cur.reverse :: splitCommas ts [] else splitCommas ts (t :: cur)

/-- The groups of a bracketed list, `[]` having none. -/
def bracketed? : List Token → Option (List (List Token))
  | ['['] :: ts =>
    if ts.getLast? = some [']'] then (if ts.dropLast = [] then some [] else some (splitCommas ts.dropLast [])) else none
  | _ => none

/-- All the values of a list, if every one is there. -/
def allSome {α : Type} : List (Option α) → Option (List α)
  | [] => some []
  | none :: _ => none
  | some a :: os => (allSome os).map (fun l => a :: l)

/-- A list of float literals, at most COUNT_MAX (R94, R107). -/
def floatList? (ts : List Token) : Option (List Word) :=
  match (bracketed? ts).bind (fun gs => allSome (gs.map floatLiteral?)) with
  | none => none
  | some l => if l.length ≤ countMax then some l else none

/-- A list of PCM16 literals, at most COUNT_MAX (R94, R107). -/
def pcmList? (ts : List Token) : Option (List Int) :=
  match (bracketed? ts).bind (fun gs => allSome (gs.map (fun g => match g with
      | [t] => pcmLiteral? t
      | _ => none))) with
  | none => none
  | some l => if l.length ≤ countMax then some l else none

/-- The name of a CSR (R29). -/
def csrName : Csr → Token
  | .qsamples => ['Q', 'S', 'A', 'M', 'P', 'L', 'E', 'S']
  | .qchunks => ['Q', 'C', 'H', 'U', 'N', 'K', 'S']
  | .underruns => ['U', 'N', 'D', 'E', 'R', 'R', 'U', 'N', 'S']
  | .silence => ['S', 'I', 'L', 'E', 'N', 'C', 'E']
  | .overflows => ['O', 'V', 'E', 'R', 'F', 'L', 'O', 'W', 'S']
  | .dropped => ['D', 'R', 'O', 'P', 'P', 'E', 'D']
  | .policy => ['P', 'O', 'L', 'I', 'C', 'Y']
  | .maxQueued => ['M', 'A', 'X', '_', 'Q', 'U', 'E', 'U', 'E', 'D']
  | .lastErr => ['L', 'A', 'S', 'T', '_', 'E', 'R', 'R']

/-- A CSR by name or by number 0 to 255 (R107). -/
def csrRef? (t : Token) : Option CsrRef :=
  match [Csr.qsamples, .qchunks, .underruns, .silence, .overflows, .dropped, .policy, .maxQueued, .lastErr].find?
      (fun c => csrName c = t) with
  | some c => some (.name c)
  | none => (fieldLiteral? 8 t).map CsrRef.number

/-- The two rates and the list of a format R line. -/
def ratesAnd? {α : Type} (list? : List Token → Option α) (ts : List Token) : Option (Word × Word × α) :=
  match ts with
  | a :: [','] :: b :: [','] :: rest =>
    match fieldLiteral? 32 a, fieldLiteral? 32 b, list? rest with
    | some rin, some rout, some l => some (rin, rout, l)
    | _, _, _ => none
  | _ => none

/-- The line of a token sequence (R107, R108); `none` for text that is no line. -/
def parseTokens : List Token → Option AsmLine
  | ['S'] :: [':'] :: ['D', 'R', 'A', 'I', 'N'] :: [n] => (fieldLiteral? 24 n).map AsmLine.drain
  | ['E', 'N', 'C'] :: ts => (floatList? ts).map AsmLine.enc
  | ['D', 'E', 'C'] :: ts => (pcmList? ts).map AsmLine.dec
  | ['R', 'S', 'M', 'P'] :: ts => (ratesAnd? floatList? ts).map (fun r => .rsmp r.1 r.2.1 r.2.2)
  | ['T', 'X'] :: ts => (ratesAnd? floatList? ts).map (fun r => .tx r.1 r.2.1 r.2.2)
  | ['R', 'X'] :: ts => (ratesAnd? pcmList? ts).map (fun r => .rx r.1 r.2.1 r.2.2)
  | ['E', 'N', 'Q'] :: ts => (floatList? ts).map AsmLine.enq
  | [['C', 'L', 'E', 'A', 'R']] => some .clear
  | [['C', 'S', 'R', 'R'], c] => (csrRef? c).map AsmLine.csrr
  | [['C', 'S', 'R', 'W'], c, [','], v] =>
    match csrRef? c, fieldLiteral? 32 v with
    | some r, some x => some (.csrw r x)
    | _, _ => none
  | [['P', 'O', 'L', 'I', 'C', 'Y'], m] =>
    if m = ['U', 'N', 'B', 'O', 'U', 'N', 'D', 'E', 'D'] then some (expandPseudo .policyUnbounded)
    else if m = ['D', 'R', 'O', 'P', '_', 'O', 'L', 'D', 'E', 'S', 'T'] then some (expandPseudo .policyDropOldest)
    else if m = ['D', 'R', 'O', 'P', '_', 'N', 'E', 'W', 'E', 'S', 'T'] then some (expandPseudo .policyDropNewest)
    else none
  | [['M', 'A', 'X', 'Q'], v] => (fieldLiteral? 32 v).map (fun x => expandPseudo (.maxq x))
  | [['C', 'S', 'R', 'Z'], c] => (csrRef? c).map (fun r => expandPseudo (.csrz r))
  | ['R', 'E', 'S', 'A', 'M', 'P', 'L', 'E'] :: ts =>
    (ratesAnd? floatList? ts).map (fun r => expandPseudo (.resample r.1 r.2.1 r.2.2))
  | _ => none

/-- The line a text stands for (R107). -/
def parseLine (text : List Char) : Option AsmLine := parseTokens (tokens text [])

end Sys2Proof.Machine
end

