-- ==== Sys2Proof/Safety.lean ====
section
/-! DEFINITION. The terms claims are made in: the invariants of the block (10_state.md R25, R36, R38, 42_playback.md R195),
complete runs and their observation (70_reset_and_hazards.md R316), fairness (R316), and the number a float value denotes. -/

namespace Sys2Proof.Machine

/-! ### Invariants -/

/-- A chunk's cursor is in range, and a fully consumed chunk that holds samples is never kept (R25 a, b). -/
abbrev chunkOk (c : Chunk) : Prop :=
  c.cursor ≤ c.data.length ∧ (c.cursor < c.data.length ∨ (c.data.length = 0 ∧ c.cursor = 0))

/-- Every chunk is in order and only the head may be partly consumed (R25 a, b, c). -/
abbrev queueOk (q : List Chunk) : Prop := (∀ c ∈ q, chunkOk c) ∧ ∀ c ∈ q.tail, c.cursor = 0

/-- `q` with some of its oldest chunks gone, every other one with the same data and a cursor no smaller (R25 d, R198, R204). -/
abbrev Advanced (q r : List Chunk) : Prop :=
  ∃ k, List.Forall₂ (fun b c => c.data = b.data ∧ b.cursor ≤ c.cursor) (q.drop k) r

/-- A count is within a capacity parameter (R195). -/
abbrev withinCap (n : Nat) (cap : Option Nat) : Prop := exceeds n cap = false

/-- The invariant of the block: the queue's (R25), legal POLICY (R36), reserved LAST_ERR bits zero (R38), storage within its
capacity (R195). -/
abbrev Inv (s : State) : Prop :=
  queueOk s.queue ∧ policyAccepts s.policy = true ∧ lastErrAccepts s.lastErr = true ∧
    withinCap (queued s.queue) s.params.storageCap ∧ withinCap s.queue.length s.params.chunkCap

/-! ### Runs -/

/-- A complete run's end (R316): no fault, nothing left on an input stream. Ports stand at command boundaries between steps
and every command taken has its whole response, because commands are taken and answered whole. -/
abbrev Complete (s : State) : Prop := s.fault = none ∧ s.producer.input = [] ∧ s.sink.input = []

/-- What a complete run shows (R316): both response streams, the pending samples, the chunk count, the nine CSRs. -/
structure Observation where
  responsesP : List Word
  responsesS : List Word
  pendingSamples : List Word
  chunkCount : Nat
  csrs : List Word
  deriving DecidableEq, Repr

/-- The nine CSRs in the order of their indices (R29). -/
def allCsrs : List Csr :=
  [.qsamples, .qchunks, .underruns, .silence, .overflows, .dropped, .policy, .maxQueued, .lastErr]

/-- The observation of a state (R316). -/
def observe (s : State) : Observation where
  responsesP := s.producer.output
  responsesS := s.sink.output
  pendingSamples := pending s.queue
  chunkCount := s.queue.length
  csrs := allCsrs.map (fun c => csrValue c s)

/-- Weak fairness of the free choice (R316): each port is chosen again and again. A premise a liveness claim may take; the model
does not impose it (log entry 13). -/
def FairArbiter : Prop := ∀ (p : Port) (n : Nat), ∃ m, n ≤ m ∧ Config.arbiter m = p

/-- No model fault, and the agenda asks port `p` next. -/
abbrev Asked (p : Port) (later : List Event) (s : State) : Prop := s.fault = none ∧ s.agenda = .turn p :: later

/-- A port that has taken `k` words, leaving `rest`, and written `ws`. -/
def answered (p : Port) (k : Nat) (rest ws : List Word) (s : State) : State :=
  setPort p { input := rest, pos := (portOf p s).pos + k, output := (portOf p s).output ++ ws } s

/-- Commands executed one after another. -/
def runAll : List Instr → State → Host.Outcome State Fault Refusal
  | [], s => .next s
  | i :: is, s =>
    match exec i s with
    | .next t => runAll is t
    | .fault f => .fault f
    | .refused r => .refused r

/-- A sample sequence cut into consecutive windows of the given sizes. -/
def windows : List Nat → List Word → List (List Word)
  | [], _ => []
  | n :: ns, xs => xs.take n :: windows ns (xs.drop n)

/-! ### Numbers -/

/-- The number a finite value denotes. -/
def finiteValue? : FVal → Option ℚ
  | .nan => none
  | .inf _ => none
  | .fin neg m e => some ((signed neg m : ℚ) * (2 : ℚ) ^ e)

/-- `mant * 2^exp` is a magnitude of format `f`: it has no more than the format's bits, all within its exponents. -/
abbrev representable (f : Format) (mant : Nat) (exp : Int) : Prop :=
  mant < 2 ^ f.prec ∧ f.minExp ≤ exp ∧ exp ≤ f.maxExp

/-- Truncation of a rational toward zero (R12). -/
def truncRat (x : ℚ) : Int := if x < 0 then ⌈x⌉ else ⌊x⌋

end Sys2Proof.Machine
end

