-- ==== Sys2Proof/Certificates/Slice0/Obligations.lean ====
section
/-! DEFINITION. What is claimed of the model, each statement from the rules its docstring names. A response header is
written out as STATUS joined to COUNT. No statement speaks of memory: the block has none (20_memory.md R60). -/

open Sys2Proof Sys2Proof.Machine

/-! ### Encoding -/

/-- Decode reads back every well-formed command at every value of every field, whatever words follow it (30_encoding.md R91 to R95). -/
def Obligations.DecodeOfEncode : Prop :=
  ∀ (i : Instr) (rest : List Word), i.WellFormed → decode (instrPort i) (encode i ++ rest) = .command i rest

/-- A decoded command is well formed and on its own port, its words are its encoding, and it is the only well-formed command
whose encoding those words begin with (30_encoding.md R91 to R95, R106). -/
def Obligations.EncodeOfDecode : Prop :=
  ∀ (p : Port) (ws rest : List Word) (i : Instr), decode p ws = .command i rest →
    i.WellFormed ∧ instrPort i = p ∧ encode i ++ rest = ws ∧
    ∀ (j : Instr) (rest' : List Word), j.WellFormed → encode j ++ rest' = ws → j = i ∧ rest' = rest

/-- The example words of 30_encoding.md section 4 (R109) decode to the commands they stand for. -/
def Obligations.WorkedEncodingsDecode : Prop :=
  decode .producer [0x01000002, 0x3F800000, 0xBF800000] = .command (.enc 2 [0x3F800000, 0xBF800000]) [] ∧
  decode .producer [0x02000003, 0x0002FFFF, 0x00004000] = .command (.dec 3 [0x0002FFFF, 0x00004000]) [] ∧
  decode .producer [0x03000002, 1, 2, 0, 0x3F800000] = .command (.rsmp 2 1 2 [0, 0x3F800000]) [] ∧
  decode .producer [0x07000000] = .command .clear [] ∧
  decode .producer [0x08000000] = .command (.csrr 0) [] ∧
  decode .producer [0x09000006, 2] = .command (.csrw 6 2) [] ∧
  decode .sink [0x0A000080] = .command (.drain 128) []

/-- R100: an undefined OP on either port is rejected with ILLEGAL_COMMAND and takes its own word alone; the next word is the next
header, and nothing but LAST_ERR changes besides the port. The all-zero word is such a header. -/
def Obligations.UndefinedOpcodeRejected : Prop :=
  (∀ (p : Port) (later : List Event) (s : State) (h : Word) (rest : List Word),
    Asked p later s → (portOf p s).input = h :: rest →
    (h.extractLsb' 24 8 = 0x00#8 ∨ 0x0B#8 ≤ h.extractLsb' 24 8) →
    step s = .next (answered p 1 rest [0x02000000]
      { s with agenda := later, lastErr := (0#15 ++ portBit p ++ h.extractLsb' 24 8 ++ 0x02#8) })) ∧
  (0x00000000 : Word).extractLsb' 24 8 = 0x00#8

/-- R101: a CLEAR header with any of [23:0] set, or a CSRR or CSRW header with any of [23:8] set, is rejected with ILLEGAL_COMMAND
and takes its own word alone, so a CSRW's VALUE word is the next header. -/
def Obligations.ReservedBitsRejected : Prop :=
  ∀ (p : Port) (later : List Event) (s : State) (h : Word) (rest : List Word),
    Asked p later s → (portOf p s).input = h :: rest →
    ((h.extractLsb' 24 8 = 0x07#8 ∧ h.extractLsb' 0 24 ≠ 0) ∨
     ((h.extractLsb' 24 8 = 0x08#8 ∨ h.extractLsb' 24 8 = 0x09#8) ∧ h.extractLsb' 8 16 ≠ 0)) →
    step s = .next (answered p 1 rest [0x02000000]
      { s with agenda := later, lastErr := (0#15 ++ portBit p ++ h.extractLsb' 24 8 ++ 0x02#8) })

/-- R102: a DRAIN header on P, or a header of any other defined opcode on S, is rejected with ILLEGAL_COMMAND on that port and
takes its own word alone. -/
def Obligations.WrongPortRejected : Prop :=
  ∀ (p : Port) (later : List Event) (s : State) (h : Word) (rest : List Word),
    Asked p later s → (portOf p s).input = h :: rest →
    ((p = .producer ∧ h.extractLsb' 24 8 = 0x0A#8) ∨
     (p = .sink ∧ 0x01#8 ≤ h.extractLsb' 24 8 ∧ h.extractLsb' 24 8 ≤ 0x09#8)) →
    step s = .next (answered p 1 rest [0x02000000]
      { s with agenda := later, lastErr := (0#15 ++ portBit p ++ h.extractLsb' 24 8 ++ 0x02#8) })

/-- R95: whatever a command's outcome, its port has taken exactly the words of the table, found from the header alone, and its
stream position has advanced by as many; a header rejected with ILLEGAL_COMMAND takes one. The other port is untouched. -/
def Obligations.CommandTakesItsWords : Prop :=
  ∀ (p : Port) (s t : State) (h : Word) (tl : List Word),
    (portOf p s).input = h :: tl → decode p (h :: tl) ≠ .incomplete → runPort p s = .next t →
    ∃ w : Nat,
      (match checkHeader p h with
        | .error _ => w = 1
        | .ok .enc | .ok .enq => w = 1 + (h.extractLsb' 0 24).toNat
        | .ok .dec => w = 1 + ((h.extractLsb' 0 24).toNat + 1) / 2
        | .ok .rsmp | .ok .tx => w = 3 + (h.extractLsb' 0 24).toNat
        | .ok .rx => w = 3 + ((h.extractLsb' 0 24).toNat + 1) / 2
        | .ok .clear | .ok .csrr | .ok .drain => w = 1
        | .ok .csrw => w = 2) ∧
      (portOf p t).pos = (portOf p s).pos + w ∧ (portOf p t).input = (h :: tl).drop w ∧
      ∀ q, q ≠ p → portOf q t = portOf q s

/-- The bytes of a packed PCM16 payload are the samples' own bytes, low byte first, and two zero bytes after an odd count
(20_memory.md R63 to R66). -/
def Obligations.PcmPayloadBytes : Prop :=
  ∀ hs : List Half, (pack16 hs).flatMap wordBytes =
    hs.flatMap halfBytes ++ (if hs.length % 2 = 1 then [0x00, 0x00] else [])

/-- Words survive serialisation to little-endian bytes, and a byte stream whose length is no multiple of four is no words
(20_memory.md R64, R69). -/
def Obligations.WordsSurviveSerialisation : Prop :=
  (∀ ws : List Word, frameBytes (ws.flatMap wordBytes) = some ws) ∧
  (∀ bs : List Byte, frameBytes bs = none ↔ bs.length % 4 ≠ 0)

/-- R65: word k of N packed samples holds sample 2k low and sample 2k+1 high, or 0x0000 where there is none; reading N samples
back gives them, and ignores the padding. -/
def Obligations.PcmWordLayout : Prop :=
  (∀ hs : List Half, (pack16 hs).length = (hs.length + 1) / 2 ∧
    ∀ k, k < (pack16 hs).length →
      ((pack16 hs).getD k 0).extractLsb' 0 16 = hs.getD (2 * k) 0 ∧
      ((pack16 hs).getD k 0).extractLsb' 16 16 = hs.getD (2 * k + 1) 0) ∧
  (∀ (n : Nat) (ws : List Word), ws.length = (n + 1) / 2 →
    (pcmSamples n ws).length = n ∧
    ∀ k, (2 * k < n → (pcmSamples n ws).getD (2 * k) 0 = ((ws.getD k 0).extractLsb' 0 16).toInt) ∧
      (2 * k + 1 < n → (pcmSamples n ws).getD (2 * k + 1) 0 = ((ws.getD k 0).extractLsb' 16 16).toInt))

/-- The words of every assembly line and of every pseudo-instruction (30_encoding.md section 4: R107, R108). A well-formed line
assembles to a well-formed command whose words are its opcode with N the list length, the two rates, the payload (PCM16 samples
packed two a word), a CSR's index and VALUE; only DRAIN is on S. A CSR is named as R29 numbers it, or by a number. -/
def Obligations.AssembledLinesAreWellFormed : Prop :=
  (∀ l : AsmLine, l.WellFormed →
    (assembleLine l).WellFormed ∧
    match l with
    | .enc fs => instrPort (assembleLine l) = .producer ∧
        ∃ n : BitVec 24, n.toNat = fs.length ∧ encode (assembleLine l) = (0x01#8 ++ n : Word) :: fs
    | .dec ss => instrPort (assembleLine l) = .producer ∧
        ∃ (n : BitVec 24) (ws : List Word), n.toNat = ss.length ∧ encode (assembleLine l) = (0x02#8 ++ n : Word) :: ws ∧
          ws = pack16 (ss.map (BitVec.ofInt 16)) ∧ pcmSamples ss.length ws = ss
    | .rsmp rin rout fs => instrPort (assembleLine l) = .producer ∧
        ∃ n : BitVec 24, n.toNat = fs.length ∧ encode (assembleLine l) = (0x03#8 ++ n : Word) :: rin :: rout :: fs
    | .tx rin rout fs => instrPort (assembleLine l) = .producer ∧
        ∃ n : BitVec 24, n.toNat = fs.length ∧ encode (assembleLine l) = (0x04#8 ++ n : Word) :: rin :: rout :: fs
    | .rx rin rout ss => instrPort (assembleLine l) = .producer ∧
        ∃ (n : BitVec 24) (ws : List Word), n.toNat = ss.length ∧
          encode (assembleLine l) = (0x05#8 ++ n : Word) :: rin :: rout :: ws ∧
          ws = pack16 (ss.map (BitVec.ofInt 16)) ∧ pcmSamples ss.length ws = ss
    | .enq fs => instrPort (assembleLine l) = .producer ∧
        ∃ n : BitVec 24, n.toNat = fs.length ∧ encode (assembleLine l) = (0x06#8 ++ n : Word) :: fs
    | .clear => instrPort (assembleLine l) = .producer ∧ encode (assembleLine l) = [0x07000000]
    | .csrr c => instrPort (assembleLine l) = .producer ∧
        encode (assembleLine l) = [(0x08#8 ++ (0#16 ++ csrRefIndex c) : Word)]
    | .csrw c v => instrPort (assembleLine l) = .producer ∧
        encode (assembleLine l) = [(0x09#8 ++ (0#16 ++ csrRefIndex c) : Word), v]
    | .drain n => instrPort (assembleLine l) = .sink ∧ encode (assembleLine l) = [(0x0A#8 ++ n : Word)]) ∧
  (allCsrs.map (fun c => csrRefIndex (.name c)) = [0x00, 0x01, 0x02, 0x03, 0x04, 0x05, 0x06, 0x07, 0x08] ∧
    ∀ idx : BitVec 8, csrRefIndex (.number idx) = idx) ∧
  (encode (assembleLine (expandPseudo .policyUnbounded)) = [0x09000006, 0x00000000] ∧
    encode (assembleLine (expandPseudo .policyDropOldest)) = [0x09000006, 0x00000001] ∧
    encode (assembleLine (expandPseudo .policyDropNewest)) = [0x09000006, 0x00000002] ∧
    (∀ v : Word, encode (assembleLine (expandPseudo (.maxq v))) = [0x09000007, v]) ∧
    (∀ c : CsrRef, encode (assembleLine (expandPseudo (.csrz c))) =
      [(0x09#8 ++ (0#16 ++ csrRefIndex c) : Word), 0x00000000]) ∧
    (∀ (rin rout : Word) (fs : List Word), expandPseudo (.resample rin rout fs) = .rsmp rin rout fs))

/-! ### Steps, ports and the host -/

/-- A port asked to move runs the command its words decode to, after taking its words (10_state.md R21, R23). With no agenda the
one port that can move is asked, and where both can the free choice is (20_memory.md R72; that order is the model's, log
entries 2 and 3). -/
def Obligations.StepRunsTheDecodedCommand : Prop :=
  (∀ (p : Port) (later : List Event) (s : State) (i : Instr) (rest : List Word),
    Asked p later s → decode p (portOf p s).input = .command i rest →
    step s = exec i (setPort p { input := rest, pos := (portOf p s).pos + (encode i).length, output := (portOf p s).output }
      { s with agenda := later })) ∧
  (∀ (p q : Port) (s : State) (i : Instr) (rest : List Word),
    s.fault = none → s.agenda = [] → q ≠ p → decode q (portOf q s).input = .incomplete →
    decode p (portOf p s).input = .command i rest →
    step s = exec i (setPort p { input := rest, pos := (portOf p s).pos + (encode i).length, output := (portOf p s).output } s)) ∧
  (∀ (s : State), s.fault = none → s.agenda = [] →
    (∀ p, decode p (portOf p s).input ≠ .incomplete) →
    step s = runPort (Config.arbiter s.turns) { s with turns := s.turns + 1 })

/-- A DRAIN header that has arrived on S has a step whatever stands on P: asked, it moves; and its step does the same whatever P's
port holds, which it leaves alone (20_memory.md section 4, R77). With no agenda it moves where P is held: that the free step asks
the one port that can move is the model's choice (log entries 2 and 3). -/
def Obligations.SinkNeverWaits : Prop :=
  ∀ (s : State) (n : BitVec 24) (rest : List Word), s.fault = none → s.sink.input = ((0x0A#8 ++ n : Word) :: rest) →
    (∀ later, s.agenda = .turn .sink :: later →
      ∃ t, step s = .next t ∧ t.sink.input = rest ∧ t.sink.pos = s.sink.pos + 1) ∧
    (s.agenda = [] → decode .producer s.producer.input = .incomplete →
      ∃ t, step s = .next t ∧ t.sink.input = rest ∧ t.sink.pos = s.sink.pos + 1) ∧
    (∀ q : PortState, ∃ t t', runPort .sink s = .next t ∧ runPort .sink { s with producer := q } = .next t' ∧
      t.producer = s.producer ∧ t' = { t with producer := q })

/-- A port whose command has not all arrived takes no step: its turn passes and nothing but the agenda changes, and with no agenda
and no port able to move the machine stops, held or idle (70_reset_and_hazards.md R310; how it stops is log entry 8). -/
def Obligations.HeldPortTakesNoStep : Prop :=
  (∀ (p : Port) (later : List Event) (s : State), Asked p later s → decode p (portOf p s).input = .incomplete →
    step s = .next { s with agenda := later }) ∧
  (∀ s : State, s.fault = none → s.agenda = [] → decode .producer s.producer.input = .incomplete →
    decode .sink s.sink.input = .incomplete →
    (step s = .fault .held ∧ (s.producer.input ≠ [] ∨ s.sink.input ≠ [])) ∨
    (step s = .fault .idle ∧ s.producer.input = [] ∧ s.sink.input = []))

/-- R44: the reset state, piece by piece, the two derived gauges included. -/
def Obligations.ResetStateValues : Prop :=
  State.reset.queue = [] ∧ csrValue .qsamples State.reset = 0 ∧ csrValue .qchunks State.reset = 0 ∧
  State.reset.underruns = 0 ∧ State.reset.silence = 0 ∧ State.reset.overflows = 0 ∧ State.reset.dropped = 0 ∧
  State.reset.policy = 0x00000000 ∧ State.reset.maxQueued = 0xFFFFFFFF ∧ State.reset.lastErr = 0x00000000 ∧
  State.reset.fault = none ∧
  (∀ p, (portOf p State.reset).input = [] ∧ (portOf p State.reset).pos = 0 ∧ (portOf p State.reset).output = [])

/-- R300: H may assert reset in any state, a faulted one included; every piece of state takes its reset value; and it is the only
way to leave a model fault. -/
def Obligations.ResetFromAnyState : Prop :=
  (∀ (s : State) (later : List Event), s.agenda = .host .reset :: later →
    ∃ t, step s = .next t ∧ t.queue = [] ∧ t.underruns = 0 ∧ t.silence = 0 ∧ t.overflows = 0 ∧ t.dropped = 0 ∧
      t.policy = 0 ∧ t.lastErr = 0 ∧ t.maxQueued = 0xFFFFFFFF ∧ t.fault = none ∧
      (∀ p, portOf p t = { input := [], pos := 0, output := [] })) ∧
  (∀ (s t : State) (f : ModelFault), s.fault = some f → step s = .next t → t.fault = none →
    ∃ later, s.agenda = .host .reset :: later)

/-- The host's other two actions: supplied words join the end of one input stream, a read takes the oldest response word of one
port, and nothing else of the block changes (70_reset_and_hazards.md R317, 20_memory.md R71; the agenda and a read of an
empty stream are the model's, log entries 2 and 9). -/
def Obligations.HostSuppliesAndReads : Prop :=
  (∀ (s : State) (p : Port) (ws : List Word) (later : List Event), s.agenda = .host (.supply p ws) :: later →
    step s = .next (setPort p { portOf p s with input := (portOf p s).input ++ ws } { s with agenda := later })) ∧
  (∀ (s : State) (p : Port) (w : Word) (ws : List Word) (later : List Event), s.agenda = .host (.read p) :: later →
    (portOf p s).output = w :: ws →
    step s = .next (setPort p { portOf p s with output := ws } { s with agenda := later }))

/-! ### Codec -/

/-- R130: a NaN encodes to 0; any other pattern is clamped to [-1, 1], multiplied exactly by 32768 below zero and by 32767
otherwise, and truncated toward zero. -/
def Obligations.EncodeIsTruncatedProduct : Prop :=
  ∀ w : Word,
    (f32 w = .nan → encodeSample w = 0) ∧
    (f32 w = .inf false → encodeSample w = 32767) ∧
    (f32 w = .inf true → encodeSample w = -32768) ∧
    (∀ x : ℚ, finiteValue? (f32 w) = some x →
      encodeSample w = truncRat (if max (-1) (min 1 x) < 0 then max (-1) (min 1 x) * 32768 else max (-1) (min 1 x) * 32767))

/-- decode divides by 32768 and 0 decodes to +0.0; the quotient is exact, so decode is strictly increasing and never reaches 1.0
(40_codec.md section 1: R133, whose exactness, range and monotonicity are marked derived). -/
def Obligations.DecodeIsExactQuotient : Prop :=
  (∀ n : Int, -32768 ≤ n → n ≤ 32767 → finiteValue? (f32 (decodeSample n)) = some ((n : ℚ) / 32768)) ∧
  decodeSample 0 = 0x00000000 ∧
  (∀ (m n : Int) (x y : ℚ), -32768 ≤ m → m < n → n ≤ 32767 → finiteValue? (f32 (decodeSample m)) = some x →
    finiteValue? (f32 (decodeSample n)) = some y → -1 ≤ x ∧ x < y ∧ y ≤ 32767 / 32768)

/-- Decode then encode gives the sample back at and below zero and one less above (40_codec.md section 3, R137, marked derived). -/
def Obligations.DecodeThenEncode : Prop :=
  ∀ n : Int, -32768 ≤ n → n ≤ 32767 → encodeSample (decodeSample n) = if n ≤ 0 then n else n - 1

/-- Encode then decode loses under one step below zero and under two above (40_codec.md section 3, R138, marked derived). -/
def Obligations.EncodeThenDecodeBounds : Prop :=
  ∀ (w : Word) (x : ℚ), finiteValue? (f32 w) = some x → -1 ≤ x → x ≤ 1 →
    ∃ d : ℚ, finiteValue? (f32 (decodeSample (encodeSample w))) = some d ∧
      (x < 0 → x ≤ d ∧ d < x + 1 / 32768) ∧ (0 ≤ x → x - 1 / 16384 < d ∧ d ≤ x)

/-- R135: the whole ENC command: words, port and length; its one response; nothing else written; its corner cases and example. -/
def Obligations.EncCommand : Prop :=
  (∀ (n : BitVec 24) (ws : List Word), encode (.enc n ws) = (0x01#8 ++ n : Word) :: ws ∧ instrPort (.enc n ws) = .producer ∧
    ((Instr.enc n ws).WellFormed → (encode (.enc n ws)).length = 1 + n.toNat)) ∧
  (∀ (n : BitVec 24) (ws : List Word) (s : State), (Instr.enc n ws).WellFormed →
    exec (.enc n ws) s = .next (writeWords .producer ((0x00#8 ++ n : Word) :: packSamples (ws.map encodeSample)) s)) ∧
  (∀ s : State, exec (.enc 0 []) s = .next (writeWords .producer [0x00000000] s)) ∧
  (∀ w : Word, isNaNPattern w = true → encodeSample w = 0) ∧
  encodeSample 0x7F800000 = 32767 ∧ encodeSample 0xFF800000 = -32768 ∧ encodeSample 0x40000000 = 32767 ∧
  encodeSample 0x80000000 = 0 ∧
  (∀ s : State, exec (.enc 3 [0x3F000000, 0xBF000000, 0x40000000]) s =
    .next (writeWords .producer [0x00000003, 0xC0003FFF, 0x00007FFF] s))

/-- R136: the whole DEC command: words, port and length; its one response; nothing else written; its corner cases and example. -/
def Obligations.DecCommand : Prop :=
  (∀ (n : BitVec 24) (ws : List Word), encode (.dec n ws) = (0x02#8 ++ n : Word) :: ws ∧ instrPort (.dec n ws) = .producer ∧
    ((Instr.dec n ws).WellFormed → (encode (.dec n ws)).length = 1 + (n.toNat + 1) / 2)) ∧
  (∀ (n : BitVec 24) (ws : List Word) (s : State), (Instr.dec n ws).WellFormed →
    exec (.dec n ws) s =
      .next (writeWords .producer ((0x00#8 ++ n : Word) :: (pcmSamples n.toNat ws).map decodeSample) s)) ∧
  (∀ s : State, exec (.dec 0 []) s = .next (writeWords .producer [0x00000000] s)) ∧
  (∀ (n : BitVec 24) (ws : List Word) (a b c : Half) (s : State), n.toNat = 2 * ws.length + 1 →
    exec (.dec n (ws ++ [b ++ a])) s = exec (.dec n (ws ++ [c ++ a])) s) ∧
  decodeSample (-32768) = 0xBF800000 ∧ decodeSample 32767 = 0x3F7FFE00 ∧ decodeSample 0 = 0x00000000 ∧
  (∀ s : State, exec (.dec 3 [0x0002FFFF, 0x00004000]) s =
    .next (writeWords .producer [0x00000003, 0xB8000000, 0x38800000, 0x3F000000] s))

/-! ### Floating point and the resampler -/

/-- The one rounding is to nearest, ties to even (00_scope.md section 4, R13, from general knowledge; overflow to an infinity is
PRESUMED, log entry 12): below the midpoint past the format's largest number the result is a canonical number of the format, none
of the format's numbers is nearer, and where another is as near the result's last bit is even; at or beyond that midpoint it is
an infinity. -/
def Obligations.RoundingIsToNearestEven : Prop :=
  ∀ f : Format, (f = binary32 ∨ f = binary64) → ∀ (neg : Bool) (num den : Nat), 0 < num → 0 < den →
    (∃ m e, roundTo f neg num den = .fin neg m e ∧ representable f m e ∧ (2 ^ (f.prec - 1) ≤ m ∨ e = f.minExp) ∧
      (num : ℚ) / den < ((2 : ℚ) ^ f.prec - 1 / 2) * (2 : ℚ) ^ f.maxExp ∧
      ∀ m' e', representable f m' e' →
        |(num : ℚ) / den - m * (2 : ℚ) ^ e| ≤ |(num : ℚ) / den - m' * (2 : ℚ) ^ e'| ∧
        (|(num : ℚ) / den - m * (2 : ℚ) ^ e| = |(num : ℚ) / den - m' * (2 : ℚ) ^ e'| →
          (m : ℚ) * (2 : ℚ) ^ e ≠ m' * (2 : ℚ) ^ e' → m % 2 = 0)) ∨
    (roundTo f neg num den = .inf neg ∧
      ((2 : ℚ) ^ f.prec - 1 / 2) * (2 : ℚ) ^ f.maxExp ≤ (num : ℚ) / den)

/-- Binary64 product, sum, difference and quotient of finite values are their exact values rounded once, and a binary32 result is its
binary64 value rounded once; the rounding is that of RoundingIsToNearestEven. A zero product or quotient has the XOR of the signs,
an exact zero sum is -0.0 only where both operands are negative. A NaN operand, `inf * 0` and `inf + -inf` give a NaN; every other
product or sum with an infinity is an infinity (00_scope.md section 4, R13, from general knowledge; PRESUMED, log entry 12). -/
def Obligations.OperationsRoundExactValuesOnce : Prop :=
  (∀ (v w : FVal) (x y : ℚ), finiteValue? v = some x → finiteValue? w = some y →
    (∃ neg num den, 0 < den ∧ fmul v w = roundTo binary64 neg num den ∧ (signed neg num : ℚ) / den = x * y) ∧
    (x + y ≠ 0 → ∃ neg num den, 0 < den ∧ fadd v w = roundTo binary64 neg num den ∧ (signed neg num : ℚ) / den = x + y) ∧
    (x + y = 0 → finiteValue? (fadd v w) = some 0) ∧
    (x - y ≠ 0 → ∃ neg num den, 0 < den ∧ fsub v w = roundTo binary64 neg num den ∧ (signed neg num : ℚ) / den = x - y) ∧
    (x - y = 0 → finiteValue? (fsub v w) = some 0) ∧
    (y ≠ 0 → ∃ neg num den, 0 < den ∧ fdiv v w = roundTo binary64 neg num den ∧ (signed neg num : ℚ) / den = x / y)) ∧
  (∀ (neg : Bool) (m : Nat) (e : Int) (x : ℚ), finiteValue? (.fin neg m e) = some x →
    ∃ num den, 0 < den ∧ fl32 (.fin neg m e) = roundTo binary32 neg num den ∧ (signed neg num : ℚ) / den = x) ∧
  (∀ (a b : Bool) (m k : Nat) (e g : Int) (x y : ℚ), finiteValue? (.fin a m e) = some x → finiteValue? (.fin b k g) = some y →
    (x * y = 0 → ∃ c, fmul (.fin a m e) (.fin b k g) = .fin (a != b) 0 c) ∧
    (x = 0 → y ≠ 0 → ∃ c, fdiv (.fin a m e) (.fin b k g) = .fin (a != b) 0 c) ∧
    (x + y = 0 → ∃ c, fadd (.fin a m e) (.fin b k g) = .fin (a && b) 0 c) ∧
    (x - y = 0 → ∃ c, fsub (.fin a m e) (.fin b k g) = .fin (a && !b) 0 c)) ∧
  (fl32 .nan = .nan ∧ ∀ v : FVal,
    fmul .nan v = .nan ∧ fmul v .nan = .nan ∧ fadd .nan v = .nan ∧ fadd v .nan = .nan ∧
    fsub .nan v = .nan ∧ fsub v .nan = .nan ∧ fdiv .nan v = .nan ∧ fdiv v .nan = .nan) ∧
  (∀ a : Bool, fl32 (.inf a) = .inf a ∧
    (∀ b : Bool, fmul (.inf a) (.inf b) = .inf (a != b) ∧
      fadd (.inf a) (.inf b) = (if a = b then .inf a else .nan) ∧
      fsub (.inf a) (.inf b) = (if a = b then .nan else .inf a)) ∧
    ∀ (b : Bool) (k : Nat) (g : Int) (y : ℚ), finiteValue? (.fin b k g) = some y →
      fmul (.inf a) (.fin b k g) = (if y = 0 then .nan else .inf (a != b)) ∧
      fmul (.fin b k g) (.inf a) = (if y = 0 then .nan else .inf (a != b)) ∧
      fadd (.inf a) (.fin b k g) = .inf a ∧ fadd (.fin b k g) (.inf a) = .inf a ∧
      fsub (.inf a) (.fin b k g) = .inf a ∧ fsub (.fin b k g) (.inf a) = .inf (!a))

/-- R162: for nonzero rates, M is the input length for equal rates, and otherwise the floor of the binary64 product of the exact
length and the binary64 quotient ROUT / RIN; an empty input gives M = 0; and M = 0 gives an empty sequence, no error. -/
def Obligations.OutputLengthRule : Prop :=
  (∀ (len : Nat) (r : Word), r ≠ 0 → outLen len r r = len) ∧
  (∀ (len : Nat) (rin rout : Word), rin ≠ 0 → rout ≠ 0 → rin ≠ rout → len ≤ countMax →
    finiteValue? (ofNat64 len) = some (len : ℚ) ∧ finiteValue? (ofNat64 rin.toNat) = some (rin.toNat : ℚ) ∧
    finiteValue? (ofNat64 rout.toNat) = some (rout.toNat : ℚ) ∧
    ∃ q : ℚ, finiteValue? (fmul (ofNat64 len) (fdiv (ofNat64 rout.toNat) (ofNat64 rin.toNat))) = some q ∧ 0 ≤ q ∧
      outLen len rin rout = ⌊q⌋.toNat) ∧
  (∀ rin rout : Word, rin ≠ 0 → rout ≠ 0 → outLen 0 rin rout = 0) ∧
  (∀ (draw : Nat → NaNPattern) (x : List Word) (rin rout : Word), rin ≠ 0 → rout ≠ 0 → outLen x.length rin rout = 0 →
    resampleWith draw x rin rout = some [])

/-- R164: for unequal rates every output sample is the formula in its order, rounded once to binary32 (`p` is the pattern of a NaN
sample and touches no other), or the index guard fires at some output index whose `low` is beyond the last input sample. -/
def Obligations.InterpolationFormula : Prop :=
  ∀ (draw : Nat → NaNPattern) (x : List Word) (rin rout : Word), rin ≠ 0 → rout ≠ 0 → rin ≠ rout →
    (∃ ys, resampleWith draw x rin rout = some ys ∧ ys.length = outLen x.length rin rout ∧
      ∀ i, i < outLen x.length rin rout →
        let pos := fdiv (ofNat64 i) (fdiv (ofNat64 rout.toNat) (ofNat64 rin.toNat))
        let low := floorNat pos
        let high := min (low + 1) (x.length - 1)
        let t := fsub pos (ofNat64 low)
        let u := fsub (ofNat64 1) t
        low + 1 ≤ x.length ∧
        ∃ p : NaNPattern, ys.getD i 0 = bits32 p
          (fl32 (fadd (fmul (f32 (x.getD low 0)) u) (fmul (f32 (x.getD high 0)) t)))) ∨
    (resampleWith draw x rin rout = none ∧
      ∃ i, i < outLen x.length rin rout ∧
        x.length ≤ floorNat (fdiv (ofNat64 i) (fdiv (ofNat64 rout.toNat) (ofNat64 rin.toNat))))

/-- R168: where the evaluation gives a NaN the sample is some NaN pattern, every NaN pattern is one a draw can be, and the
identity case copies patterns whatever the draw. -/
def Obligations.NaNSamplesAreAnyNaN : Prop :=
  (∀ p : NaNPattern, isNaNPattern (bits32 p (fl32 .nan)) = true) ∧
  (∀ w : Word, isNaNPattern w = true → ∃ p : NaNPattern, bits32 p (fl32 .nan) = w) ∧
  (∀ w : Word, isNaNPattern w = true ↔ f32 w = .nan) ∧
  (∀ (draw : Nat → NaNPattern) (x : List Word) (r : Word), r ≠ 0 → resampleWith draw x r r = some x)

/-- The index guard never fires on a command: for nonzero rates and lengths within COUNT_MAX the resampler has an output (the spec
believes this and does not prove it: 41_resampler.md section 1, R166). -/
def Obligations.IndexGuardUnreachable : Prop :=
  ∀ (draw : Nat → NaNPattern) (x : List Word) (rin rout : Word), rin ≠ 0 → rout ≠ 0 → x.length ≤ countMax →
    outLen x.length rin rout ≤ countMax → ∃ ys, resampleWith draw x rin rout = some ys

/-- Every output sample of a finite input lies between two of its input samples (41_resampler.md section 3, R174, which asks a
model to state it as a lemma to prove). -/
def Obligations.InterpolationNeverOvershoots : Prop :=
  ∀ (draw : Nat → NaNPattern) (x : List Word) (rin rout : Word) (ys : List Word), rin ≠ 0 → rout ≠ 0 → x.length ≤ countMax →
    outLen x.length rin rout ≤ countMax → (∀ w ∈ x, ∃ v, finiteValue? (f32 w) = some v) →
    resampleWith draw x rin rout = some ys →
    ∀ y ∈ ys, ∃ v, finiteValue? (f32 y) = some v ∧
      ∃ a ∈ x, ∃ b ∈ x, ∃ lo hi, finiteValue? (f32 a) = some lo ∧ finiteValue? (f32 b) = some hi ∧ lo ≤ v ∧ v ≤ hi

/-- Where the position is a whole number the output is the input sample there, but for -0.0 turned into +0.0 beside a sample whose
sign bit is 0 (41_resampler.md section 3, R175, marked derived). Where the position is at or beyond the last sample, short of one
sample more, a finite last sample is copied, its sign of zero included; an infinite one gives a NaN exactly at the last sample
and is copied beyond it (section 1, R167, marked derived; R164). -/
def Obligations.ExactHitCopiesTheSample : Prop :=
  (∀ (x : List Word) (rin rout : Word) (i low : Nat) (p : NaNPattern), rin ≠ 0 → rout ≠ 0 →
    finiteValue? (samplePos (rateRatio rin rout) i) = some (low : ℚ) → low < x.length → x.length ≤ countMax →
    f32 (x.getD low 0) ≠ .nan → (∃ v, finiteValue? (f32 (x.getD (min (low + 1) (x.length - 1)) 0)) = some v) →
    ∃ v, interpolate x (rateRatio rin rout) i = some v ∧
      bits32 p (fl32 v) =
        if x.getD low 0 = 0x80000000 ∧ (x.getD (min (low + 1) (x.length - 1)) 0).extractLsb' 31 1 = 0#1 then 0x00000000
        else x.getD low 0) ∧
  (∀ (x : List Word) (rin rout : Word) (i last : Nat) (p : NaNPattern), rin ≠ 0 → rout ≠ 0 → i ≤ countMax →
    x.length = last + 1 → x.length ≤ countMax → floorNat (samplePos (rateRatio rin rout) i) = last →
    ((∃ v, finiteValue? (f32 (x.getD last 0)) = some v) →
      ∃ v, interpolate x (rateRatio rin rout) i = some v ∧ bits32 p (fl32 v) = x.getD last 0) ∧
    (∀ neg, f32 (x.getD last 0) = .inf neg →
      if finiteValue? (samplePos (rateRatio rin rout) i) = some (last : ℚ) then
        interpolate x (rateRatio rin rout) i = some .nan
      else ∃ v, interpolate x (rateRatio rin rout) i = some v ∧ bits32 p (fl32 v) = x.getD last 0))

/-- R161: a zero rate, either or both, equal or not, is rejected with INVALID_ARGUMENT before anything else, by each of RSMP, TX
and RX, with no output and nothing changed but LAST_ERR. -/
def Obligations.ZeroRateRejected : Prop :=
  ∀ (n : BitVec 24) (rin rout : Word) (ws : List Word) (s : State), rin = 0 ∨ rout = 0 →
    exec (.rsmp n rin rout ws) s = .next (writeWords .producer [0x01000000] { s with lastErr := 0x00000301 }) ∧
    exec (.tx n rin rout ws) s = .next (writeWords .producer [0x01000000] { s with lastErr := 0x00000401 }) ∧
    exec (.rx n rin rout ws) s = .next (writeWords .producer [0x01000000] { s with lastErr := 0x00000501 })

/-- A resampled length beyond 16777215 is rejected with RESULT_TOO_LONG, nothing changed but LAST_ERR (41_resampler.md section 2,
43_pipeline_and_csr.md sections 1 and 2: R170, R240, R243). -/
def Obligations.TooLongResultRejected : Prop :=
  ∀ (n : BitVec 24) (rin rout : Word) (ws : List Word) (s : State), rin ≠ 0 → rout ≠ 0 →
    (16777215 < outLen ws.length rin rout →
      exec (.rsmp n rin rout ws) s = .next (writeWords .producer [0x04000000] { s with lastErr := 0x00000304 }) ∧
      exec (.tx n rin rout ws) s = .next (writeWords .producer [0x04000000] { s with lastErr := 0x00000404 })) ∧
    (ws.length = (n.toNat + 1) / 2 → 16777215 < outLen n.toNat rin rout →
      exec (.rx n rin rout ws) s = .next (writeWords .producer [0x04000000] { s with lastErr := 0x00000504 }))

/-- R163: for equal nonzero rates the resampler's output is its input bit for bit, NaN payloads and signs of zero included, and RSMP
responds with it and changes nothing. -/
def Obligations.EqualRatesCopyTheInput : Prop :=
  (∀ (x : List Word) (r : Word), r ≠ 0 → resample x r r = some x) ∧
  ∀ (n : BitVec 24) (r : Word) (ws : List Word) (s : State), r ≠ 0 → (Instr.rsmp n r r ws).WellFormed →
    exec (.rsmp n r r ws) s =
      .next (writeWords .producer ((0x00#8 ++ n : Word) :: ws) s)

/-- RSMP and TX complete: nonzero rates, M within COUNT_MAX and an output of the resampler give one OK response with COUNT M, and
change nothing else; the output is a function of the command's operands alone (41_resampler.md sections 1 and 2,
43_pipeline_and_csr.md section 1; that a NaN's free pattern is indexed by the operands is log entry 4). -/
def Obligations.RsmpAndTxRespond : Prop :=
  ∀ (n : BitVec 24) (rin rout : Word) (ws ys : List Word) (s : State), rin ≠ 0 → rout ≠ 0 →
    outLen ws.length rin rout ≤ 16777215 → resample ws rin rout = some ys →
    exec (.rsmp n rin rout ws) s =
      .next (writeWords .producer ((0x00#8 ++ BitVec.ofNat 24 ys.length : Word) :: ys) s) ∧
    exec (.tx n rin rout ws) s =
      .next (writeWords .producer ((0x00#8 ++ BitVec.ofNat 24 ys.length : Word) :: packSamples (ys.map encodeSample)) s) ∧
    ys.length = outLen ws.length rin rout

/-- A TX response never depends on NAN_DRAW: whatever patterns the NaN samples of its resampling were given, encoding them gives
the one response (43_pipeline_and_csr.md section 1, the corner case of R240 marked derived). And a repeated ENC, DEC, RSMP or TX
answers alike from any two states, as a repeated CSRR does of a register that holds the same (20_memory.md section 3, R71 marked
derived; log entry 4). -/
def Obligations.TxIgnoresNaNDraws : Prop :=
  (∀ (draw : Nat → NaNPattern) (n : BitVec 24) (rin rout : Word) (ws ys : List Word) (s : State), rin ≠ 0 → rout ≠ 0 →
    outLen ws.length rin rout ≤ 16777215 → resampleWith draw ws rin rout = some ys →
    exec (.tx n rin rout ws) s =
      .next (writeWords .producer ((0x00#8 ++ BitVec.ofNat 24 ys.length : Word) :: packSamples (ys.map encodeSample)) s)) ∧
  (∀ (i : Instr) (s s' t t' : State),
    (instrOp i = .enc ∨ instrOp i = .dec ∨ instrOp i = .rsmp ∨ instrOp i = .tx ∨
      ∃ idx, i = .csrr idx ∧ ∀ c, csrOfIndex? idx = some c → csrValue c s = csrValue c t) →
    exec i s = .next s' → exec i t = .next t' →
    ∃ ws, s'.producer.output = s.producer.output ++ ws ∧ t'.producer.output = t.producer.output ++ ws)

/-- RX completes: where the enqueue neither overflows nor outgrows the storage, the resampled chunk joins the tail of the queue and
the one response carries COUNT M (43_pipeline_and_csr.md section 2). -/
def Obligations.RxEnqueuesTheResampledChunk : Prop :=
  ∀ (n : BitVec 24) (rin rout : Word) (ws ys : List Word) (s : State), rin ≠ 0 → rout ≠ 0 →
    (Instr.rx n rin rout ws).WellFormed → outLen n.toNat rin rout ≤ 16777215 →
    resample ((pcmSamples n.toNat ws).map decodeSample) rin rout = some ys →
    (policyMode s.policy = 0 ∨ queued s.queue + ys.length ≤ s.maxQueued.toNat) →
    outgrows s.params s.queue ys.length = false →
    exec (.rx n rin rout ws) s =
      .next (writeWords .producer [0x00#8 ++ BitVec.ofNat 24 ys.length]
        { s with queue := s.queue ++ [{ data := ys, cursor := 0 }] }) ∧
    ys.length = outLen n.toNat rin rout

/-- RX enqueues as ENQ does under every policy and capacity: same queue, counters and fault as an ENQ of its resampled chunk, COUNT M
whatever was kept, and LAST_ERR left alone (43_pipeline_and_csr.md section 2, 42_playback.md sections 1 and 3, 10_state.md
section 4). -/
def Obligations.RxEnqueuesAsEnqDoes : Prop :=
  ∀ (n m : BitVec 24) (rin rout : Word) (ws ys : List Word) (s t : State), rin ≠ 0 → rout ≠ 0 →
    (Instr.rx n rin rout ws).WellFormed → outLen n.toNat rin rout ≤ 16777215 → s.fault = none →
    resample ((pcmSamples n.toNat ws).map decodeSample) rin rout = some ys →
    exec (.enq m ys) s = .next t →
    ∃ t', exec (.rx n rin rout ws) s = .next t' ∧ t'.queue = t.queue ∧ t'.overflows = t.overflows ∧
      t'.dropped = t.dropped ∧ t'.fault = t.fault ∧ t'.lastErr = s.lastErr ∧
      (t.fault = none → t'.producer.output = s.producer.output ++ [0x00#8 ++ BitVec.ofNat 24 ys.length]) ∧
      (t.fault ≠ none → t'.producer.output = s.producer.output)

/-! ### Playback -/

/-- ENQ completes: under UNBOUNDED, or within the threshold, and within the storage, the chunk joins the tail unmodified, an empty
one too; COUNT is N; nothing else changes (42_playback.md section 1: R190, R192, R193). -/
def Obligations.EnqAppendsTheChunk : Prop :=
  ∀ (n : BitVec 24) (ws : List Word) (s : State), (Instr.enq n ws).WellFormed →
    (policyMode s.policy = 0 ∨ queued s.queue + ws.length ≤ s.maxQueued.toNat) →
    outgrows s.params s.queue ws.length = false →
    exec (.enq n ws) s =
      .next (writeWords .producer [0x00#8 ++ n] { s with queue := s.queue ++ [{ data := ws, cursor := 0 }] })

/-- On overflow under DROP_NEWEST the incoming chunk keeps its first `max(0, MAX_QUEUED - queued)` samples, the rest are
dropped and counted, no queued sample is touched, and an empty chunk is appended where nothing is kept (42_playback.md section 3,
R203). That an empty incoming chunk, which drops no sample, leaves OVERFLOWS alone is the model's reading of R34 and R191 against
the words of R203 (log entry 17). -/
def Obligations.DropNewestKeepsThePrefix : Prop :=
  ∀ (n : BitVec 24) (ws : List Word) (s : State), (Instr.enq n ws).WellFormed → policyMode s.policy = 2 →
    s.maxQueued.toNat < queued s.queue + ws.length →
    outgrows s.params s.queue (s.maxQueued.toNat - queued s.queue) = false →
    exec (.enq n ws) s =
      .next (writeWords .producer [0x00#8 ++ BitVec.ofNat 24 (s.maxQueued.toNat - queued s.queue)]
        { s with
          queue := s.queue ++ [{ data := ws.take (s.maxQueued.toNat - queued s.queue), cursor := 0 }]
          overflows := if ws = [] then s.overflows else s.overflows + 1
          dropped := s.dropped + BitVec.ofNat 32 (ws.length - (s.maxQueued.toNat - queued s.queue)) })

/-- R204: on overflow under DROP_OLDEST the oldest `excess` of all samples, queued ones first, are discarded, so that exactly
MAX_QUEUED remain, in order; the discard walks the queue chunk by chunk; the drop is counted; COUNT is what was kept. -/
def Obligations.DropOldestKeepsTheNewest : Prop :=
  (∀ (n : BitVec 24) (ws : List Word) (s : State) (excess dq : Nat), (Instr.enq n ws).WellFormed →
    policyMode s.policy = 1 → excess = queued s.queue + ws.length - s.maxQueued.toNat → 0 < excess →
    dq = min excess (queued s.queue) →
    outgrows s.params (discardOldest dq s.queue) (ws.length - (excess - dq)) = false →
    ∃ t, exec (.enq n ws) s = .next t ∧
      t.queue = discardOldest dq s.queue ++ [{ data := ws.drop (excess - dq), cursor := 0 }] ∧
      pending t.queue = (pending s.queue ++ ws).drop excess ∧ queued t.queue = s.maxQueued.toNat ∧
      t = writeWords .producer [0x00#8 ++ BitVec.ofNat 24 (ws.length - (excess - dq))]
        { s with queue := t.queue, overflows := s.overflows + 1, dropped := s.dropped + BitVec.ofNat 32 excess }) ∧
  (∀ (k : Nat) (h : Chunk) (q : List Chunk),
    discardOldest 0 (h :: q) = h :: q ∧
    (0 < k → h.data.length - h.cursor ≤ k → discardOldest k (h :: q) = discardOldest (k - (h.data.length - h.cursor)) q) ∧
    (0 < k → k < h.data.length - h.cursor → discardOldest k (h :: q) = { h with cursor := h.cursor + k } :: q))

/-- R195: an append that would outgrow STORAGE_CAP or CHUNK_CAP, after the policy's drop, stops the block in StorageExhausted, by
ENQ and by RX, with no response; with both parameters none it cannot. -/
def Obligations.StorageLimitFaults : Prop :=
  (∀ (n : BitVec 24) (ws : List Word) (s : State) (plan : OverflowPlan) (q : List Chunk),
    plan = overflowPlan (policyMode s.policy) s.maxQueued.toNat (queued s.queue) ws →
    q = discardOldest plan.discard s.queue →
    ((∃ k, s.params.storageCap = some k ∧ k < queued q + plan.kept.length) ∨
     (∃ k, s.params.chunkCap = some k ∧ k < q.length + 1)) →
    ∃ t, exec (.enq n ws) s = .next t ∧ t.fault = some .storageExhausted ∧ t.producer = s.producer ∧ t.sink = s.sink) ∧
  (∀ (n : BitVec 24) (rin rout : Word) (ws ys : List Word) (s : State) (plan : OverflowPlan) (q : List Chunk),
    rin ≠ 0 → rout ≠ 0 → (Instr.rx n rin rout ws).WellFormed → outLen n.toNat rin rout ≤ 16777215 →
    resample ((pcmSamples n.toNat ws).map decodeSample) rin rout = some ys →
    plan = overflowPlan (policyMode s.policy) s.maxQueued.toNat (queued s.queue) ys →
    q = discardOldest plan.discard s.queue →
    ((∃ k, s.params.storageCap = some k ∧ k < queued q + plan.kept.length) ∨
     (∃ k, s.params.chunkCap = some k ∧ k < q.length + 1)) →
    ∃ t, exec (.rx n rin rout ws) s = .next t ∧ t.fault = some .storageExhausted ∧ t.producer = s.producer ∧
      t.sink = s.sink) ∧
  (∀ (i : Instr) (s t : State), s.params.storageCap = none → s.params.chunkCap = none → s.fault = none →
    exec i s = .next t → t.fault ≠ some .storageExhausted)

/-- DRAIN completes in every state: its frame is the first pending samples and then silence, the rest stay pending, UNDERRUNS and
SILENCE move exactly when there is silence, and nothing else changes (42_playback.md section 2: R196, R200, R201). -/
def Obligations.DrainConserves : Prop :=
  ∀ (n : BitVec 24) (s : State), ∃ t, exec (.drain n) s = .next t ∧
    t.sink.output = s.sink.output ++ (0x00#8 ++ n : Word) ::
      ((pending s.queue).take n.toNat ++ List.replicate (n.toNat - queued s.queue) 0x00000000) ∧
    pending t.queue = (pending s.queue).drop n.toNat ∧
    queued t.queue = queued s.queue - min n.toNat (queued s.queue) ∧
    t.underruns = (if queued s.queue < n.toNat then s.underruns + 1 else s.underruns) ∧
    t.silence = (if queued s.queue < n.toNat then s.silence + BitVec.ofNat 32 (n.toNat - queued s.queue) else s.silence) ∧
    t = { s with queue := t.queue, underruns := t.underruns, silence := t.silence,
                 sink := { s.sink with output := t.sink.output } }

/-- R198: a frame that fills inside a chunk, the head or one behind whole chunks `pre`, delivers those chunks and that one's next
samples, leaves it at the head with the cursor advanced by the samples taken from it and its data as it was, and touches no
later chunk. -/
def Obligations.PartialConsumption : Prop :=
  ∀ (n : BitVec 24) (s : State) (pre : List Chunk) (h : Chunk) (q : List Chunk), s.queue = pre ++ h :: q →
    (pre = [] ∨ queued pre < n.toNat) → n.toNat < queued pre + (h.data.length - h.cursor) →
    exec (.drain n) s =
      .next (writeWords .sink
        ((0x00#8 ++ n : Word) :: (pending pre ++ (h.data.drop h.cursor).take (n.toNat - queued pre)))
        { s with queue := { data := h.data, cursor := h.cursor + (n.toNat - queued pre) } :: q })

/-- A frame of size 0 changes nothing but its own response; a frame that fills at the end of a chunk removes that chunk and those
before it and no later one, an empty one included; an underrun empties the queue of every chunk, empty ones included
(42_playback.md section 2: R196, and R199 and R200, marked derived). -/
def Obligations.ZeroFrameAndUnderrun : Prop :=
  (∀ s : State, exec (.drain 0) s = .next (writeWords .sink [0x00000000] s)) ∧
  (∀ (n : BitVec 24) (s : State) (pre : List Chunk) (h : Chunk) (q : List Chunk), s.queue = pre ++ h :: q →
    h.cursor < h.data.length → n.toNat = queued pre + (h.data.length - h.cursor) →
    exec (.drain n) s =
      .next (writeWords .sink ((0x00#8 ++ n : Word) :: (pending pre ++ h.data.drop h.cursor)) { s with queue := q })) ∧
  (∀ (n : BitVec 24) (s t : State), queued s.queue < n.toNat → exec (.drain n) s = .next t → t.queue = [])

/-- R206: a DRAIN responds OK with exactly N payload words whatever the queue holds, and no word on port S stops, resets or clears
the block. -/
def Obligations.AdapterKeepsRunning : Prop :=
  (∀ (n : BitVec 24) (s : State), ∃ t ws, exec (.drain n) s = .next t ∧ ws.length = n.toNat ∧
    t.sink.output = s.sink.output ++ (0x00#8 ++ n : Word) :: ws) ∧
  (∀ s : State, s.fault = none → ∃ t, runPort .sink s = .next t ∧ t.fault = none ∧ t.policy = s.policy ∧
    t.maxQueued = s.maxQueued ∧ t.overflows = s.overflows ∧ t.dropped = s.dropped ∧ t.producer = s.producer ∧
    ∃ k, pending t.queue = (pending s.queue).drop k ∧ (k = 0 ∨ ∃ n ws, t.sink.output = s.sink.output ++ n :: ws ∧
      ws.length = n.toNat ∧ k ≤ n.toNat))

/-- R210: the whole CLEAR command: one word, on P; the queue is emptied and one zero word responds; every CSR of the block keeps
its value; nothing is counted. -/
def Obligations.ClearEmptiesTheQueue : Prop :=
  encode .clear = [0x07000000] ∧ instrPort .clear = .producer ∧
  (∀ s : State, exec .clear s = .next (writeWords .producer [0x00000000] { s with queue := [] })) ∧
  (∀ s t : State, exec .clear s = .next t → csrValue .qsamples t = 0 ∧ csrValue .qchunks t = 0)

/-- Chunks A, B, C and so on enqueued into an empty queue come back, in order and without loss, cut into the windows of the
drains that follow (42_playback.md section 5, R209 a, marked derived). -/
def Obligations.FifoThroughWindows : Prop :=
  ∀ (cs : List (List Word)) (ns : List (BitVec 24)) (s : State), s.queue = [] → policyMode s.policy = 0 →
    s.params.storageCap = none → s.params.chunkCap = none → (∀ c ∈ cs, c.length ≤ countMax) →
    (ns.map (fun n => n.toNat)).sum ≤ cs.flatten.length →
    ∃ t, runAll (cs.map (fun c => Instr.enq (BitVec.ofNat 24 c.length) c) ++ ns.map Instr.drain) s = .next t ∧
      t.sink.output = s.sink.output ++
        (List.zipWith (fun (n : BitVec 24) w => (0x00#8 ++ n : Word) :: w) ns
          (windows (ns.map (fun n => n.toNat)) cs.flatten)).flatten ∧
      pending t.queue = cs.flatten.drop (ns.map (fun n => n.toNat)).sum ∧
      t.underruns = s.underruns ∧ t.silence = s.silence ∧ t.overflows = s.overflows ∧ t.dropped = s.dropped

/-- How the pending samples are cut into chunks is hidden from every sequence of drains: equal pending samples give equal frames
and equal counters (10_state.md section 3, R28, marked derived). -/
def Obligations.ChunkingIsHiddenFromDrains : Prop :=
  ∀ (ns : List (BitVec 24)) (s t : State), pending s.queue = pending t.queue →
    s.sink.output = t.sink.output → s.underruns = t.underruns → s.silence = t.silence →
    ∃ s' t', runAll (ns.map Instr.drain) s = .next s' ∧ runAll (ns.map Instr.drain) t = .next t' ∧
      s'.sink.output = t'.sink.output ∧ s'.underruns = t'.underruns ∧ s'.silence = t'.silence ∧
      pending s'.queue = pending t'.queue

/-- A chunk's data is never changed after its enqueue: a command leaves, in order, a suffix of the chunks that were there, each with
its own data and a cursor no smaller, followed by nothing more or, for ENQ and RX alone, by one new chunk with cursor 0
(10_state.md section 3, R25 d, marked derived). -/
def Obligations.ChunkDataIsNeverChanged : Prop :=
  ∀ (i : Instr) (s t : State), exec i s = .next t →
    ∃ old new : List Chunk, t.queue = old ++ new ∧ Advanced s.queue old ∧
      (new = [] ∨ ((instrOp i = .enq ∨ instrOp i = .rx) ∧ ∃ c, new = [c] ∧ c.cursor = 0))

/-! ### Control and status registers -/

/-- R250: the whole CSRR command: one word, on P; a defined index responds COUNT 1 and the register, the gauges saturating; an
undefined one is rejected; a read changes nothing; the example. -/
def Obligations.CsrrCommand : Prop :=
  (∀ idx : BitVec 8, encode (.csrr idx) = [0x08#8 ++ (0#16 ++ idx)] ∧ instrPort (.csrr idx) = .producer) ∧
  (∀ s : State,
    exec (.csrr 0x00) s =
      .next (writeWords .producer [0x00000001, BitVec.ofNat 32 (min (queued s.queue) 0xFFFFFFFF)] s) ∧
    exec (.csrr 0x01) s =
      .next (writeWords .producer [0x00000001, BitVec.ofNat 32 (min s.queue.length 0xFFFFFFFF)] s) ∧
    exec (.csrr 0x02) s = .next (writeWords .producer [0x00000001, s.underruns] s) ∧
    exec (.csrr 0x03) s = .next (writeWords .producer [0x00000001, s.silence] s) ∧
    exec (.csrr 0x04) s = .next (writeWords .producer [0x00000001, s.overflows] s) ∧
    exec (.csrr 0x05) s = .next (writeWords .producer [0x00000001, s.dropped] s) ∧
    exec (.csrr 0x06) s = .next (writeWords .producer [0x00000001, s.policy] s) ∧
    exec (.csrr 0x07) s = .next (writeWords .producer [0x00000001, s.maxQueued] s) ∧
    exec (.csrr 0x08) s = .next (writeWords .producer [0x00000001, s.lastErr] s)) ∧
  (∀ (idx : BitVec 8) (s : State), 0x08#8 < idx →
    exec (.csrr idx) s = .next (writeWords .producer [0x03000000] { s with lastErr := 0x00000803 })) ∧
  encode (.csrr 0x07) = [0x08000007] ∧
  exec (.csrr 0x07) State.reset = .next (writeWords .producer [0x00000001, 0xFFFFFFFF] State.reset)

/-- R252: the whole CSRW command: two words, on P; an accepted write sets the one register and responds 0; the four counters and
MAX_QUEUED take every value; POLICY and LAST_ERR take the legal ones; no sample is dropped; no other command clears LAST_ERR; the
example. -/
def Obligations.CsrwCommand : Prop :=
  (∀ (idx : BitVec 8) (v : Word), encode (.csrw idx v) = [0x09#8 ++ (0#16 ++ idx), v] ∧
    instrPort (.csrw idx v) = .producer) ∧
  (∀ (v : Word) (s : State),
    exec (.csrw 0x02 v) s = .next (writeWords .producer [0x00000000] { s with underruns := v }) ∧
    exec (.csrw 0x03 v) s = .next (writeWords .producer [0x00000000] { s with silence := v }) ∧
    exec (.csrw 0x04 v) s = .next (writeWords .producer [0x00000000] { s with overflows := v }) ∧
    exec (.csrw 0x05 v) s = .next (writeWords .producer [0x00000000] { s with dropped := v }) ∧
    exec (.csrw 0x07 v) s = .next (writeWords .producer [0x00000000] { s with maxQueued := v }) ∧
    (v < 3#32 → exec (.csrw 0x06 v) s = .next (writeWords .producer [0x00000000] { s with policy := v })) ∧
    (v < 0x20000#32 → exec (.csrw 0x08 v) s = .next (writeWords .producer [0x00000000] { s with lastErr := v })) ∧
    (3#32 ≤ v → exec (.csrw 0x06 v) s = .next (writeWords .producer [0x03000000] { s with lastErr := 0x00000903 })) ∧
    (0x20000#32 ≤ v → exec (.csrw 0x08 v) s = .next (writeWords .producer [0x03000000] { s with lastErr := 0x00000903 }))) ∧
  (∀ (idx : BitVec 8) (v : Word) (s : State), idx = 0x00 ∨ idx = 0x01 ∨ 0x08#8 < idx →
    exec (.csrw idx v) s = .next (writeWords .producer [0x03000000] { s with lastErr := 0x00000903 })) ∧
  encode (.csrw 0x06 2) = [0x09000006, 0x00000002] ∧
  (∀ s t : State, exec (.csrw 0x06 2) s = .next t → policyMode t.policy = 2) ∧
  (∀ (i : Instr) (s t : State), exec i s = .next t → s.lastErr ≠ 0 → t.lastErr = 0 → i = .csrw 0x08 0)

/-- R205: a CSRW of any register leaves the queue as it is, and no command of S changes POLICY or MAX_QUEUED, so what an enqueue
reads is what P's own stream wrote last; and no command but ENQ, RX and the CSR accesses reads either. -/
def Obligations.PolicyWritesDropNothing : Prop :=
  (∀ (idx : BitVec 8) (v : Word) (s t : State), exec (.csrw idx v) s = .next t → t.queue = s.queue) ∧
  (∀ s t : State, runPort .sink s = .next t → t.policy = s.policy ∧ t.maxQueued = s.maxQueued) ∧
  (∀ (i : Instr) (s t : State) (m v : Word), instrOp i ≠ .enq → instrOp i ≠ .rx → instrOp i ≠ .csrr → instrOp i ≠ .csrw →
    exec i s = .next t → exec i { s with policy := m, maxQueued := v } = .next { t with policy := m, maxQueued := v })

/-! ### Responses, rejections and faults -/

/-- R104 and R105: a well-formed command that does not end in a model fault writes exactly one response on its port, its COUNT and
payload length those of the table; a status other than OK is a code of the table of statuses, has COUNT 0 and no payload. -/
def Obligations.OneResponseOfTheTabledShape : Prop :=
  ∀ (i : Instr) (s t : State), i.WellFormed → s.fault = none → exec i s = .next t → t.fault = none →
    ∃ (st : BitVec 8) (count : BitVec 24) (ws : List Word),
      (portOf (instrPort i) t).output = (portOf (instrPort i) s).output ++ (st ++ count : Word) :: ws ∧
      (∀ p, p ≠ instrPort i → (portOf p t).output = (portOf p s).output) ∧
      (st ≠ 0 → st ≤ 0x04#8 ∧ count = 0 ∧ ws = []) ∧
      (st = 0 →
        match i with
        | .enc n _ => count = n ∧ ws.length = (n.toNat + 1) / 2
        | .dec n _ => count = n ∧ ws.length = n.toNat
        | .rsmp n rin rout _ => count.toNat = outLen n.toNat rin rout ∧ ws.length = outLen n.toNat rin rout
        | .tx n rin rout _ => count.toNat = outLen n.toNat rin rout ∧ ws.length = (outLen n.toNat rin rout + 1) / 2
        | .rx n rin rout _ => count.toNat = outLen n.toNat rin rout ∧ ws = []
        | .enq _ _ => ws = [] ∧ ∃ c, t.queue.getLast? = some c ∧ c.data.length = count.toNat
        | .clear => count = 0 ∧ ws = []
        | .csrr _ => count = 1 ∧ ws.length = 1
        | .csrw _ _ => count = 0 ∧ ws = []
        | .drain n => count = n ∧ ws.length = n.toNat)

/-- R274 and R275: a response whose STATUS is not OK is one word with COUNT 0; its command has taken its words, one for
ILLEGAL_COMMAND and the whole command otherwise; LAST_ERR holds its status, opcode and port with zeros above; and nothing
else has changed. -/
def Obligations.RejectionIsPrecise : Prop :=
  ∀ (p : Port) (s t : State) (w : Word) (ws : List Word), runPort p s = .next t →
    (portOf p t).output = (portOf p s).output ++ w :: ws → w.extractLsb' 24 8 ≠ 0#8 →
    ws = [] ∧ w.extractLsb' 0 24 = 0#24 ∧
    ∃ h tl k, (portOf p s).input = h :: tl ∧
      (if w.extractLsb' 24 8 = 0x02#8 then k = 1
       else ∃ i rest, decode p (h :: tl) = .command i rest ∧ k = (encode i).length) ∧
      t = answered p k ((h :: tl).drop k) [w] { s with lastErr := t.lastErr } ∧
      t.lastErr.extractLsb' 0 8 = w.extractLsb' 24 8 ∧ t.lastErr.extractLsb' 8 8 = h.extractLsb' 24 8 ∧
      t.lastErr.extractLsb' 16 1 = portBit p ∧ t.lastErr.extractLsb' 17 15 = 0#15

/-- R270: the status of every response a port writes: ILLEGAL_COMMAND for a header that is no command; INVALID_ARGUMENT for a zero
rate and then RESULT_TOO_LONG for a result beyond 16777215, by RSMP, TX and RX; ILLEGAL_CSR for an undefined index, a
read-only CSR or a reserved bit or value, by CSRR and CSRW; OK for everything else, so no other code; and a DRAIN header on S
is always a command. -/
def Obligations.StatusCodesAndTheirCauses : Prop :=
  (∀ (p : Port) (s t : State) (w : Word) (ws : List Word), runPort p s = .next t →
    (portOf p t).output = (portOf p s).output ++ w :: ws →
    match decode p (portOf p s).input with
    | .incomplete => False
    | .illegal _ _ _ => w.extractLsb' 24 8 = 0x02#8
    | .command (.rsmp n rin rout _) _ | .command (.tx n rin rout _) _ | .command (.rx n rin rout _) _ =>
      w.extractLsb' 24 8 =
        if rin = 0 ∨ rout = 0 then 0x01#8 else if 16777215 < outLen n.toNat rin rout then 0x04#8 else 0x00#8
    | .command (.csrr idx) _ => w.extractLsb' 24 8 = if 0x08#8 < idx then 0x03#8 else 0x00#8
    | .command (.csrw idx v) _ =>
      w.extractLsb' 24 8 =
        if 0x08#8 < idx ∨ idx ≤ 0x01#8 ∨ (idx = 0x06#8 ∧ 3#32 ≤ v) ∨ (idx = 0x08#8 ∧ 0x20000#32 ≤ v) then 0x03#8
        else 0x00#8
    | .command (.enc _ _) _ | .command (.dec _ _) _ | .command (.enq _ _) _ | .command .clear _ | .command (.drain _) _ =>
      w.extractLsb' 24 8 = 0x00#8) ∧
  (∀ (n : BitVec 24) (rest : List Word), decode .sink ((0x0A#8 ++ n : Word) :: rest) = .command (.drain n) rest)

/-- R280: StorageExhausted comes from an ENQ or RX whose append, after the policy's drop, would exceed a capacity,
ResampleIndexGuard from an RSMP, TX or RX with a `low` beyond its last input sample; the fault field takes the name and no
response is written; no agent has a further step; only reset clears it. -/
def Obligations.ModelFaultsAndTheirCauses : Prop :=
  (∀ (i : Instr) (s t : State) (f : ModelFault), s.fault = none → exec i s = .next t → t.fault = some f →
    (f = .storageExhausted → ∃ (c : List Word) (plan : OverflowPlan) (q : List Chunk),
      ((∃ n, i = .enq n c) ∨ (∃ n rin rout ws, i = .rx n rin rout ws ∧
        resample ((pcmSamples n.toNat ws).map decodeSample) rin rout = some c)) ∧
      plan = overflowPlan (policyMode s.policy) s.maxQueued.toNat (queued s.queue) c ∧
      q = discardOldest plan.discard s.queue ∧
      ((∃ k, s.params.storageCap = some k ∧ k < queued q + plan.kept.length) ∨
       (∃ k, s.params.chunkCap = some k ∧ k < q.length + 1))) ∧
    (f = .resampleIndexGuard → ∃ (n : BitVec 24) (rin rout : Word) (ws x : List Word) (j : Nat),
      ((i = .rsmp n rin rout ws ∧ x = ws) ∨ (i = .tx n rin rout ws ∧ x = ws) ∨
        (i = .rx n rin rout ws ∧ x = (pcmSamples n.toNat ws).map decodeSample)) ∧
      j < outLen x.length rin rout ∧
      x.length ≤ floorNat (fdiv (ofNat64 j) (fdiv (ofNat64 rout.toNat) (ofNat64 rin.toNat)))) ∧
    t.producer = s.producer ∧ t.sink = s.sink) ∧
  (∀ (s : State) (f : ModelFault), s.fault = some f →
    (s.agenda = [] ∨ ∃ p later, s.agenda = .turn p :: later) → step s = .fault (.stopped f)) ∧
  (∀ (s t : State), s.fault ≠ none → step s = .next t → t.fault = none → ∃ later, s.agenda = .host .reset :: later)

/-- What each command leaves unchanged: both input streams and positions and the other port always; the queue but for RX, ENQ,
CLEAR, DRAIN; each register but for the commands the spec names for it (10_state.md sections 3 and 4, 40_codec.md to
43_pipeline_and_csr.md). That the capacity parameters stand in the state and no command changes them is log entry 5; the
order of steps, `turns` and `agenda`, which no command changes either, is the model's own (log entries 2 and 3). -/
def Obligations.ExecFrame : Prop :=
  ∀ (i : Instr) (s t : State), exec i s = .next t →
    (∀ p, (portOf p t).input = (portOf p s).input ∧ (portOf p t).pos = (portOf p s).pos) ∧
    (∀ p, p ≠ instrPort i → portOf p t = portOf p s) ∧
    t.params = s.params ∧ t.turns = s.turns ∧ t.agenda = s.agenda ∧
    (instrOp i ≠ .rx → instrOp i ≠ .enq → instrOp i ≠ .clear → instrOp i ≠ .drain → t.queue = s.queue) ∧
    (instrOp i ≠ .drain → (∀ v, i ≠ .csrw 0x02 v) → t.underruns = s.underruns) ∧
    (instrOp i ≠ .drain → (∀ v, i ≠ .csrw 0x03 v) → t.silence = s.silence) ∧
    (instrOp i ≠ .rx → instrOp i ≠ .enq → (∀ v, i ≠ .csrw 0x04 v) → t.overflows = s.overflows) ∧
    (instrOp i ≠ .rx → instrOp i ≠ .enq → (∀ v, i ≠ .csrw 0x05 v) → t.dropped = s.dropped) ∧
    ((∀ v, i ≠ .csrw 0x06 v) → t.policy = s.policy) ∧
    ((∀ v, i ≠ .csrw 0x07 v) → t.maxQueued = s.maxQueued) ∧
    (instrOp i ≠ .rsmp → instrOp i ≠ .tx → instrOp i ≠ .rx → instrOp i ≠ .csrr → instrOp i ≠ .csrw →
      t.lastErr = s.lastErr) ∧
    (instrOp i ≠ .rsmp → instrOp i ≠ .tx → instrOp i ≠ .rx → instrOp i ≠ .enq → t.fault = s.fault)

/-! ### Invariant -/

/-- Every step keeps the block's invariant: cursors in range, no consumed chunk kept, only the head partly consumed, POLICY legal,
LAST_ERR's reserved bits zero, storage within its capacity (10_state.md R25, R36, R38, 42_playback.md R195). -/
def Obligations.StepKeepsTheInvariant : Prop :=
  ∀ s t : State, Inv s → step s = .next t → Inv t

/-- The reset state meets the invariant. -/
def Obligations.ResetMeetsTheInvariant : Prop := Inv State.reset
end

