-- ==== Sys2Proof/Laws/Encoding.lean ====
section
/-! SUPPORT. The fields of a built header (30_encoding.md R91), and what decoding a nonempty stream can answer. -/

namespace Sys2Proof

/-- A bit of a built header. -/
theorem getLsbD_header (c : BitVec 8) (a : BitVec 24) (j : Nat) :
    BitVec.getLsbD (w := 32) (c ++ a) j = if j < 24 then a.getLsbD j else c.getLsbD (j - 24) :=
  (BitVec.getLsbD_append (x := c) (y := a) (i := j)).trans (by split <;> rfl)

/-- A bit of format C's argument field. -/
theorem getLsbD_csrArg (idx : BitVec 8) (j : Nat) :
    BitVec.getLsbD (w := 24) ((0 : BitVec 16) ++ idx) j = if j < 8 then idx.getLsbD j else (0 : BitVec 16).getLsbD (j - 8) :=
  (BitVec.getLsbD_append (x := (0 : BitVec 16)) (y := idx) (i := j)).trans (by split <;> rfl)

@[simp] theorem headerOp_append (c : BitVec 8) (a : BitVec 24) : headerOp (c ++ a) = c := by
  ext i hi
  simp [headerOp, getLsbD_header, BitVec.getLsbD_eq_getElem hi]

@[simp] theorem headerArg_append (c : BitVec 8) (a : BitVec 24) : headerArg (c ++ a) = a := by
  ext i hi
  simp [headerArg, getLsbD_header, hi]

@[simp] theorem headerIdx_append (c : BitVec 8) (idx : BitVec 8) :
    headerIdx (c ++ ((0 : BitVec 16) ++ idx : BitVec 24)) = idx := by
  ext i hi
  rw [headerIdx, BitVec.getElem_extractLsb', Nat.zero_add, getLsbD_header, if_pos (by omega), getLsbD_csrArg, if_pos hi,
    BitVec.getLsbD_eq_getElem hi]

@[simp] theorem headerCsrReserved_append (c : BitVec 8) (idx : BitVec 8) :
    headerCsrReserved (c ++ ((0 : BitVec 16) ++ idx : BitVec 24)) = 0 := by
  ext i hi
  rw [headerCsrReserved, BitVec.getElem_extractLsb', getLsbD_header, if_pos (by omega), getLsbD_csrArg, if_neg (by omega)]
  simp

/-- A header is its two fields. -/
theorem header_eq_append (h : Word) : headerOp h ++ headerArg h = h := by
  ext i hi
  simp only [headerOp, headerArg, BitVec.getElem_append, BitVec.getElem_extractLsb']
  split
  · simp [BitVec.getLsbD_eq_getElem hi]
  · simp [show 24 + (i - 24) = i by omega, BitVec.getLsbD_eq_getElem hi]

@[simp] theorem opOfCode?_opCode (op : Op) : opOfCode? (opCode op) = some op := by cases op <;> decide

/-- An opcode number names one opcode (R93). -/
theorem opCode_of_opOfCode? {c : BitVec 8} {op : Op} (h : opOfCode? c = some op) : opCode op = c := by
  unfold opOfCode? at h
  repeat' split at h
  all_goals first | (cases h; symm; assumption) | cases h

@[simp] theorem csrOfIndex?_csrIndex (c : Csr) : csrOfIndex? (csrIndex c) = some c := by cases c <;> decide

/-- An index names one CSR (R29). -/
theorem csrIndex_of_csrOfIndex? {idx : BitVec 8} {c : Csr} (h : csrOfIndex? idx = some c) : csrIndex c = idx := by
  unfold csrOfIndex? at h
  repeat' split at h
  all_goals first | (cases h; symm; assumption) | cases h

/-- Everything an accepted header says (R106). -/
theorem checkHeader_ok {p : Port} {h : Word} {op : Op} (hc : checkHeader p h = .ok op) :
    headerOp h = opCode op ∧ reservedBitsSet op h = false ∧ opPort op = p := by
  unfold checkHeader at hc
  split at hc
  · cases hc
  · rename_i o ho
    split at hc
    · cases hc
    · split at hc
      · cases hc
        rename_i hr hp
        exact ⟨(opCode_of_opOfCode? ho).symm, by simpa using hr, hp⟩
      · cases hc

/-- Everything a decoded command says of the stream it was read from (R95, R106). -/
theorem decode_command {p : Port} {ws rest : List Word} {i : Instr} (h : decode p ws = .command i rest) :
    ∃ hd tl op, ws = hd :: tl ∧ checkHeader p hd = .ok op ∧
      operandCount op (headerArg hd).toNat ≤ tl.length ∧
      i = assemble op hd (tl.take (operandCount op (headerArg hd).toNat)) ∧
      rest = tl.drop (operandCount op (headerArg hd).toNat) := by
  unfold decode at h
  split at h
  · cases h
  · rename_i hd tl
    split at h
    · cases h
    · rename_i op ho
      simp only at h
      split at h
      · cases h
      · cases h
        exact ⟨hd, tl, op, rfl, ho, by omega, rfl, rfl⟩

/-- Everything an illegal header says of the stream it was read from (R100 to R102). -/
theorem decode_illegal {p : Port} {ws rest : List Word} {e : HeaderError} {hd : Word}
    (h : decode p ws = .illegal e hd rest) : ws = hd :: rest ∧ checkHeader p hd = .error e := by
  unfold decode at h
  split at h
  · cases h
  · split at h
    · rename_i he
      cases h
      exact ⟨rfl, he⟩
    · simp only at h
      split at h <;> cases h

end Sys2Proof
end

