-- ==== Sys2Proof/Laws/State.lean ====
section
/-! SUPPORT. One lemma per field of State per update: what each named update leaves and what it writes. -/

namespace Sys2Proof.Machine

@[simp] theorem setPort_queue (p : Port) (ps : PortState) (s : State) : (setPort p ps s).queue = s.queue := by cases p <;> rfl
@[simp] theorem setPort_underruns (p : Port) (ps : PortState) (s : State) : (setPort p ps s).underruns = s.underruns := by cases p <;> rfl
@[simp] theorem setPort_silence (p : Port) (ps : PortState) (s : State) : (setPort p ps s).silence = s.silence := by cases p <;> rfl
@[simp] theorem setPort_overflows (p : Port) (ps : PortState) (s : State) : (setPort p ps s).overflows = s.overflows := by cases p <;> rfl
@[simp] theorem setPort_dropped (p : Port) (ps : PortState) (s : State) : (setPort p ps s).dropped = s.dropped := by cases p <;> rfl
@[simp] theorem setPort_policy (p : Port) (ps : PortState) (s : State) : (setPort p ps s).policy = s.policy := by cases p <;> rfl
@[simp] theorem setPort_maxQueued (p : Port) (ps : PortState) (s : State) : (setPort p ps s).maxQueued = s.maxQueued := by cases p <;> rfl
@[simp] theorem setPort_lastErr (p : Port) (ps : PortState) (s : State) : (setPort p ps s).lastErr = s.lastErr := by cases p <;> rfl
@[simp] theorem setPort_fault (p : Port) (ps : PortState) (s : State) : (setPort p ps s).fault = s.fault := by cases p <;> rfl
@[simp] theorem setPort_params (p : Port) (ps : PortState) (s : State) : (setPort p ps s).params = s.params := by cases p <;> rfl
@[simp] theorem setPort_turns (p : Port) (ps : PortState) (s : State) : (setPort p ps s).turns = s.turns := by cases p <;> rfl
@[simp] theorem setPort_agenda (p : Port) (ps : PortState) (s : State) : (setPort p ps s).agenda = s.agenda := by cases p <;> rfl

@[simp] theorem portOf_setPort (p : Port) (ps : PortState) (s : State) : portOf p (setPort p ps s) = ps := by cases p <;> rfl

theorem portOf_setPort_ne (p q : Port) (ps : PortState) (s : State) (h : q ≠ p) : portOf q (setPort p ps s) = portOf q s := by
  cases p <;> cases q <;> first | rfl | exact absurd rfl h

@[simp] theorem setPort_portOf (p : Port) (s : State) : setPort p (portOf p s) s = s := by cases p <;> rfl

@[simp] theorem setPort_setPort (p : Port) (a b : PortState) (s : State) : setPort p b (setPort p a s) = setPort p b s := by
  cases p <;> rfl

@[simp] theorem takeWords_queue (p : Port) (k : Nat) (rest : List Word) (s : State) : (takeWords p k rest s).queue = s.queue := by cases p <;> rfl
@[simp] theorem takeWords_underruns (p : Port) (k : Nat) (rest : List Word) (s : State) : (takeWords p k rest s).underruns = s.underruns := by cases p <;> rfl
@[simp] theorem takeWords_silence (p : Port) (k : Nat) (rest : List Word) (s : State) : (takeWords p k rest s).silence = s.silence := by cases p <;> rfl
@[simp] theorem takeWords_overflows (p : Port) (k : Nat) (rest : List Word) (s : State) : (takeWords p k rest s).overflows = s.overflows := by cases p <;> rfl
@[simp] theorem takeWords_dropped (p : Port) (k : Nat) (rest : List Word) (s : State) : (takeWords p k rest s).dropped = s.dropped := by cases p <;> rfl
@[simp] theorem takeWords_policy (p : Port) (k : Nat) (rest : List Word) (s : State) : (takeWords p k rest s).policy = s.policy := by cases p <;> rfl
@[simp] theorem takeWords_maxQueued (p : Port) (k : Nat) (rest : List Word) (s : State) : (takeWords p k rest s).maxQueued = s.maxQueued := by cases p <;> rfl
@[simp] theorem takeWords_lastErr (p : Port) (k : Nat) (rest : List Word) (s : State) : (takeWords p k rest s).lastErr = s.lastErr := by cases p <;> rfl
@[simp] theorem takeWords_fault (p : Port) (k : Nat) (rest : List Word) (s : State) : (takeWords p k rest s).fault = s.fault := by cases p <;> rfl
@[simp] theorem takeWords_params (p : Port) (k : Nat) (rest : List Word) (s : State) : (takeWords p k rest s).params = s.params := by cases p <;> rfl
@[simp] theorem takeWords_turns (p : Port) (k : Nat) (rest : List Word) (s : State) : (takeWords p k rest s).turns = s.turns := by cases p <;> rfl
@[simp] theorem takeWords_agenda (p : Port) (k : Nat) (rest : List Word) (s : State) : (takeWords p k rest s).agenda = s.agenda := by cases p <;> rfl

@[simp] theorem portOf_takeWords (p : Port) (k : Nat) (rest : List Word) (s : State) :
    portOf p (takeWords p k rest s) = { portOf p s with input := rest, pos := (portOf p s).pos + k } := by cases p <;> rfl

theorem portOf_takeWords_ne (p q : Port) (k : Nat) (rest : List Word) (s : State) (h : q ≠ p) :
    portOf q (takeWords p k rest s) = portOf q s := portOf_setPort_ne p q _ s h

@[simp] theorem writeWords_queue (p : Port) (ws : List Word) (s : State) : (writeWords p ws s).queue = s.queue := by cases p <;> rfl
@[simp] theorem writeWords_underruns (p : Port) (ws : List Word) (s : State) : (writeWords p ws s).underruns = s.underruns := by cases p <;> rfl
@[simp] theorem writeWords_silence (p : Port) (ws : List Word) (s : State) : (writeWords p ws s).silence = s.silence := by cases p <;> rfl
@[simp] theorem writeWords_overflows (p : Port) (ws : List Word) (s : State) : (writeWords p ws s).overflows = s.overflows := by cases p <;> rfl
@[simp] theorem writeWords_dropped (p : Port) (ws : List Word) (s : State) : (writeWords p ws s).dropped = s.dropped := by cases p <;> rfl
@[simp] theorem writeWords_policy (p : Port) (ws : List Word) (s : State) : (writeWords p ws s).policy = s.policy := by cases p <;> rfl
@[simp] theorem writeWords_maxQueued (p : Port) (ws : List Word) (s : State) : (writeWords p ws s).maxQueued = s.maxQueued := by cases p <;> rfl
@[simp] theorem writeWords_lastErr (p : Port) (ws : List Word) (s : State) : (writeWords p ws s).lastErr = s.lastErr := by cases p <;> rfl
@[simp] theorem writeWords_fault (p : Port) (ws : List Word) (s : State) : (writeWords p ws s).fault = s.fault := by cases p <;> rfl
@[simp] theorem writeWords_params (p : Port) (ws : List Word) (s : State) : (writeWords p ws s).params = s.params := by cases p <;> rfl
@[simp] theorem writeWords_turns (p : Port) (ws : List Word) (s : State) : (writeWords p ws s).turns = s.turns := by cases p <;> rfl
@[simp] theorem writeWords_agenda (p : Port) (ws : List Word) (s : State) : (writeWords p ws s).agenda = s.agenda := by cases p <;> rfl

@[simp] theorem portOf_writeWords (p : Port) (ws : List Word) (s : State) :
    portOf p (writeWords p ws s) = { portOf p s with output := (portOf p s).output ++ ws } := by cases p <;> rfl

theorem portOf_writeWords_ne (p q : Port) (ws : List Word) (s : State) (h : q ≠ p) :
    portOf q (writeWords p ws s) = portOf q s := portOf_setPort_ne p q _ s h

@[simp] theorem respond_queue (p : Port) (st : Status) (n : Nat) (ws : List Word) (s : State) : (respond p st n ws s).queue = s.queue := by cases p <;> rfl
@[simp] theorem respond_underruns (p : Port) (st : Status) (n : Nat) (ws : List Word) (s : State) : (respond p st n ws s).underruns = s.underruns := by cases p <;> rfl
@[simp] theorem respond_silence (p : Port) (st : Status) (n : Nat) (ws : List Word) (s : State) : (respond p st n ws s).silence = s.silence := by cases p <;> rfl
@[simp] theorem respond_overflows (p : Port) (st : Status) (n : Nat) (ws : List Word) (s : State) : (respond p st n ws s).overflows = s.overflows := by cases p <;> rfl
@[simp] theorem respond_dropped (p : Port) (st : Status) (n : Nat) (ws : List Word) (s : State) : (respond p st n ws s).dropped = s.dropped := by cases p <;> rfl
@[simp] theorem respond_policy (p : Port) (st : Status) (n : Nat) (ws : List Word) (s : State) : (respond p st n ws s).policy = s.policy := by cases p <;> rfl
@[simp] theorem respond_maxQueued (p : Port) (st : Status) (n : Nat) (ws : List Word) (s : State) : (respond p st n ws s).maxQueued = s.maxQueued := by cases p <;> rfl
@[simp] theorem respond_lastErr (p : Port) (st : Status) (n : Nat) (ws : List Word) (s : State) : (respond p st n ws s).lastErr = s.lastErr := by cases p <;> rfl
@[simp] theorem respond_fault (p : Port) (st : Status) (n : Nat) (ws : List Word) (s : State) : (respond p st n ws s).fault = s.fault := by cases p <;> rfl
@[simp] theorem respond_params (p : Port) (st : Status) (n : Nat) (ws : List Word) (s : State) : (respond p st n ws s).params = s.params := by cases p <;> rfl
@[simp] theorem respond_turns (p : Port) (st : Status) (n : Nat) (ws : List Word) (s : State) : (respond p st n ws s).turns = s.turns := by cases p <;> rfl
@[simp] theorem respond_agenda (p : Port) (st : Status) (n : Nat) (ws : List Word) (s : State) : (respond p st n ws s).agenda = s.agenda := by cases p <;> rfl

@[simp] theorem portOf_respond (p : Port) (st : Status) (n : Nat) (ws : List Word) (s : State) :
    portOf p (respond p st n ws s) =
      { portOf p s with output := (portOf p s).output ++ responseHeader st (BitVec.ofNat 24 n) :: ws } := by cases p <;> rfl

theorem portOf_respond_ne (p q : Port) (st : Status) (n : Nat) (ws : List Word) (s : State) (h : q ≠ p) :
    portOf q (respond p st n ws s) = portOf q s := portOf_setPort_ne p q _ s h

@[simp] theorem reject_queue (p : Port) (c : BitVec 8) (st : Status) (s : State) : (reject p c st s).queue = s.queue := by cases p <;> rfl
@[simp] theorem reject_underruns (p : Port) (c : BitVec 8) (st : Status) (s : State) : (reject p c st s).underruns = s.underruns := by cases p <;> rfl
@[simp] theorem reject_silence (p : Port) (c : BitVec 8) (st : Status) (s : State) : (reject p c st s).silence = s.silence := by cases p <;> rfl
@[simp] theorem reject_overflows (p : Port) (c : BitVec 8) (st : Status) (s : State) : (reject p c st s).overflows = s.overflows := by cases p <;> rfl
@[simp] theorem reject_dropped (p : Port) (c : BitVec 8) (st : Status) (s : State) : (reject p c st s).dropped = s.dropped := by cases p <;> rfl
@[simp] theorem reject_policy (p : Port) (c : BitVec 8) (st : Status) (s : State) : (reject p c st s).policy = s.policy := by cases p <;> rfl
@[simp] theorem reject_maxQueued (p : Port) (c : BitVec 8) (st : Status) (s : State) : (reject p c st s).maxQueued = s.maxQueued := by cases p <;> rfl
@[simp] theorem reject_fault (p : Port) (c : BitVec 8) (st : Status) (s : State) : (reject p c st s).fault = s.fault := by cases p <;> rfl
@[simp] theorem reject_params (p : Port) (c : BitVec 8) (st : Status) (s : State) : (reject p c st s).params = s.params := by cases p <;> rfl
@[simp] theorem reject_turns (p : Port) (c : BitVec 8) (st : Status) (s : State) : (reject p c st s).turns = s.turns := by cases p <;> rfl
@[simp] theorem reject_agenda (p : Port) (c : BitVec 8) (st : Status) (s : State) : (reject p c st s).agenda = s.agenda := by cases p <;> rfl

@[simp] theorem reject_lastErr (p : Port) (c : BitVec 8) (st : Status) (s : State) :
    (reject p c st s).lastErr = errorWord p c st := by cases p <;> rfl

@[simp] theorem portOf_reject (p : Port) (c : BitVec 8) (st : Status) (s : State) :
    portOf p (reject p c st s) = { portOf p s with output := (portOf p s).output ++ [responseHeader st 0] } := by cases p <;> rfl

theorem portOf_reject_ne (p q : Port) (c : BitVec 8) (st : Status) (s : State) (h : q ≠ p) :
    portOf q (reject p c st s) = portOf q s := by
  cases p <;> cases q <;> first | rfl | exact absurd rfl h

@[simp] theorem raiseFault_queue (f : ModelFault) (s : State) : (raiseFault f s).queue = s.queue := rfl
@[simp] theorem raiseFault_underruns (f : ModelFault) (s : State) : (raiseFault f s).underruns = s.underruns := rfl
@[simp] theorem raiseFault_silence (f : ModelFault) (s : State) : (raiseFault f s).silence = s.silence := rfl
@[simp] theorem raiseFault_overflows (f : ModelFault) (s : State) : (raiseFault f s).overflows = s.overflows := rfl
@[simp] theorem raiseFault_dropped (f : ModelFault) (s : State) : (raiseFault f s).dropped = s.dropped := rfl
@[simp] theorem raiseFault_policy (f : ModelFault) (s : State) : (raiseFault f s).policy = s.policy := rfl
@[simp] theorem raiseFault_maxQueued (f : ModelFault) (s : State) : (raiseFault f s).maxQueued = s.maxQueued := rfl
@[simp] theorem raiseFault_lastErr (f : ModelFault) (s : State) : (raiseFault f s).lastErr = s.lastErr := rfl
@[simp] theorem raiseFault_params (f : ModelFault) (s : State) : (raiseFault f s).params = s.params := rfl
@[simp] theorem raiseFault_turns (f : ModelFault) (s : State) : (raiseFault f s).turns = s.turns := rfl
@[simp] theorem raiseFault_agenda (f : ModelFault) (s : State) : (raiseFault f s).agenda = s.agenda := rfl
@[simp] theorem raiseFault_producer (f : ModelFault) (s : State) : (raiseFault f s).producer = s.producer := rfl
@[simp] theorem raiseFault_sink (f : ModelFault) (s : State) : (raiseFault f s).sink = s.sink := rfl

@[simp] theorem raiseFault_fault (f : ModelFault) (s : State) : (raiseFault f s).fault = some f := rfl

@[simp] theorem countUnderrun_queue (k : Nat) (s : State) : (countUnderrun k s).queue = s.queue := by unfold countUnderrun; split <;> rfl
@[simp] theorem countUnderrun_overflows (k : Nat) (s : State) : (countUnderrun k s).overflows = s.overflows := by unfold countUnderrun; split <;> rfl
@[simp] theorem countUnderrun_dropped (k : Nat) (s : State) : (countUnderrun k s).dropped = s.dropped := by unfold countUnderrun; split <;> rfl
@[simp] theorem countUnderrun_policy (k : Nat) (s : State) : (countUnderrun k s).policy = s.policy := by unfold countUnderrun; split <;> rfl
@[simp] theorem countUnderrun_maxQueued (k : Nat) (s : State) : (countUnderrun k s).maxQueued = s.maxQueued := by unfold countUnderrun; split <;> rfl
@[simp] theorem countUnderrun_lastErr (k : Nat) (s : State) : (countUnderrun k s).lastErr = s.lastErr := by unfold countUnderrun; split <;> rfl
@[simp] theorem countUnderrun_fault (k : Nat) (s : State) : (countUnderrun k s).fault = s.fault := by unfold countUnderrun; split <;> rfl
@[simp] theorem countUnderrun_params (k : Nat) (s : State) : (countUnderrun k s).params = s.params := by unfold countUnderrun; split <;> rfl
@[simp] theorem countUnderrun_turns (k : Nat) (s : State) : (countUnderrun k s).turns = s.turns := by unfold countUnderrun; split <;> rfl
@[simp] theorem countUnderrun_agenda (k : Nat) (s : State) : (countUnderrun k s).agenda = s.agenda := by unfold countUnderrun; split <;> rfl
@[simp] theorem countUnderrun_producer (k : Nat) (s : State) : (countUnderrun k s).producer = s.producer := by unfold countUnderrun; split <;> rfl
@[simp] theorem countUnderrun_sink (k : Nat) (s : State) : (countUnderrun k s).sink = s.sink := by unfold countUnderrun; split <;> rfl

theorem countUnderrun_underruns (k : Nat) (s : State) :
    (countUnderrun k s).underruns = if k = 0 then s.underruns else s.underruns + 1 := by unfold countUnderrun; split <;> rfl

theorem countUnderrun_silence (k : Nat) (s : State) :
    (countUnderrun k s).silence = if k = 0 then s.silence else s.silence + BitVec.ofNat 32 k := by
  unfold countUnderrun; split <;> rfl

@[simp] theorem countUnderrun_zero (s : State) : countUnderrun 0 s = s := rfl

@[simp] theorem countOverflow_queue (k : Nat) (s : State) : (countOverflow k s).queue = s.queue := by unfold countOverflow; split <;> rfl
@[simp] theorem countOverflow_underruns (k : Nat) (s : State) : (countOverflow k s).underruns = s.underruns := by unfold countOverflow; split <;> rfl
@[simp] theorem countOverflow_silence (k : Nat) (s : State) : (countOverflow k s).silence = s.silence := by unfold countOverflow; split <;> rfl
@[simp] theorem countOverflow_policy (k : Nat) (s : State) : (countOverflow k s).policy = s.policy := by unfold countOverflow; split <;> rfl
@[simp] theorem countOverflow_maxQueued (k : Nat) (s : State) : (countOverflow k s).maxQueued = s.maxQueued := by unfold countOverflow; split <;> rfl
@[simp] theorem countOverflow_lastErr (k : Nat) (s : State) : (countOverflow k s).lastErr = s.lastErr := by unfold countOverflow; split <;> rfl
@[simp] theorem countOverflow_fault (k : Nat) (s : State) : (countOverflow k s).fault = s.fault := by unfold countOverflow; split <;> rfl
@[simp] theorem countOverflow_params (k : Nat) (s : State) : (countOverflow k s).params = s.params := by unfold countOverflow; split <;> rfl
@[simp] theorem countOverflow_turns (k : Nat) (s : State) : (countOverflow k s).turns = s.turns := by unfold countOverflow; split <;> rfl
@[simp] theorem countOverflow_agenda (k : Nat) (s : State) : (countOverflow k s).agenda = s.agenda := by unfold countOverflow; split <;> rfl
@[simp] theorem countOverflow_producer (k : Nat) (s : State) : (countOverflow k s).producer = s.producer := by unfold countOverflow; split <;> rfl
@[simp] theorem countOverflow_sink (k : Nat) (s : State) : (countOverflow k s).sink = s.sink := by unfold countOverflow; split <;> rfl

theorem countOverflow_overflows (k : Nat) (s : State) :
    (countOverflow k s).overflows = if k = 0 then s.overflows else s.overflows + 1 := by unfold countOverflow; split <;> rfl

theorem countOverflow_dropped (k : Nat) (s : State) :
    (countOverflow k s).dropped = if k = 0 then s.dropped else s.dropped + BitVec.ofNat 32 k := by
  unfold countOverflow; split <;> rfl

@[simp] theorem countOverflow_zero (s : State) : countOverflow 0 s = s := rfl

@[simp] theorem resetBlock_params (s : State) : (resetBlock s).params = s.params := rfl
@[simp] theorem resetBlock_turns (s : State) : (resetBlock s).turns = s.turns := rfl
@[simp] theorem resetBlock_agenda (s : State) : (resetBlock s).agenda = s.agenda := rfl

@[simp] theorem resetBlock_queue (s : State) : (resetBlock s).queue = State.reset.queue := rfl
@[simp] theorem resetBlock_underruns (s : State) : (resetBlock s).underruns = State.reset.underruns := rfl
@[simp] theorem resetBlock_silence (s : State) : (resetBlock s).silence = State.reset.silence := rfl
@[simp] theorem resetBlock_overflows (s : State) : (resetBlock s).overflows = State.reset.overflows := rfl
@[simp] theorem resetBlock_dropped (s : State) : (resetBlock s).dropped = State.reset.dropped := rfl
@[simp] theorem resetBlock_policy (s : State) : (resetBlock s).policy = State.reset.policy := rfl
@[simp] theorem resetBlock_maxQueued (s : State) : (resetBlock s).maxQueued = State.reset.maxQueued := rfl
@[simp] theorem resetBlock_lastErr (s : State) : (resetBlock s).lastErr = State.reset.lastErr := rfl
@[simp] theorem resetBlock_fault (s : State) : (resetBlock s).fault = State.reset.fault := rfl
@[simp] theorem resetBlock_producer (s : State) : (resetBlock s).producer = State.reset.producer := rfl
@[simp] theorem resetBlock_sink (s : State) : (resetBlock s).sink = State.reset.sink := rfl

end Sys2Proof.Machine
end

