-- ==== Sys2Proof/Laws/Queue.lean ====
section
/-! SUPPORT. What the queue's operations do, once each: drain and discard walk the pending samples (42_playback.md R196, R204),
and every operation keeps the queue's invariant (10_state.md R25). -/

namespace Sys2Proof.Machine

@[simp] theorem length_chunkPending (c : Chunk) : (chunkPending c).length = chunkAvail c := by
  simp [chunkPending, chunkAvail]

/-- `len(pending(Q)) = queued(Q)` (R26). -/
theorem length_pending (q : List Chunk) : (pending q).length = queued q := by
  induction q with
  | nil => rfl
  | cons c q ih => simp [pending, queued, ih]

theorem pending_append (q r : List Chunk) : pending (q ++ r) = pending q ++ pending r := by
  induction q with
  | nil => rfl
  | cons c q ih => simp [pending, ih]

theorem queued_append (q r : List Chunk) : queued (q ++ r) = queued q + queued r := by
  simp [← length_pending, pending_append]

/-- Advancing a chunk's cursor drops that many of its pending samples. -/
theorem chunkPending_advance (c : Chunk) (k : Nat) :
    chunkPending { c with cursor := c.cursor + k } = (chunkPending c).drop k := by
  simp [chunkPending, List.drop_drop]

/-- A drain delivers the first pending samples and leaves the rest pending. -/
theorem drainQueue_spec (n : Nat) (q : List Chunk) :
    (drainQueue n q).1 = (pending q).take n ∧ pending (drainQueue n q).2 = (pending q).drop n := by
  induction q generalizing n with
  | nil => simp [drainQueue, pending]
  | cons c q ih =>
    simp only [drainQueue]
    split
    · subst n; simp
    · split
      · rename_i h
        have hn : n < chunkAvail c := by omega
        have hm : min (chunkAvail c) n = n := by omega
        have hl : n ≤ (chunkPending c).length := by simp; omega
        simp only [hm, pending, chunkPending_advance]
        rw [List.take_append_of_le_length hl, List.drop_append_of_le_length hl]
        exact ⟨rfl, rfl⟩
      · have hm : min (chunkAvail c) n = chunkAvail c := by omega
        have hl : (chunkPending c).length ≤ n := by simp; omega
        obtain ⟨h1, h2⟩ := ih (n - chunkAvail c)
        simp only [hm, pending, h1, h2, List.take_append, List.drop_append, length_chunkPending,
          List.take_of_length_le hl, List.drop_of_length_le hl, List.nil_append]
        rw [List.take_of_length_le (by simp)]
        exact ⟨rfl, trivial⟩

/-- A discard leaves the pending samples after the first `k`. -/
theorem pending_discardOldest (k : Nat) (q : List Chunk) : pending (discardOldest k q) = (pending q).drop k := by
  induction q generalizing k with
  | nil => simp [discardOldest, pending]
  | cons c q ih =>
    simp only [discardOldest]
    split
    · subst k; simp
    · split
      · have hl : (chunkPending c).length ≤ k := by simpa
        simp [ih, pending, List.drop_append, List.drop_of_length_le hl]
      · have hl : k ≤ (chunkPending c).length := by simp; omega
        simp only [pending, chunkPending_advance]
        rw [List.drop_append_of_le_length hl]

/-- A drain adds no chunk. -/
theorem length_drainQueue_le (n : Nat) (q : List Chunk) : (drainQueue n q).2.length ≤ q.length := by
  induction q generalizing n with
  | nil => simp [drainQueue]
  | cons c q ih =>
    simp only [drainQueue]
    split
    · simp
    · split
      · simp
      · exact (ih _).trans (by simp)

/-- A discard adds no chunk. -/
theorem length_discardOldest_le (k : Nat) (q : List Chunk) : (discardOldest k q).length ≤ q.length := by
  induction q generalizing k with
  | nil => simp [discardOldest]
  | cons c q ih =>
    simp only [discardOldest]
    split
    · simp
    · split
      · exact (ih _).trans (by simp)
      · simp

/-- Every queue has advanced to itself. -/
theorem advanced_refl (q : List Chunk) : Advanced q q :=
  ⟨0, List.forall₂_same.mpr fun _ _ => ⟨rfl, Nat.le_refl _⟩⟩

/-- A queue whose head is gone has advanced as its tail has. -/
theorem advanced_cons {c : Chunk} {q r : List Chunk} (h : Advanced q r) : Advanced (c :: q) r := by
  obtain ⟨k, hk⟩ := h
  exact ⟨k + 1, hk⟩

/-- A queue whose head's cursor advances has advanced. -/
theorem advanced_head (c : Chunk) (q : List Chunk) (k : Nat) : Advanced (c :: q) ({ c with cursor := c.cursor + k } :: q) :=
  ⟨0, .cons ⟨rfl, Nat.le_add_right _ _⟩ (List.forall₂_same.mpr fun _ _ => ⟨rfl, Nat.le_refl _⟩)⟩

/-- A drain advances the queue and changes no chunk's data. -/
theorem drainQueue_advanced (n : Nat) (q : List Chunk) : Advanced q (drainQueue n q).2 := by
  induction q generalizing n with
  | nil => exact advanced_refl []
  | cons c q ih =>
    simp only [drainQueue]
    split
    · exact advanced_refl _
    · split
      · exact advanced_head c q _
      · exact advanced_cons (ih _)

/-- A discard advances the queue and changes no chunk's data. -/
theorem discardOldest_advanced (k : Nat) (q : List Chunk) : Advanced q (discardOldest k q) := by
  induction q generalizing k with
  | nil => exact advanced_refl []
  | cons c q ih =>
    simp only [discardOldest]
    split
    · exact advanced_refl _
    · split
      · exact advanced_cons (ih _)
      · exact advanced_head c q _

/-- A drain that needs more than the head holds takes the head whole and goes on behind it (R196). -/
theorem drainQueue_cons_of_lt {n : Nat} {c : Chunk} (q : List Chunk) (h : chunkAvail c < n) :
    drainQueue n (c :: q) =
      (chunkPending c ++ (drainQueue (n - chunkAvail c) q).1, (drainQueue (n - chunkAvail c) q).2) := by
  have hm : min (chunkAvail c) n = chunkAvail c := by omega
  simp only [drainQueue, hm, if_neg (show n ≠ 0 by omega), if_neg (Nat.lt_irrefl _)]
  rw [List.take_of_length_le (by simp)]

/-- A drain that needs more than whole chunks `pre` hold takes them whole and goes on behind them (R196, R198). -/
theorem drainQueue_append {n : Nat} {pre : List Chunk} (q : List Chunk) (h : pre = [] ∨ queued pre < n) :
    drainQueue n (pre ++ q) =
      (pending pre ++ (drainQueue (n - queued pre) q).1, (drainQueue (n - queued pre) q).2) := by
  induction pre generalizing n with
  | nil => rfl
  | cons c pre ih =>
    replace h : chunkAvail c + queued pre < n := by simpa [queued] using h
    rw [List.cons_append, drainQueue_cons_of_lt _ (by omega), ih (Or.inr (by omega))]
    simp [pending, queued, Nat.sub_sub]

/-- The tail of a queue in order is in order. -/
theorem queueOk_tail {c : Chunk} {q : List Chunk} (h : queueOk (c :: q)) : queueOk q :=
  ⟨fun d hd => h.1 d (List.mem_cons_of_mem _ hd), fun d hd => h.2 d (List.mem_of_mem_tail hd)⟩

/-- A queue in order stays so when its head's cursor advances short of the end. -/
theorem queueOk_advance {c : Chunk} {q : List Chunk} {k : Nat} (h : queueOk (c :: q)) (hk : k < chunkAvail c) :
    queueOk ({ c with cursor := c.cursor + k } :: q) := by
  refine ⟨fun d hd => ?_, h.2⟩
  rcases List.mem_cons.mp hd with rfl | hd
  · simp only [chunkAvail] at hk
    exact ⟨by simp only; omega, Or.inl (by simp only; omega)⟩
  · exact h.1 d (List.mem_cons_of_mem _ hd)

/-- A drain keeps the queue in order (R25). -/
theorem drainQueue_ok (n : Nat) (q : List Chunk) (h : queueOk q) : queueOk (drainQueue n q).2 := by
  induction q generalizing n with
  | nil => exact h
  | cons c q ih =>
    simp only [drainQueue]
    split
    · exact h
    · split
      · exact queueOk_advance h ‹_›
      · exact ih _ (queueOk_tail h)

/-- A discard keeps the queue in order (R25). -/
theorem discardOldest_ok (k : Nat) (q : List Chunk) (h : queueOk q) : queueOk (discardOldest k q) := by
  induction q generalizing k with
  | nil => exact h
  | cons c q ih =>
    simp only [discardOldest]
    split
    · exact h
    · split
      · exact ih _ (queueOk_tail h)
      · exact queueOk_advance h (by omega)

/-- Appending a fresh chunk keeps the queue in order (R25). -/
theorem append_ok (q : List Chunk) (xs : List Word) (h : queueOk q) :
    queueOk (q ++ [{ data := xs, cursor := 0 }]) := by
  refine ⟨fun d hd => ?_, fun d hd => ?_⟩
  · rcases List.mem_append.mp hd with hd | hd
    · exact h.1 d hd
    · rw [List.mem_singleton.mp hd]
      exact ⟨Nat.zero_le _, by by_cases hx : xs.length = 0 <;> simp_all [Nat.pos_iff_ne_zero]⟩
  · cases q with
    | nil => simp at hd
    | cons c q =>
      simp only [List.cons_append, List.tail_cons, List.mem_append, List.mem_singleton] at hd
      rcases hd with hd | rfl
      · exact h.2 d hd
      · rfl

end Sys2Proof.Machine
end

