-- ==== Sys2Proof/Laws/Ops.lean ====
section
/-! SUPPORT. One lemma per shared operation that says everything it can do, for proofs to cite instead of unfolding it. -/

namespace Sys2Proof.Machine

/-- Everything a frame is: the first pending samples, then silence; the queue keeps the rest; the counters move by the silence (R196). -/
theorem drain_spec (n : Nat) (s : State) :
    drain n s = ((pending s.queue).take n ++ silenceWords (n - queued s.queue),
      countUnderrun (n - queued s.queue) { s with queue := (drainQueue n s.queue).2 }) := by
  have h : n - ((pending s.queue).take n).length = n - queued s.queue := by
    rw [List.length_take, length_pending]; omega
  simp only [drain, (drainQueue_spec n s.queue).1, h]

/-- A frame has exactly `n` samples (R196). -/
theorem length_drain (n : Nat) (s : State) : (drain n s).1.length = n := by
  rw [drain_spec]
  simp only [List.length_append, List.length_take, length_pending, silenceWords, List.length_replicate]
  omega

/-- Everything an overflow plan can be (R191). -/
theorem overflowPlan_cases (mode : BitVec 2) (maxq t : Nat) (c : List Word) :
    ((mode = 0 ∨ t + c.length ≤ maxq) ∧ overflowPlan mode maxq t c = { discard := 0, kept := c, dropped := 0 }) ∨
    (mode = 2 ∧ maxq < t + c.length ∧ overflowPlan mode maxq t c =
      { discard := 0, kept := c.take (maxq - t), dropped := c.length - (maxq - t) }) ∨
    (mode ≠ 0 ∧ mode ≠ 2 ∧ maxq < t + c.length ∧ overflowPlan mode maxq t c =
      { discard := min (t + c.length - maxq) t,
        kept := c.drop (t + c.length - maxq - min (t + c.length - maxq) t),
        dropped := t + c.length - maxq }) := by
  unfold overflowPlan
  by_cases h : mode = 0 ∨ t + c.length ≤ maxq
  · exact Or.inl ⟨h, if_pos h⟩
  · rw [if_neg h]
    have h0 : mode ≠ 0 := fun e => h (Or.inl e)
    have hm : maxq < t + c.length := by
      have := fun e => h (Or.inr e)
      omega
    by_cases h2 : mode = 2
    · exact Or.inr (Or.inl ⟨h2, hm, if_pos h2⟩)
    · exact Or.inr (Or.inr ⟨h0, h2, hm, if_neg h2⟩)

/-- Everything an enqueue can answer (R191): StorageExhausted after the plan's discard, or the kept samples appended and the drop counted. -/
theorem enqueue_cases (c : List Word) (s : State) :
    let plan := overflowPlan (policyMode s.policy) s.maxQueued.toNat (queued s.queue) c
    let q := discardOldest plan.discard s.queue
    (outgrows s.params q plan.kept.length = true ∧
      enqueue c s = .exhausted (raiseFault .storageExhausted { s with queue := q })) ∨
    (outgrows s.params q plan.kept.length = false ∧
      enqueue c s = .accepted (countOverflow plan.dropped { s with queue := q ++ [{ data := plan.kept, cursor := 0 }] })
        plan.kept.length) := by
  intro plan q
  by_cases h : outgrows s.params q plan.kept.length = true
  · exact Or.inl ⟨h, by unfold enqueue; exact if_pos h⟩
  · exact Or.inr ⟨by simpa using h, by unfold enqueue; exact if_neg h⟩

/-- Everything the checks of a resampling command can answer (R170). -/
theorem resampleChecked_cases (rin rout : Word) (x : List Word) :
    ((rin = 0 ∨ rout = 0) ∧ resampleChecked rin rout x = .rejected .invalidArgument) ∨
    (rin ≠ 0 ∧ rout ≠ 0 ∧ countMax < outLen x.length rin rout ∧
      resampleChecked rin rout x = .rejected .resultTooLong) ∨
    (rin ≠ 0 ∧ rout ≠ 0 ∧ outLen x.length rin rout ≤ countMax ∧ resample x rin rout = none ∧
      resampleChecked rin rout x = .guard) ∨
    (rin ≠ 0 ∧ rout ≠ 0 ∧ outLen x.length rin rout ≤ countMax ∧
      ∃ ys, resample x rin rout = some ys ∧ resampleChecked rin rout x = .samples ys) := by
  unfold resampleChecked
  by_cases h : rin = 0 ∨ rout = 0
  · exact Or.inl ⟨h, if_pos h⟩
  · have hr : rin ≠ 0 ∧ rout ≠ 0 := not_or.mp h
    rw [if_neg h]
    by_cases hM : countMax < outLen x.length rin rout
    · exact Or.inr (Or.inl ⟨hr.1, hr.2, hM, if_pos hM⟩)
    · rw [if_neg hM]
      cases hy : resample x rin rout with
      | none => exact Or.inr (Or.inr (Or.inl ⟨hr.1, hr.2, by omega, rfl, rfl⟩))
      | some ys => exact Or.inr (Or.inr (Or.inr ⟨hr.1, hr.2, by omega, ys, rfl, rfl⟩))

/-- The samples of an interpolation: as many as asked for. -/
theorem length_interpolateFrom {x : List Word} {ratio : FVal} {draw : Nat → NaNPattern} {i k : Nat} {ys : List Word}
    (h : interpolateFrom x ratio draw i k = some ys) : ys.length = k := by
  induction k generalizing i ys with
  | zero => cases h; rfl
  | succ k ih =>
    simp only [interpolateFrom] at h
    split at h
    · cases h
    · split at h
      · cases h
      · rename_i hy
        cases h
        simp [ih hy]

/-- The output of the resampler has length M, whatever its NaN patterns (R160, R162). -/
theorem length_resampleWith {draw : Nat → NaNPattern} {x : List Word} {rin rout : Word} {ys : List Word}
    (h : resampleWith draw x rin rout = some ys) : ys.length = outLen x.length rin rout := by
  unfold resampleWith at h
  split at h
  · rename_i he
    cases h
    simp [outLen, he]
  · exact length_interpolateFrom h

/-- The output of the resampler has length M (R160, R162). -/
theorem length_resample {x : List Word} {rin rout : Word} {ys : List Word}
    (h : resample x rin rout = some ys) : ys.length = outLen x.length rin rout := length_resampleWith h

/-- Everything an interpolation can answer: with every index in range its samples, one a position; else nothing, because the index
guard fires at a position (R164, R166). -/
theorem interpolateFrom_cases (x : List Word) (ratio : FVal) (draw : Nat → NaNPattern) (i k : Nat) :
    (∃ ys, interpolateFrom x ratio draw i k = some ys ∧
      ∀ j, j < k → ∃ v, interpolate x ratio (i + j) = some v ∧ ys.getD j 0 = bits32 (draw (i + j)) (fl32 v)) ∨
    (interpolateFrom x ratio draw i k = none ∧ ∃ j, j < k ∧ interpolate x ratio (i + j) = none) := by
  induction k generalizing i with
  | zero => exact Or.inl ⟨[], rfl, fun j hj => absurd hj (Nat.not_lt_zero j)⟩
  | succ k ih =>
    simp only [interpolateFrom]
    cases hv : interpolate x ratio i with
    | none => exact Or.inr ⟨rfl, 0, Nat.succ_pos k, hv⟩
    | some v =>
      rcases ih (i + 1) with ⟨ys, hys, hall⟩ | ⟨hno, j, hj, hnone⟩
      · refine Or.inl ⟨_, by rw [hys], fun j hj => ?_⟩
        cases j with
        | zero => exact ⟨v, hv, rfl⟩
        | succ j =>
          have h := hall j (by omega)
          rw [Nat.add_right_comm] at h
          simpa [Nat.add_assoc] using h
      · refine Or.inr ⟨by rw [hno], j + 1, by omega, ?_⟩
        rw [← hnone]; congr 1; omega

/-- Everything an accepted CSR write does: the one register takes the value (R252). -/
theorem csrWrite?_cases {c : Csr} {v : Word} {s t : State} (h : csrWrite? c v s = some t) :
    (c = .underruns ∧ t = { s with underruns := v }) ∨ (c = .silence ∧ t = { s with silence := v }) ∨
    (c = .overflows ∧ t = { s with overflows := v }) ∨ (c = .dropped ∧ t = { s with dropped := v }) ∨
    (c = .policy ∧ policyAccepts v = true ∧ t = { s with policy := v }) ∨
    (c = .maxQueued ∧ t = { s with maxQueued := v }) ∨
    (c = .lastErr ∧ lastErrAccepts v = true ∧ t = { s with lastErr := v }) := by
  cases c <;> simp only [csrWrite?] at h
  case policy =>
    split at h
    · cases h; exact Or.inr (Or.inr (Or.inr (Or.inr (Or.inl ⟨rfl, ‹_›, rfl⟩))))
    · cases h
  case lastErr =>
    split at h
    · cases h; exact Or.inr (Or.inr (Or.inr (Or.inr (Or.inr (Or.inr ⟨rfl, ‹_›, rfl⟩)))))
    · cases h
  all_goals first | (cases h; done) | (cases h; simp)

@[simp] theorem portOf_withAgenda (p : Port) (s : State) (l : List Event) : portOf p { s with agenda := l } = portOf p s := by
  cases p <;> rfl

@[simp] theorem portOf_withTurns (p : Port) (s : State) (k : Nat) : portOf p { s with turns := k } = portOf p s := by
  cases p <;> rfl

/-- A port asked to move runs the command its words decode to. -/
theorem runPort_of_command {p : Port} {s : State} {i : Instr} {rest : List Word} (hf : s.fault = none)
    (hd : decode p (portOf p s).input = .command i rest) :
    runPort p s = exec i (takeWords p (commandWords i) rest s) := by
  unfold runPort; rw [hf, hd]

/-- A port asked to move rejects a header that is no command. -/
theorem runPort_of_illegal {p : Port} {s : State} {e : HeaderError} {h : Word} {rest : List Word} (hf : s.fault = none)
    (hd : decode p (portOf p s).input = .illegal e h rest) :
    runPort p s = .next (reject p (headerOp h) .illegalCommand (takeWords p 1 rest s)) := by
  unfold runPort; rw [hf, hd]

/-- A held port's turn passes. -/
theorem runPort_of_incomplete {p : Port} {s : State} (hf : s.fault = none)
    (hd : decode p (portOf p s).input = .incomplete) : runPort p s = .next s := by
  unfold runPort; rw [hf, hd]

/-- A faulted block's port has no step. -/
theorem runPort_of_fault {p : Port} {s : State} {f : ModelFault} (hf : s.fault = some f) :
    runPort p s = .fault (.stopped f) := by
  unfold runPort; rw [hf]

/-- A step whose agenda asks a port. -/
theorem step_of_turn {p : Port} {s : State} {later : List Event} (h : s.agenda = .turn p :: later) :
    step s = runPort p { s with agenda := later } := by
  unfold step advance; rw [h]

/-- A step whose agenda holds an action of H. -/
theorem step_of_host {a : HostAct} {s : State} {later : List Event} (h : s.agenda = .host a :: later) :
    step s = .next (hostStep a { s with agenda := later }) := by
  unfold step advance; rw [h]

/-- A step with no agenda. -/
theorem step_of_free {s : State} (h : s.agenda = []) : step s = freeStep s := by
  unfold step advance; rw [h]

/-- A free step of a faulted block stops. -/
theorem freeStep_of_fault {s : State} {f : ModelFault} (hf : s.fault = some f) : freeStep s = .fault (.stopped f) := by
  unfold freeStep; rw [hf]

/-- A free step where exactly one port can move. -/
theorem freeStep_of_one {p q : Port} {s : State} (hf : s.fault = none) (hne : q ≠ p) (hp : portReady p s = true)
    (hq : portReady q s = false) : freeStep s = runPort p s := by
  cases p <;> cases q <;> first | exact absurd rfl hne | (unfold freeStep; rw [hf, hp, hq])

/-- Everything a port's step can be when it answers a next state (R42, R102, R106). -/
theorem runPort_cases {p : Port} {s t : State} (h : runPort p s = .next t) :
    s.fault = none ∧
    ((decode p (portOf p s).input = .incomplete ∧ t = s) ∨
     (∃ e hd rest, decode p (portOf p s).input = .illegal e hd rest ∧
       t = reject p (headerOp hd) .illegalCommand (takeWords p 1 rest s)) ∨
     (∃ i rest, decode p (portOf p s).input = .command i rest ∧
       exec i (takeWords p (commandWords i) rest s) = .next t)) := by
  unfold runPort at h
  split at h
  · cases h
  · refine ⟨‹_›, ?_⟩
    split at h
    · cases h; exact Or.inl ⟨‹_›, rfl⟩
    · rename_i e hd rest hdec
      cases h
      exact Or.inr (Or.inl ⟨e, hd, rest, hdec, rfl⟩)
    · rename_i i rest hdec
      exact Or.inr (Or.inr ⟨i, rest, hdec, h⟩)

/-- Everything a step of the machine can be when it answers a next state: an action of H, or a port's step from a state that
differs only in the model's own order of steps. -/
theorem step_cases {s t : State} (h : step s = .next t) :
    (∃ a rest, s.agenda = .host a :: rest ∧ t = hostStep a { s with agenda := rest }) ∨
    (∃ p rest k, runPort p { s with agenda := rest, turns := k } = .next t) := by
  unfold step advance at h
  split at h
  · rename_i p rest _
    exact Or.inr ⟨p, rest, s.turns, h⟩
  · rename_i a rest ha
    cases h
    exact Or.inl ⟨a, rest, ha, rfl⟩
  · rename_i ha
    have he : s = { s with agenda := [], turns := s.turns } := by rw [← ha]
    unfold freeStep at h
    split at h
    · cases h
    · split at h
      · exact Or.inr ⟨_, _, _, he ▸ h⟩
      · exact Or.inr ⟨_, _, _, he ▸ h⟩
      · exact Or.inr ⟨_, [], s.turns + 1, by rw [← ha]; exact h⟩
      · cases h

end Sys2Proof.Machine
end

