-- ==== Sys2Proof/Laws/PerInstr.lean ====
section
/-! SUPPORT. Statements made per instruction, about the instruction as syntax, with one lemma per constructor. -/

/-- The length of a well-formed command's words follows from its header alone (30_encoding.md R95). -/
def Sys2Proof.Laws.Length.Statement (i : Sys2Proof.Instr) : Prop :=
  i.WellFormed → (Sys2Proof.instrOperands i).length =
    Sys2Proof.operandCount (Sys2Proof.instrOp i) (Sys2Proof.instrArg i).toNat

/-- A command's own header passes the three header checks on the command's port (R106). -/
def Sys2Proof.Laws.Header.Statement (i : Sys2Proof.Instr) : Prop :=
  Sys2Proof.checkHeader (Sys2Proof.instrPort i) (Sys2Proof.instrHeader i) = .ok (Sys2Proof.instrOp i)

namespace Sys2Proof.Laws.Length

theorem enc (n : BitVec 24) (ws : List Word) : Statement (.enc n ws) := fun h => h
theorem dec (n : BitVec 24) (ws : List Word) : Statement (.dec n ws) := fun h => h
theorem rsmp (n : BitVec 24) (rin rout : Word) (ws : List Word) : Statement (.rsmp n rin rout ws) := by
  intro h
  replace h : ws.length = _ := h
  simp only [instrOperands, List.length_cons, operandCount, instrOp, instrArg, h]
  omega
theorem tx (n : BitVec 24) (rin rout : Word) (ws : List Word) : Statement (.tx n rin rout ws) := by
  intro h
  replace h : ws.length = _ := h
  simp only [instrOperands, List.length_cons, operandCount, instrOp, instrArg, h]
  omega
theorem rx (n : BitVec 24) (rin rout : Word) (ws : List Word) : Statement (.rx n rin rout ws) := by
  intro h
  replace h : ws.length = _ := h
  simp only [instrOperands, List.length_cons, operandCount, instrOp, instrArg, h]
  omega
theorem enq (n : BitVec 24) (ws : List Word) : Statement (.enq n ws) := fun h => h
theorem clear : Statement .clear := fun _ => rfl
theorem csrr (idx : BitVec 8) : Statement (.csrr idx) := fun _ => rfl
theorem csrw (idx : BitVec 8) (value : Word) : Statement (.csrw idx value) := fun _ => rfl
theorem drain (n : BitVec 24) : Statement (.drain n) := fun _ => rfl

end Sys2Proof.Laws.Length

namespace Sys2Proof.Laws.Header

theorem enc (n : BitVec 24) (ws : List Word) : Statement (.enc n ws) := by
  simp [Statement, checkHeader, instrHeader, instrOp, instrPort, reservedBitsSet]
theorem dec (n : BitVec 24) (ws : List Word) : Statement (.dec n ws) := by
  simp [Statement, checkHeader, instrHeader, instrOp, instrPort, reservedBitsSet]
theorem rsmp (n : BitVec 24) (rin rout : Word) (ws : List Word) : Statement (.rsmp n rin rout ws) := by
  simp [Statement, checkHeader, instrHeader, instrOp, instrPort, reservedBitsSet]
theorem tx (n : BitVec 24) (rin rout : Word) (ws : List Word) : Statement (.tx n rin rout ws) := by
  simp [Statement, checkHeader, instrHeader, instrOp, instrPort, reservedBitsSet]
theorem rx (n : BitVec 24) (rin rout : Word) (ws : List Word) : Statement (.rx n rin rout ws) := by
  simp [Statement, checkHeader, instrHeader, instrOp, instrPort, reservedBitsSet]
theorem enq (n : BitVec 24) (ws : List Word) : Statement (.enq n ws) := by
  simp [Statement, checkHeader, instrHeader, instrOp, instrPort, reservedBitsSet]
theorem clear : Statement .clear := by
  simp [Statement, checkHeader, instrHeader, instrOp, instrPort, instrArg, reservedBitsSet]
theorem csrr (idx : BitVec 8) : Statement (.csrr idx) := by
  rw [Statement, checkHeader, instrHeader, headerOp_append, opOfCode?_opCode]
  simp only [instrOp, instrPort, instrArg, reservedBitsSet, headerCsrReserved_append]
  rfl
theorem csrw (idx : BitVec 8) (value : Word) : Statement (.csrw idx value) := by
  rw [Statement, checkHeader, instrHeader, headerOp_append, opOfCode?_opCode]
  simp only [instrOp, instrPort, instrArg, reservedBitsSet, headerCsrReserved_append]
  rfl
theorem drain (n : BitVec 24) : Statement (.drain n) := by
  simp [Statement, checkHeader, instrHeader, instrOp, instrPort, reservedBitsSet]

end Sys2Proof.Laws.Header
end

