-- ==== Sys2Proof/Tests/Slice0.lean ====
section
/-! SUPPORT. Tests: ill-formed terms, words written out from the spec's encodings, one step at a time on small states with the
results of 95_test_vectors.md, and a witness for the hypotheses of every statement. -/

namespace Sys2Proof.Tests

open Sys2Proof Sys2Proof.Machine

/-- The reset state with words supplied to one port. -/
def onPort (p : Port) (ws : List Word) : State := setPort p { input := ws, pos := 0, output := [] } State.reset

/-- The reset state holding a queue, with words supplied to one port. -/
def withQueue (q : List Chunk) (p : Port) (ws : List Word) : State := { onPort p ws with queue := q }

/-- The next state of an outcome, if it is one. -/
def nextOf (o : Host.Outcome State Fault Refusal) : Option State :=
  match o with
  | .next s => some s
  | .fault _ => none
  | .refused _ => none

/-- The fault of an outcome, if it is one. -/
def faultOf (o : Host.Outcome State Fault Refusal) : Option Fault :=
  match o with
  | .next _ => none
  | .fault f => some f
  | .refused _ => none

/-- The response words of one step on a port. -/
def answer (p : Port) (s : State) : Option (List Word) := (nextOf (step s)).map (fun t => (portOf p t).output)

/-! ### Well-formedness: an ill-formed term for each check -/

theorem test_illformed_enc : ¬ (Instr.enc 2 [0]).WellFormed := by decide
theorem test_illformed_dec : ¬ (Instr.dec 3 [0]).WellFormed := by decide
theorem test_illformed_rsmp : ¬ (Instr.rsmp 1 1 2 []).WellFormed := by decide
theorem test_illformed_tx : ¬ (Instr.tx 0 1 2 [0]).WellFormed := by decide
theorem test_illformed_rx : ¬ (Instr.rx 2 1 2 [0, 0]).WellFormed := by decide
theorem test_illformed_enq : ¬ (Instr.enq 1 []).WellFormed := by decide
theorem test_illformed_asm_dec : ¬ (AsmLine.dec [32768]).WellFormed := by decide
theorem test_illformed_asm_rx : ¬ (AsmLine.rx 1 1 [-32769]).WellFormed := by decide
theorem test_illformed_asm_list (fs : List Word) (h : fs.length = 16777216) : ¬ (AsmLine.enq fs).WellFormed := by
  intro hw
  have hl : fs.length ≤ countMax := hw
  rw [h] at hl
  exact absurd hl (by decide +kernel)

/-! ### Decoding: words written out bit by bit from 30_encoding.md R91 to R93 -/

/-- OP 00000001, N = 1, then one float word. -/
theorem test_decode_enc : decode .producer [0b00000001000000000000000000000001, 0x3F800000] =
    .command (.enc 1 [0x3F800000]) [] := by decide

/-- OP 00000010, N = 3, then two PCM16 words (R109). -/
theorem test_decode_dec : decode .producer [0b00000010000000000000000000000011, 0x0002FFFF, 0x00004000, 7] =
    .command (.dec 3 [0x0002FFFF, 0x00004000]) [7] := by decide

/-- OP 00000011, N = 2, RIN, ROUT, two float words (R109). -/
theorem test_decode_rsmp : decode .producer [0b00000011000000000000000000000010, 1, 2, 0, 0x3F800000] =
    .command (.rsmp 2 1 2 [0, 0x3F800000]) [] := by decide

/-- OP 00000100, N = 0, RIN, ROUT. -/
theorem test_decode_tx : decode .producer [0b00000100000000000000000000000000, 7, 9] = .command (.tx 0 7 9 []) [] := by
  decide

/-- OP 00000101, N = 1, RIN, ROUT, one PCM16 word. -/
theorem test_decode_rx : decode .producer [0b00000101000000000000000000000001, 2, 1, 0x00004000] =
    .command (.rx 1 2 1 [0x00004000]) [] := by decide

/-- OP 00000110, N = 1, one float word. -/
theorem test_decode_enq : decode .producer [0b00000110000000000000000000000001, 0xBF800000] =
    .command (.enq 1 [0xBF800000]) [] := by decide

/-- OP 00000111, ARG = 0. -/
theorem test_decode_clear : decode .producer [0b00000111000000000000000000000000] = .command .clear [] := by decide

/-- OP 00001000, [23:8] = 0, IDX = 7. -/
theorem test_decode_csrr : decode .producer [0b00001000000000000000000000000111] = .command (.csrr 7) [] := by decide

/-- OP 00001001, [23:8] = 0, IDX = 6, then VALUE (R109). -/
theorem test_decode_csrw : decode .producer [0b00001001000000000000000000000110, 2] = .command (.csrw 6 2) [] := by decide

/-- OP 00001010, N = 128, on the sink port (R109). -/
theorem test_decode_drain : decode .sink [0b00001010000000000000000010000000] = .command (.drain 128) [] := by decide

/-- 95_test_vectors.md 2.11: a CSRW header with bit 8 set takes itself alone. -/
theorem test_decode_reserved : decode .producer [0x09000106, 2] = .illegal .reservedBits 0x09000106 [2] := by decide

/-- R106: the opcode is checked before the port. -/
theorem test_decode_undefined : decode .sink [0x0B000000] = .illegal .undefinedOp 0x0B000000 [] := by decide

/-- R310: a command whose words have not all arrived. -/
theorem test_decode_incomplete : decode .producer [0x06000002, 0x3F800000] = .incomplete := by decide

/-- The table's row for DRAIN with N = 5 in its operand bits. -/
theorem test_decodeTableWord : decodeTableWord 32 0x0A000005 = some (.drain 5) := by decide

/-- R64: low byte first. -/
theorem test_frameBytes : frameBytes [0x02, 0x00, 0x00, 0x0A] = some [0x0A000002] := by decide

/-- R107 and R109: a line of text and its words. -/
theorem test_assemble : (parseLine ['S', ':', ' ', 'D', 'R', 'A', 'I', 'N', ' ', '1', '2', '8']).map
    (fun l => encode (assembleLine l)) = some [0x0A000080] := by decide +kernel

/-- R108: POLICY DROP_NEWEST is CSRW POLICY, 2. -/
theorem test_pseudo : encode (assembleLine (expandPseudo .policyDropNewest)) = [0x09000006, 2] := by decide

/-! ### One step, with the results of 95_test_vectors.md -/

/-- 2.4: ENC [1.0, -1.0, 0.5]. -/
theorem test_enc : answer .producer (onPort .producer [0x01000003, 0x3F800000, 0xBF800000, 0x3F000000]) =
    some [0x00000003, 0x80007FFF, 0x00003FFF] := by decide +kernel

/-- 2.1: 0x3F000100 encodes to 16383, where a binary32 product would give 16384. -/
theorem test_enc_exact : answer .producer (onPort .producer [0x01000001, 0x3F000100]) = some [1, 0x00003FFF] := by
  decide +kernel

/-- 2.4: DEC with N = 1 ignores the pad half. -/
theorem test_dec_pad : answer .producer (onPort .producer [0x02000001, 0xABCD4000]) = some [1, 0x3F000000] := by
  decide +kernel

/-- 2.2: the two ends of the range. -/
theorem test_dec_ends : answer .producer (onPort .producer [0x02000002, 0x7FFF8000]) =
    some [2, 0xBF800000, 0x3F7FFE00] := by decide +kernel

/-- 2.5: [0.0, 1.0, 0.0, -1.0] from 4 to 3. -/
theorem test_rsmp : answer .producer (onPort .producer [0x03000004, 4, 3, 0, 0x3F800000, 0, 0xBF800000]) =
    some [3, 0x00000000, 0x3F2AAAAB, 0xBF2AAAAB] := by decide +kernel

/-- 2.5: half of the smallest subnormal rounds to +0.0, ties to even. -/
theorem test_rsmp_subnormal : answer .producer (onPort .producer [0x03000002, 1, 2, 0x00000001, 0]) =
    some [4, 0x00000001, 0, 0, 0] := by decide +kernel

/-- 2.5, with one pattern drawn for every NaN sample: [0.0, +inf], [+inf, 0.0], [NaN, 0.0] and [-0.0, -0.0] from 1 to 2. -/
theorem test_resample_special :
    resampleWith (fun _ => default) [0, 0x7F800000] 1 2 =
      some [nanWord default, 0x7F800000, nanWord default, 0x7F800000] ∧
    resampleWith (fun _ => default) [0x7F800000, 0] 1 2 = some [0x7F800000, 0x7F800000, 0, 0] ∧
    resampleWith (fun _ => default) [0x7FC00000, 0] 1 2 = some [nanWord default, nanWord default, 0, 0] ∧
    resampleWith (fun _ => default) [0x80000000, 0x80000000] 1 2 =
      some [0x80000000, 0x80000000, 0x80000000, 0x80000000] := by decide +kernel

/-- 2.9: TX 3, 2, [a, b, c]. -/
theorem test_tx : answer .producer (onPort .producer [0x04000003, 3, 2, 0x3DCCCCCD, 0x3E4CCCCD, 0x3E99999A]) =
    some [2, 0x1FFF0CCC] := by decide +kernel

/-- 2.11: TX 1, 2^24, [0.0] is RESULT_TOO_LONG. -/
theorem test_tx_too_long : (nextOf (step (onPort .producer [0x04000001, 1, 0x01000000, 0]))).map
    (fun t => (t.producer.output, t.lastErr, t.producer.pos)) = some ([0x04000000], 0x00000404, 4) := by decide +kernel

/-- 2.9: RX 1, 2, [0, 16384] enqueues [0.0, 0.25, 0.5, 0.5]. -/
theorem test_rx : (nextOf (step (onPort .producer [0x05000002, 1, 2, 0x40000000]))).map
    (fun t => (t.queue, t.producer.output)) =
    some ([{ data := [0, 0x3E800000, 0x3F000000, 0x3F000000], cursor := 0 }], [4]) := by decide +kernel

/-- 2.12: STORAGE_CAP = 1 and RX 1, 2, [16384]: StorageExhausted, no response. -/
theorem test_rx_exhausted : (nextOf (step { onPort .producer [0x05000001, 1, 2, 0x00004000] with
      params := { storageCap := some 1, chunkCap := none } })).map (fun t => (t.fault, t.queue, t.producer.output)) =
    some (some .storageExhausted, [], []) := by decide +kernel

/-- 2.7 DO3: the oldest chunk's cursor advances. -/
theorem test_enq_drop_oldest : (nextOf (step { withQueue [{ data := [1, 2, 3], cursor := 0 }] .producer [0x06000001, 4] with
      policy := 1, maxQueued := 3 })).map (fun t => (t.queue, t.overflows, t.dropped, t.producer.output)) =
    some ([{ data := [1, 2, 3], cursor := 1 }, { data := [4], cursor := 0 }], 1, 1, [1]) := by decide +kernel

/-- 2.7 DN2: nothing is kept and an empty chunk is appended. -/
theorem test_enq_drop_newest : (nextOf (step { withQueue [{ data := [1, 2, 3], cursor := 0 }] .producer [0x06000001, 4] with
      policy := 2, maxQueued := 1 })).map (fun t => (t.queue, t.overflows, t.dropped, t.producer.output)) =
    some ([{ data := [1, 2, 3], cursor := 0 }, { data := [], cursor := 0 }], 1, 1, [0]) := by decide +kernel

/-- 2.8: CLEAR empties the queue and counts nothing. -/
theorem test_clear : (nextOf (step (withQueue [{ data := [1, 2], cursor := 1 }, { data := [3], cursor := 0 }] .producer
      [0x07000000]))).map (fun t => (t.queue, t.dropped, t.underruns, t.producer.output)) = some ([], 0, 0, [0]) := by decide

/-- 2.11: CLEAR with ARG 1 clears nothing. -/
theorem test_clear_reserved : (nextOf (step (withQueue [{ data := [1], cursor := 0 }] .producer [0x07000001]))).map
    (fun t => (t.queue.length, t.producer.output, t.lastErr)) = some (1, [0x02000000], 0x00000702) := by decide

/-- P2 step 3: QSAMPLES counts from the cursor. -/
theorem test_csrr_qsamples : answer .producer (withQueue [{ data := [0, 1, 2, 3], cursor := 3 }] .producer [0x08000000]) =
    some [1, 1] := by decide

/-- 2.11: CSRR of index 9. -/
theorem test_csrr_undefined : (nextOf (step (onPort .producer [0x08000009]))).map
    (fun t => (t.producer.output, t.lastErr)) = some ([0x03000000], 0x00000803) := by decide

/-- 2.11: CSRW POLICY, 3 is rejected with both words taken. -/
theorem test_csrw_reserved_mode : (nextOf (step (onPort .producer [0x09000006, 3]))).map
    (fun t => (t.policy, t.producer.output, t.lastErr, t.producer.pos)) = some (0, [0x03000000], 0x00000903, 2) := by decide

/-- 2.10: CSRW LAST_ERR, 0x1FFFF. -/
theorem test_csrw_lastErr : (nextOf (step (onPort .producer [0x09000008, 0x0001FFFF]))).map
    (fun t => (t.lastErr, t.producer.output)) = some (0x0001FFFF, [0]) := by decide

/-- 2.6: DRAIN 1 stops before the empty chunk that follows. -/
theorem test_drain_full_frame : (nextOf (step (withQueue [{ data := [5], cursor := 0 }, { data := [], cursor := 0 },
      { data := [6], cursor := 0 }] .sink [0x0A000001]))).map (fun t => (t.queue, t.sink.output, t.underruns)) =
    some ([{ data := [], cursor := 0 }, { data := [6], cursor := 0 }], [1, 5], 0) := by decide

/-- 2.6: DRAIN 5 of two pending samples writes three of silence. -/
theorem test_drain_underrun : (nextOf (step (withQueue [{ data := [4, 5, 6], cursor := 1 }] .sink [0x0A000005]))).map
    (fun t => (t.queue, t.sink.output, t.underruns, t.silence)) = some ([], [5, 5, 6, 0, 0, 0], 1, 3) := by decide

/-- 2.11: an ENQ header on S. -/
theorem test_wrong_port : (nextOf (step (onPort .sink [0x06000000]))).map (fun t => (t.sink.output, t.lastErr)) =
    some ([0x02000000], 0x00010602) := by decide

/-- R280, R300: a faulted block stops a port's turn and a reset clears it. -/
theorem test_fault_stops : faultOf (step { State.reset with fault := some .storageExhausted, agenda := [.turn .sink] }) =
    some (.stopped .storageExhausted) := by decide

theorem test_reset_clears : (nextOf (step
      { State.reset with fault := some .storageExhausted, policy := 2, agenda := [.host .reset] })).map
    (fun t => (t.fault, t.policy)) = some (none, 0) := by decide

/-- The reset state with no words is idle, and an incomplete command holds its port. -/
theorem test_idle : faultOf (step State.reset) = some .idle := by decide

theorem test_held : faultOf (step (onPort .producer [0x06000002])) = some .held := by decide

/-- One instruction placed by the host's hook is fetched by the next step. -/
theorem test_withFetchWord : (nextOf (step (State.reset.withFetchWord 32 0x0A000002))).map (fun t => t.sink.output) =
    some [2, 0, 0] := by decide

/-! ### Witnesses: concrete states and operands that meet each statement's hypotheses -/

/-- A state whose agenda asks a port that holds the given words. -/
def askedState (p : Port) (ws : List Word) : State := { onPort p ws with agenda := [.turn p] }

theorem witness_DecodeOfEncode : (Instr.enc 1 [0x3F800000]).WellFormed ∧ (Instr.dec 3 [0, 0]).WellFormed ∧
    (Instr.rsmp 1 1 2 [0]).WellFormed ∧ (Instr.tx 0 1 2 []).WellFormed ∧ (Instr.rx 1 1 2 [0]).WellFormed ∧
    (Instr.enq 2 [0, 1]).WellFormed ∧ Instr.clear.WellFormed ∧ (Instr.csrr 255).WellFormed ∧ (Instr.csrw 8 0).WellFormed ∧
    (Instr.drain 0xFFFFFF).WellFormed := by decide

theorem witness_EncodeOfDecode : decode .producer [0x09000006, 2, 5] = .command (.csrw 6 2) [5] ∧
    (Instr.csrw 6 2).WellFormed ∧ encode (.csrw 6 2) ++ [5] = [0x09000006, 2, 5] := by decide

theorem witness_UndefinedOpcodeRejected :
    (Asked .producer [] (askedState .producer [0, 5]) ∧ (portOf .producer (askedState .producer [0, 5])).input = [0, 5] ∧
      (0 : Word).extractLsb' 24 8 = 0x00#8) ∧
    (Asked .sink [] (askedState .sink [0x0B000000]) ∧ (portOf .sink (askedState .sink [0x0B000000])).input = [0x0B000000] ∧
      0x0B#8 ≤ (0x0B000000 : Word).extractLsb' 24 8) ∧
    0x0B#8 ≤ (0xFFFFFFFF : Word).extractLsb' 24 8 := by decide

theorem witness_ReservedBitsRejected :
    (Asked .producer [] (askedState .producer [0x07000001]) ∧ (0x07000001 : Word).extractLsb' 24 8 = 0x07#8 ∧
      (0x07000001 : Word).extractLsb' 0 24 ≠ 0) ∧
    (Asked .producer [] (askedState .producer [0x08000100]) ∧ (0x08000100 : Word).extractLsb' 24 8 = 0x08#8 ∧
      (0x08000100 : Word).extractLsb' 8 16 ≠ 0) ∧
    (Asked .producer [] (askedState .producer [0x09800000, 2]) ∧ (0x09800000 : Word).extractLsb' 24 8 = 0x09#8 ∧
      (0x09800000 : Word).extractLsb' 8 16 ≠ 0) := by decide

theorem witness_WrongPortRejected :
    (Asked .producer [] (askedState .producer [0x0A000000]) ∧ (0x0A000000 : Word).extractLsb' 24 8 = 0x0A#8) ∧
    (Asked .sink [] (askedState .sink [0x01000000]) ∧ 0x01#8 ≤ (0x01000000 : Word).extractLsb' 24 8 ∧
      (0x01000000 : Word).extractLsb' 24 8 ≤ 0x09#8) ∧
    (Asked .sink [] (askedState .sink [0x09000000]) ∧ 0x01#8 ≤ (0x09000000 : Word).extractLsb' 24 8 ∧
      (0x09000000 : Word).extractLsb' 24 8 ≤ 0x09#8) := by decide

theorem witness_CommandTakesItsWords :
    (decode .producer [0x02000001, 5] ≠ .incomplete ∧ (nextOf (runPort .producer (onPort .producer [0x02000001, 5]))).isSome) ∧
    (decode .sink [0x02000001] ≠ .incomplete ∧ (nextOf (runPort .sink (onPort .sink [0x02000001]))).isSome) := by
  decide +kernel

theorem witness_PcmWordLayout : [(0x40000001 : Word)].length = (1 + 1) / 2 ∧ 2 * 0 < 1 ∧ [(0 : Word)].length = (2 + 1) / 2 ∧
    2 * 0 + 1 < 2 ∧ 0 < (pack16 [1, 2, 3]).length := by decide

theorem witness_AssembledLinesAreWellFormed : (AsmLine.dec [-32768, 32767]).WellFormed ∧ (AsmLine.enq [0]).WellFormed := by
  decide

theorem witness_StepRunsTheDecodedCommand :
    (Asked .producer [] (askedState .producer [0x07000000]) ∧
      decode .producer (portOf .producer (askedState .producer [0x07000000])).input = .command .clear []) ∧
    ((onPort .sink [0x0A000001]).fault = none ∧ (onPort .sink [0x0A000001]).agenda = [] ∧
      decode .producer (portOf .producer (onPort .sink [0x0A000001])).input = .incomplete ∧
      decode .sink (portOf .sink (onPort .sink [0x0A000001])).input = .command (.drain 1) []) ∧
    (decode .producer (portOf .producer { onPort .sink [0x0A000001] with
        producer := { input := [0x07000000], pos := 0, output := [] } }).input ≠ .incomplete ∧
      decode .sink (portOf .sink { onPort .sink [0x0A000001] with
        producer := { input := [0x07000000], pos := 0, output := [] } }).input ≠ .incomplete) := by decide

theorem witness_SinkNeverWaits :
    (askedState .sink [0x0A000080]).fault = none ∧ (askedState .sink [0x0A000080]).sink.input = [0x0A#8 ++ 128#24] ∧
    (askedState .sink [0x0A000080]).agenda = [.turn .sink] ∧ (onPort .sink [0x0A000080]).agenda = [] ∧
    decode .producer (onPort .sink [0x0A000080]).producer.input = .incomplete := by decide

theorem witness_HeldPortTakesNoStep :
    (Asked .producer [] (askedState .producer [0x06000001]) ∧
      decode .producer (portOf .producer (askedState .producer [0x06000001])).input = .incomplete) ∧
    ((onPort .producer [0x06000001]).agenda = [] ∧
      decode .producer (onPort .producer [0x06000001]).producer.input = .incomplete ∧
      decode .sink (onPort .producer [0x06000001]).sink.input = .incomplete) ∧
    (State.reset.agenda = [] ∧ decode .producer State.reset.producer.input = .incomplete ∧
      decode .sink State.reset.sink.input = .incomplete) := by decide

theorem witness_ResetFromAnyState :
    ({ State.reset with fault := some .resampleIndexGuard, agenda := [.host .reset] } : State).agenda = [.host .reset] ∧
    (nextOf (step { State.reset with fault := some .resampleIndexGuard, agenda := [.host .reset] })).map State.fault =
      some none := by decide

theorem witness_HostSuppliesAndReads :
    ({ State.reset with agenda := [.host (.supply .sink [0x0A000001])] } : State).agenda =
      [.host (.supply .sink [0x0A000001])] ∧
    (portOf .producer ({ State.reset with
        producer := { input := [], pos := 0, output := [7, 8] }
        agenda := [.host (.read .producer)] } : State)).output = [7, 8] := by decide

/-- The value of 0.5. -/
theorem value_half : finiteValue? (f32 0x3F000000) = some (1 / 2) := by
  rw [show f32 0x3F000000 = .fin false 8388608 (-24) by decide +kernel]
  norm_num [finiteValue?, signed]

theorem witness_EncodeIsTruncatedProduct : f32 0x7FC00000 = .nan ∧ f32 0x7F800000 = .inf false ∧
    f32 0xFF800000 = .inf true ∧ finiteValue? (f32 0x3F000000) = some (1 / 2) :=
  ⟨by decide, by decide, by decide, value_half⟩

theorem witness_DecodeIsExactQuotient : (-32768 : Int) ≤ -32768 ∧ (-32768 : Int) < 32767 ∧ (32767 : Int) ≤ 32767 ∧
    finiteValue? (f32 (decodeSample (-32768))) = some (-1) ∧
    finiteValue? (f32 (decodeSample 32767)) = some (32767 / 32768) := by
  refine ⟨by decide, by decide, by decide, ?_, ?_⟩
  · rw [show f32 (decodeSample (-32768)) = .fin true 8388608 (-23) by decide +kernel]
    norm_num [finiteValue?, signed]
  · rw [show f32 (decodeSample 32767) = .fin false 16776704 (-24) by decide +kernel]
    norm_num [finiteValue?, signed]

theorem witness_DecodeThenEncode : (-32768 : Int) ≤ 0 ∧ (0 : Int) ≤ 32767 ∧ (-32768 : Int) ≤ 1 ∧ (1 : Int) ≤ 32767 := by decide

theorem witness_EncodeThenDecodeBounds : finiteValue? (f32 0x3F000000) = some (1 / 2) ∧ (-1 : ℚ) ≤ 1 / 2 ∧ (1 / 2 : ℚ) ≤ 1 :=
  ⟨value_half, by norm_num, by norm_num⟩

theorem witness_EncCommand : (Instr.enc 3 [0x3F000000, 0xBF000000, 0x40000000]).WellFormed ∧
    isNaNPattern 0xFFC00001 = true := by decide

theorem witness_DecCommand : (Instr.dec 3 [0x0002FFFF, 0x00004000]).WellFormed ∧
    (3 : BitVec 24).toNat = 2 * [(0x0002FFFF : Word)].length + 1 := by decide

theorem witness_RoundingIsToNearestEven : (binary32 = binary32 ∨ binary32 = binary64) ∧ 0 < 1 ∧ 0 < 3 ∧
    representable binary32 1 (-149) := by decide

theorem witness_OperationsRoundExactValuesOnce : finiteValue? (.fin false 1 0) = some 1 ∧
    finiteValue? (.fin true 1 0) = some (-1) ∧ (1 : ℚ) + 1 ≠ 0 ∧ (1 : ℚ) + -1 = 0 ∧ (1 : ℚ) - -1 ≠ 0 ∧ (1 : ℚ) - 1 = 0 ∧
    (-1 : ℚ) ≠ 0 ∧ finiteValue? (.fin true 0 3) = some 0 ∧ (0 : ℚ) * 1 = 0 ∧ (0 : ℚ) + 0 = 0 ∧ (0 : ℚ) - 0 = 0 := by
  refine ⟨?_, ?_, ?_, ?_, ?_, ?_, ?_, ?_, ?_, ?_, ?_⟩ <;> norm_num [finiteValue?, signed]

/-- R13's listed facts: products of zeros, `-0.0 + +0.0`, `inf * 0`, `inf + -inf`. -/
theorem test_float_special : fmul (.fin true 0 0) (.fin false 0 0) = .fin true 0 (-1074) ∧
    fmul (.fin true 0 0) (.fin true 3 0) = .fin false 0 (-1074) ∧
    fadd (.fin true 0 0) (.fin false 0 0) = .fin false 0 (-1074) ∧ fmul (.inf false) (.fin false 0 0) = .nan ∧
    fadd (.inf false) (.inf true) = .nan := by decide

theorem witness_OutputLengthRule : (3 : Word) ≠ 0 ∧ (13 : Word) ≠ 0 ∧ (3 : Word) ≠ 13 ∧ 27 ≤ countMax ∧
    outLen [(0x3F000000 : Word)].length 2 1 = 0 ∧ outLen [(0x3F000000 : Word), 0].length 2 1 = 1 := by decide +kernel

/-- The upsampling of W2. -/
theorem resample_w2 : resample [0, 0x3F800000] 1 2 = some [0, 0x3F000000, 0x3F800000, 0x3F800000] := by decide +kernel

theorem outLen_w2 : outLen 2 1 2 = 4 := by decide +kernel

theorem witness_InterpolationFormula : (1 : Word) ≠ 0 ∧ (2 : Word) ≠ 0 ∧ (1 : Word) ≠ 2 ∧ 3 < outLen 2 1 2 :=
  ⟨by decide, by decide, by decide, by rw [outLen_w2]; decide⟩

theorem witness_NaNSamplesAreAnyNaN : isNaNPattern 0x7F800001 = true ∧ isNaNPattern 0xFFFFFFFF = true ∧ (5 : Word) ≠ 0 := by
  decide

theorem witness_IndexGuardUnreachable : (1 : Word) ≠ 0 ∧ (2 : Word) ≠ 0 ∧ [(0 : Word), 0x3F800000].length ≤ countMax ∧
    outLen [(0 : Word), 0x3F800000].length 1 2 ≤ countMax :=
  ⟨by decide, by decide, by decide, by show outLen 2 1 2 ≤ countMax; rw [outLen_w2]; decide⟩

theorem witness_InterpolationNeverOvershoots : (∀ w ∈ [(0x3F000000 : Word)], ∃ v, finiteValue? (f32 w) = some v) ∧
    outLen 1 1 2 ≤ countMax ∧ resample [0x3F000000] 1 2 = some [0x3F000000, 0x3F000000] :=
  ⟨fun w hw => ⟨1 / 2, by rw [List.mem_singleton.mp hw]; exact value_half⟩, by decide +kernel, by decide +kernel⟩

theorem witness_ExactHitCopiesTheSample : finiteValue? (samplePos (rateRatio 1 2) 2) = some ((1 : ℕ) : ℚ) ∧
    1 < [(0 : Word), 0x3F000000].length ∧ f32 0x3F000000 ≠ .nan ∧ finiteValue? (f32 0x3F000000) = some (1 / 2) := by
  refine ⟨?_, by decide, by decide, value_half⟩
  rw [show samplePos (rateRatio 1 2) 2 = .fin false 4503599627370496 (-52) by decide +kernel]
  norm_num [finiteValue?, signed]

/-- The last sample of two, met exactly by output 2 and passed by output 3. -/
theorem witness_ExactHitAtTheLastSample : floorNat (samplePos (rateRatio 1 2) 2) = 1 ∧
    floorNat (samplePos (rateRatio 1 2) 3) = 1 ∧ [(0 : Word), 0x7F800000].length = 1 + 1 ∧ f32 0x7F800000 = .inf false ∧
    finiteValue? (samplePos (rateRatio 1 2) 3) ≠ some ((1 : ℕ) : ℚ) := by
  refine ⟨by decide +kernel, by decide +kernel, rfl, by decide, ?_⟩
  rw [show samplePos (rateRatio 1 2) 3 = .fin false 6755399441055744 (-52) by decide +kernel]
  norm_num [finiteValue?, signed]

theorem witness_ZeroRateRejected : ((0 : Word) = 0 ∨ (0 : Word) = 0) ∧ ((0 : Word) = 0 ∨ (5 : Word) = 0) ∧
    ((5 : Word) = 0 ∨ (0 : Word) = 0) := by decide

theorem witness_TooLongResultRejected : (1 : Word) ≠ 0 ∧ (0x01000000 : Word) ≠ 0 ∧
    16777215 < outLen [(0 : Word)].length 1 0x01000000 ∧ [(0 : Word)].length = ((1 : BitVec 24).toNat + 1) / 2 ∧
    16777215 < outLen (1 : BitVec 24).toNat 1 0x01000000 := by decide +kernel

theorem witness_EqualRatesCopyTheInput : (5 : Word) ≠ 0 ∧ (Instr.rsmp 1 5 5 [0x7FC00001]).WellFormed := by decide

theorem witness_RsmpAndTxRespond : outLen [(0 : Word), 0x3F800000].length 1 2 ≤ 16777215 ∧
    resample [0, 0x3F800000] 1 2 = some [0, 0x3F000000, 0x3F800000, 0x3F800000] :=
  ⟨by show outLen 2 1 2 ≤ 16777215; rw [outLen_w2]; decide, resample_w2⟩

/-- 2.9: TX 5, 5, [0.5, NaN, -2.0]. -/
theorem test_tx_nan : answer .producer (onPort .producer [0x04000003, 5, 5, 0x3F000000, 0x7FC00000, 0xC0000000]) =
    some [3, 0x00003FFF, 0x00008000] := by decide +kernel

/-- A NaN resampled with one draw for every sample, and an RSMP of it from two different states. -/
theorem witness_TxIgnoresNaNDraws : (resampleWith (fun _ => default) [0x7FC00000, 0] 1 2).isSome ∧
    outLen [(0x7FC00000 : Word), 0].length 1 2 ≤ 16777215 ∧
    (nextOf (exec (.rsmp 2 1 2 [0x7FC00000, 0]) State.reset)).isSome ∧
    (nextOf (exec (.rsmp 2 1 2 [0x7FC00000, 0]) (onPort .producer [5]))).isSome ∧
    csrOfIndex? 2 = some .underruns ∧ csrValue .underruns State.reset = csrValue .underruns (onPort .producer [5]) :=
  ⟨by decide +kernel, by decide +kernel, by decide +kernel, by decide +kernel, by decide, by decide⟩

/-- The decoded and resampled message of 2.9. -/
theorem resample_rx : resample ((pcmSamples 2 [0x40000000]).map decodeSample) 1 2 =
    some [0, 0x3E800000, 0x3F000000, 0x3F000000] := by decide +kernel

theorem witness_RxEnqueuesTheResampledChunk : (Instr.rx 2 1 2 [0x40000000]).WellFormed ∧ outLen 2 1 2 ≤ 16777215 ∧
    resample ((pcmSamples 2 [0x40000000]).map decodeSample) 1 2 =
      some [0, 0x3E800000, 0x3F000000, 0x3F000000] ∧
    policyMode State.reset.policy = 0 ∧
    queued State.reset.queue + 4 ≤ ({ State.reset with policy := 2 } : State).maxQueued.toNat ∧
    outgrows State.reset.params State.reset.queue 4 = false :=
  ⟨by decide, by rw [outLen_w2]; decide, resample_rx, by decide, by decide, by decide⟩

theorem witness_RxEnqueuesAsEnqDoes :
    (nextOf (exec (.enq 4 [0, 0x3E800000, 0x3F000000, 0x3F000000]) { State.reset with policy := 1, maxQueued := 2 })).map
      State.fault = some none ∧
    (nextOf (exec (.enq 4 [0, 0x3E800000, 0x3F000000, 0x3F000000]) { State.reset with
      params := { storageCap := some 3, chunkCap := none } })).map State.fault = some (some .storageExhausted) ∧
    (nextOf (exec (.rx 2 1 2 [0x40000000]) { State.reset with policy := 2, maxQueued := 2, lastErr := 0x301 })).map
      (fun t => (t.queue, t.dropped, t.lastErr, t.producer.output)) =
      some ([{ data := [0, 0x3E800000], cursor := 0 }], 2, 0x301, [4]) := by
  decide +kernel

theorem witness_EnqAppendsTheChunk : (Instr.enq 2 [1, 2]).WellFormed ∧ policyMode State.reset.policy = 0 ∧
    outgrows State.reset.params State.reset.queue 2 = false ∧
    (policyMode 2 ≠ 0 ∧ queued State.reset.queue + 2 ≤ ({ State.reset with policy := 2, maxQueued := 2 } : State).maxQueued.toNat) ∧
    outgrows { storageCap := some 2, chunkCap := some 1 } [] 2 = false := by decide

theorem witness_DropNewestKeepsThePrefix : (Instr.enq 3 [4, 5, 6]).WellFormed ∧ policyMode 2 = 2 ∧
    (3 : Word).toNat < queued [{ data := [1, 2], cursor := 0 }] + 3 ∧
    outgrows State.reset.params [{ data := [1, 2], cursor := 0 }] 1 = false ∧
    (1 : Word).toNat < queued [{ data := [1, 2], cursor := 0 }] + 0 := by decide

theorem witness_DropOldestKeepsTheNewest : (Instr.enq 3 [4, 5, 6]).WellFormed ∧ policyMode 1 = 1 ∧
    2 = queued [{ data := [1, 2], cursor := 0 }] + 3 - (3 : Word).toNat ∧
    2 = min 2 (queued [{ data := [1, 2], cursor := 0 }]) ∧
    outgrows State.reset.params (discardOldest 2 [{ data := [1, 2], cursor := 0 }]) (3 - (2 - 2)) = false ∧
    ((2 : Nat) - 0 ≤ 2 ∧ (1 : Nat) < 2 - 0) := by decide

theorem witness_StorageLimitFaults :
    (∃ k, (some 3 : Option Nat) = some k ∧ k < queued [{ data := [1, 2], cursor := 0 }] + [(3 : Word), 4].length) ∧
    (∃ k, (some 2 : Option Nat) = some k ∧ k < [({ data := [], cursor := 0 } : Chunk), { data := [], cursor := 0 }].length + 1) ∧
    (nextOf (exec (.enq 2 [3, 4]) State.reset)).isSome :=
  ⟨⟨3, rfl, by decide⟩, ⟨2, rfl, by decide⟩, by decide +kernel⟩

theorem witness_PartialConsumption :
    (withQueue [{ data := [1, 2, 3], cursor := 1 }] .sink []).queue = [{ data := [1, 2, 3], cursor := 1 }] ∧
    (1 : BitVec 24).toNat < queued [] + ([(1 : Word), 2, 3].length - 1) ∧
    (withQueue [{ data := [9, 1], cursor := 1 }, { data := [], cursor := 0 }, { data := [2, 3, 4], cursor := 0 }] .sink []).queue =
      [{ data := [9, 1], cursor := 1 }, { data := [], cursor := 0 }] ++ [{ data := [2, 3, 4], cursor := 0 }] ∧
    queued [{ data := [9, 1], cursor := 1 }, { data := [], cursor := 0 }] < (2 : BitVec 24).toNat ∧
    (3 : BitVec 24).toNat < queued [{ data := [9, 1], cursor := 1 }, { data := [], cursor := 0 }] + ([(2 : Word), 3, 4].length - 0) := by
  decide

theorem witness_ZeroFrameAndUnderrun : queued [{ data := [1], cursor := 0 }] < (2 : BitVec 24).toNat ∧
    (nextOf (exec (.drain 2) (withQueue [{ data := [1], cursor := 0 }] .sink []))).isSome ∧
    (withQueue [{ data := [5], cursor := 0 }, { data := [6, 7], cursor := 1 }, { data := [], cursor := 0 }] .sink []).queue =
      [{ data := [5], cursor := 0 }] ++ { data := [6, 7], cursor := 1 } :: [{ data := [], cursor := 0 }] ∧
    1 < [(6 : Word), 7].length ∧ (2 : BitVec 24).toNat = queued [{ data := [5], cursor := 0 }] + ([(6 : Word), 7].length - 1) := by
  decide

theorem witness_AdapterKeepsRunning : (onPort .sink [0x06000000]).fault = none ∧ (onPort .sink [0x0A000001]).fault = none ∧
    State.reset.fault = none := by decide

theorem witness_ClearEmptiesTheQueue :
    (nextOf (exec .clear (withQueue [{ data := [1], cursor := 0 }] .producer []))).isSome := by decide

theorem witness_FifoThroughWindows : State.reset.queue = [] ∧ policyMode State.reset.policy = 0 ∧
    State.reset.params.storageCap = none ∧ State.reset.params.chunkCap = none ∧
    (∀ c ∈ [[(1 : Word), 2, 3], [4], [5, 6]], c.length ≤ countMax) ∧
    (([2, 3, 1] : List (BitVec 24)).map (fun n => n.toNat)).sum ≤ [[(1 : Word), 2, 3], [4], [5, 6]].flatten.length := by decide

theorem witness_ChunkingIsHiddenFromDrains :
    pending [{ data := [9, 1], cursor := 1 }, { data := [2], cursor := 0 }] = pending [{ data := [1, 2], cursor := 0 }] := by decide

theorem witness_ChunkDataIsNeverChanged :
    (nextOf (exec (.drain 1) (withQueue [{ data := [1, 2], cursor := 0 }] .sink []))).map State.queue =
      some [{ data := [1, 2], cursor := 1 }] ∧
    (nextOf (exec (.enq 1 [7]) State.reset)).map State.queue = some [{ data := [7], cursor := 0 }] := by decide +kernel

theorem witness_CsrrCommand : 0x08#8 < 0x09#8 ∧ 0x08#8 < 0xFF#8 := by decide

theorem witness_CsrwCommand : 2#32 < 3#32 ∧ 3#32 ≤ 3#32 ∧ 0x1FFFF#32 < 0x20000#32 ∧ 0x20000#32 ≤ 0x20000#32 ∧
    ((0x09 : BitVec 8) = 0x00 ∨ (0x09 : BitVec 8) = 0x01 ∨ 0x08#8 < (0x09 : BitVec 8)) ∧
    (nextOf (exec (.csrw 6 2) State.reset)).isSome ∧
    (nextOf (exec (.csrw 8 0) { State.reset with lastErr := 0x00000301 })).map State.lastErr = some 0 := by decide

theorem witness_PolicyWritesDropNothing : (nextOf (exec (.csrw 7 0) State.reset)).isSome ∧
    (nextOf (runPort .sink (onPort .sink [0x0A000001]))).isSome ∧
    (instrOp (.drain 1) ≠ .enq ∧ instrOp (.drain 1) ≠ .rx ∧ instrOp (.drain 1) ≠ .csrr ∧ instrOp (.drain 1) ≠ .csrw ∧
      (nextOf (exec (.drain 1) State.reset)).isSome) := by decide

theorem witness_OneResponseOfTheTabledShape : (Instr.rsmp 2 1 2 [0, 0x3F800000]).WellFormed ∧
    (nextOf (exec (.rsmp 2 1 2 [0, 0x3F800000]) State.reset)).map State.fault = some none ∧
    (nextOf (exec (.csrr 9) State.reset)).map State.fault = some none := by decide +kernel

theorem witness_RejectionIsPrecise :
    (nextOf (runPort .producer (onPort .producer [0x03000000, 0, 5]))).map (fun t => t.producer.output) = some [0x01000000] ∧
    (nextOf (runPort .sink (onPort .sink [0x07000000]))).map (fun t => t.sink.output) = some [0x02000000] ∧
    (0x01000000 : Word).extractLsb' 24 8 ≠ 0#8 := by decide +kernel

/-- The status of the first response word one port step writes from reset. -/
def statusOf (p : Port) (ws : List Word) : Option (BitVec 8) :=
  (nextOf (runPort p (onPort p ws))).bind (fun t => (portOf p t).output.head?.map (fun w => w.extractLsb' 24 8))

/-- Both sides of every boundary of R270's causes. -/
theorem witness_StatusCodesAndTheirCauses :
    statusOf .producer [0x0B000000] = some 2 ∧ statusOf .sink [0x09000000] = some 2 ∧ statusOf .sink [0x0A000000] = some 0 ∧
    statusOf .producer [0x08000009] = some 3 ∧ statusOf .producer [0x08000008] = some 0 ∧
    statusOf .producer [0x09000009, 0] = some 3 ∧ statusOf .producer [0x09000001, 0] = some 3 ∧
    statusOf .producer [0x09000002, 0] = some 0 ∧ statusOf .producer [0x09000006, 3] = some 3 ∧
    statusOf .producer [0x09000006, 2] = some 0 ∧ statusOf .producer [0x09000008, 0x20000] = some 3 ∧
    statusOf .producer [0x09000008, 0x1FFFF] = some 0 ∧ statusOf .producer [0x07000000] = some 0 := by decide

theorem witness_StatusCodesOfResampling :
    statusOf .producer [0x03000000, 0, 5] = some 1 ∧ statusOf .producer [0x04000000, 5, 0] = some 1 ∧
    statusOf .producer [0x05000000, 0, 0] = some 1 ∧ statusOf .producer [0x04000001, 1, 0x01000000, 0] = some 4 ∧
    outLen 1 1 0x00FFFFFF = 16777215 ∧ statusOf .producer [0x03000001, 1, 1, 0] = some 0 := by decide +kernel

theorem witness_ModelFaultsAndTheirCauses :
    (nextOf (exec (.enq 1 [7]) { State.reset with params := { storageCap := some 0, chunkCap := none } })).map State.fault =
      some (some .storageExhausted) ∧
    (nextOf (exec (.rx 1 2 2 [7]) { State.reset with params := { storageCap := none, chunkCap := some 0 } })).map State.fault =
      some (some .storageExhausted) ∧
    ({ State.reset with fault := some .resampleIndexGuard } : State).agenda = [] ∧
    ({ State.reset with fault := some .resampleIndexGuard, agenda := [.turn .sink] } : State).agenda = [.turn .sink] ∧
    (nextOf (step { State.reset with fault := some .resampleIndexGuard, agenda := [.host .reset] })).map State.fault =
      some none := by decide +kernel

theorem witness_ExecFrame : (nextOf (exec .clear State.reset)).isSome ∧ instrOp .clear ≠ .drain ∧
    (nextOf (exec (.rsmp 1 2 2 [7]) State.reset)).isSome := by decide +kernel

theorem witness_StepKeepsTheInvariant : Inv (onPort .sink [0x0A000001]) ∧
    (nextOf (step (onPort .sink [0x0A000001]))).isSome := by decide

end Sys2Proof.Tests
end

section
/-! PROOFS. The reset state (10_state.md R44): what the gauges read from an empty queue, and the ports. -/

namespace Sys2Proof.Machine

@[simp] theorem saturate32_zero : saturate32 0 = 0 := rfl

/-- R30: QSAMPLES counts the pending samples, so it reads 0 from an empty queue, whatever the rest of the state. -/
theorem csrValue_qsamples_of_queue_eq_nil {s : State} (h : s.queue = []) : csrValue .qsamples s = 0 := by
  simp [csrValue, h, queued]

/-- R31: QCHUNKS counts the chunks, so it reads 0 from an empty queue, whatever the rest of the state. -/
theorem csrValue_qchunks_of_queue_eq_nil {s : State} (h : s.queue = []) : csrValue .qchunks s = 0 := by
  simp [csrValue, h]

@[simp] theorem State.reset_queue : State.reset.queue = [] := rfl

@[simp] theorem portOf_reset (p : Port) : portOf p State.reset = PortState.reset := by cases p <;> rfl

/-- Settles O15: the gauges follow from the empty queue, the streams from the reset port; every other piece is a field of
`State.reset`. -/
theorem resetStateValues : Obligations.ResetStateValues := by
  have hports (p : Port) : (portOf p State.reset).input = [] ∧ (portOf p State.reset).pos = 0 ∧
      (portOf p State.reset).output = [] := by
    rw [portOf_reset]
    exact ⟨rfl, rfl, rfl⟩
  exact ⟨State.reset_queue, csrValue_qsamples_of_queue_eq_nil State.reset_queue,
    csrValue_qchunks_of_queue_eq_nil State.reset_queue, rfl, rfl, rfl, rfl, rfl, rfl, rfl, rfl, hports⟩

end Sys2Proof.Machine
end

section
/-! PROOFS. PCM16 samples in words (20_memory.md R65): the halves of a word, `pack16` word by word, `halves` half by half. -/

namespace Sys2Proof.Machine

@[simp] theorem lowHalf_append (b a : Half) : lowHalf (b ++ a) = a := BitVec.extractLsb'_append_eq_right

@[simp] theorem highHalf_append (b a : Half) : highHalf (b ++ a) = b := BitVec.extractLsb'_append_eq_left

theorem pack16_length (hs : List Half) : (pack16 hs).length = (hs.length + 1) / 2 := by
  induction hs using pack16.induct with
  | case1 => rfl
  | case2 a => simp [pack16]
  | case3 a b hs ih => simp only [pack16, List.length_cons, ih]; omega

/-- Past the last sample both sides are zero, so no bound on `k` is asked. -/
theorem pack16_getD (hs : List Half) (k : Nat) :
    (pack16 hs).getD k 0 = hs.getD (2 * k + 1) 0 ++ hs.getD (2 * k) 0 := by
  induction hs using pack16.induct generalizing k with
  | case1 => simp [pack16]
  | case2 a => cases k <;> simp [pack16, Nat.mul_succ]
  | case3 a b hs ih =>
    cases k with
    | zero => rfl
    | succ k => simpa only [pack16, Nat.mul_succ, List.getD_cons_succ] using ih k

@[simp] theorem halves_length (ws : List Word) : (halves ws).length = 2 * ws.length := by
  induction ws with
  | nil => rfl
  | cons w ws ih => simp only [halves, List.length_cons, ih]; omega

/-- Past the last word both sides of each equation are zero, so no bound on `k` is asked. -/
theorem halves_getD (ws : List Word) (k : Nat) :
    (halves ws).getD (2 * k) 0 = lowHalf (ws.getD k 0) ∧ (halves ws).getD (2 * k + 1) 0 = highHalf (ws.getD k 0) := by
  induction ws generalizing k with
  | nil => simp [halves, lowHalf, highHalf]
  | cons w ws ih =>
    cases k with
    | zero => exact ⟨rfl, rfl⟩
    | succ k => simpa only [halves, Nat.mul_succ, List.getD_cons_succ] using ih k

theorem pcmSamples_length {n : Nat} {ws : List Word} (h : ws.length = pcmWords n) : (pcmSamples n ws).length = n := by
  simp only [pcmSamples, List.length_map, List.length_take, halves_length, h, pcmWords]
  omega

theorem pcmSamples_getD {n j : Nat} (ws : List Word) (h : j < n) :
    (pcmSamples n ws).getD j 0 = int16 ((halves ws).getD j 0) := by
  have hzero : (0 : Int) = int16 0 := rfl
  rw [pcmSamples, hzero, List.getD_map, List.getD_eq_getElem?_getD, List.getElem?_take_of_lt h,
    ← List.getD_eq_getElem?_getD]

/-- Settles O10: packed word k is the append of samples 2k+1 and 2k, and sample j read back is half j of the words, for any
words: nothing is asked of the pad half. -/
theorem pcmWordLayout : Obligations.PcmWordLayout := by
  refine ⟨fun hs => ⟨pack16_length hs, fun k _ => ?_⟩, fun n ws hlen => ⟨pcmSamples_length hlen, fun k => ?_⟩⟩
  · rw [pack16_getD]
    exact ⟨lowHalf_append _ _, highHalf_append _ _⟩
  · obtain ⟨hlow, hhigh⟩ := halves_getD ws k
    exact ⟨fun hk => (pcmSamples_getD ws hk).trans (congrArg int16 hlow),
      fun hk => (pcmSamples_getD ws hk).trans (congrArg int16 hhigh)⟩

end Sys2Proof.Machine
end

section
/-! PROOFS. Headers that are no command (30_encoding.md R100 to R102): the step that rejects one, and the three reasons, each
read off what an accepted header says (`checkHeader_ok`). -/

namespace Sys2Proof.Machine

/-- A decoder that accepts no opcode for a header answers that it is illegal, whatever follows it. -/
theorem decode_of_not_ok {p : Port} {h : Word} (hbad : ∀ op, checkHeader p h ≠ .ok op) (rest : List Word) :
    ∃ e, decode p (h :: rest) = .illegal e h rest := by
  cases hc : checkHeader p h with
  | error e => exact ⟨e, by simp only [decode, hc]⟩
  | ok op => exact absurd hc (hbad op)

/-- R274, R275: taking a command's words and rejecting it is one answer of one word, with LAST_ERR written. -/
theorem reject_takeWords (p : Port) (c : BitVec 8) (st : Status) (k : Nat) (rest : List Word) (s : State) :
    reject p c st (takeWords p k rest s) =
      answered p k rest [responseHeader st 0] { s with lastErr := errorWord p c st } := by
  cases p <;> rfl

/-- R106: a port asked to move rejects a header its checks accept for no opcode, and takes that word alone. -/
theorem step_of_not_ok {p : Port} {later : List Event} {s : State} {h : Word} {rest : List Word} (ha : Asked p later s)
    (hin : (portOf p s).input = h :: rest) (hbad : ∀ op, checkHeader p h ≠ .ok op) :
    step s = .next (answered p 1 rest [responseHeader .illegalCommand 0]
      { s with agenda := later, lastErr := errorWord p (headerOp h) .illegalCommand }) := by
  obtain ⟨hf, hag⟩ := ha
  obtain ⟨e, hd⟩ := decode_of_not_ok hbad rest
  have hfront : decode p (portOf p { s with agenda := later }).input = .illegal e h rest := by
    rw [portOf_withAgenda, hin, hd]
  rw [step_of_turn hag, runPort_of_illegal (s := { s with agenda := later }) hf hfront, reject_takeWords]

/-- R93, R100: the defined opcodes are 0x01 to 0x0A. -/
theorem opCode_bounds (op : Op) : 0x01#8 ≤ opCode op ∧ opCode op ≤ 0x0A#8 := by
  cases op <;> decide

theorem opCode_injective : Function.Injective opCode := by
  intro a b hab
  simpa using congrArg opOfCode? hab

/-- R93: DRAIN alone belongs to port S. -/
theorem opPort_eq_sink {op : Op} : opPort op = .sink ↔ op = .drain := by
  cases op <;> decide

/-- Settles O4: an accepted header has a defined opcode. -/
theorem undefinedOpcodeRejected : Obligations.UndefinedOpcodeRejected := by
  refine ⟨fun p later s h rest ha hin hundef => step_of_not_ok ha hin fun op hok => ?_, by decide⟩
  obtain ⟨hop, -, -⟩ := checkHeader_ok hok
  obtain ⟨hlo, hhi⟩ := opCode_bounds op
  rw [← hop, headerOp] at hlo hhi
  rcases hundef with hzero | hhigh
  · rw [hzero] at hlo
    exact absurd hlo (by decide)
  · exact absurd (BitVec.le_trans hhigh hhi) (by decide)

/-- Settles O5: an accepted header sets no bit its format reserves. -/
theorem reservedBitsRejected : Obligations.ReservedBitsRejected := by
  intro p later s h rest ha hin hres
  refine step_of_not_ok ha hin fun op hok => ?_
  obtain ⟨hop, hclean, -⟩ := checkHeader_ok hok
  rcases hres with ⟨hcode, hbits⟩ | ⟨hcode | hcode, hbits⟩
  · obtain rfl : op = .clear := opCode_injective (hop.symm.trans hcode)
    exact Bool.eq_false_iff.mp hclean (bne_iff_ne.mpr hbits)
  · obtain rfl : op = .csrr := opCode_injective (hop.symm.trans hcode)
    exact Bool.eq_false_iff.mp hclean (bne_iff_ne.mpr hbits)
  · obtain rfl : op = .csrw := opCode_injective (hop.symm.trans hcode)
    exact Bool.eq_false_iff.mp hclean (bne_iff_ne.mpr hbits)

/-- Settles O6: an accepted header stands on the port of its opcode. -/
theorem wrongPortRejected : Obligations.WrongPortRejected := by
  intro p later s h rest ha hin hwrong
  refine step_of_not_ok ha hin fun op hok => ?_
  obtain ⟨hop, -, hport⟩ := checkHeader_ok hok
  rcases hwrong with ⟨rfl, hcode⟩ | ⟨rfl, -, hcode⟩
  · obtain rfl : op = .drain := opCode_injective (hop.symm.trans hcode)
    cases hport
  · rw [← headerOp, hop, opPort_eq_sink.mp hport] at hcode
    exact absurd hcode (by decide)

end Sys2Proof.Machine
end

section
/-! PROOFS. What the execution of a command can answer (30_encoding.md R104, R105): a rejection, a model fault without a
response, or one OK response of the shape the table gives; no command moves an input stream, or the other port. -/

namespace Sys2Proof.Machine

/-! ### The ports beside the answer -/

/-- Both ports stand as before. -/
def SamePorts (s t : State) : Prop := ∀ q, portOf q t = portOf q s

theorem samePorts_of_fields {s t : State} (hp : t.producer = s.producer) (hs : t.sink = s.sink) : SamePorts s t
  | .producer => hp
  | .sink => hs

theorem samePorts_refl (s : State) : SamePorts s s := fun _ => rfl

@[simp] theorem portOf_raiseFault (q : Port) (f : ModelFault) (s : State) : portOf q (raiseFault f s) = portOf q s := by
  cases q <;> rfl

theorem samePorts_drain (n : Nat) (s : State) : SamePorts s (drain n s).2 :=
  samePorts_of_fields (by simp [drain_spec]) (by simp [drain_spec])

theorem samePorts_csrWrite? {c : Csr} {v : Word} {s t : State} (h : csrWrite? c v s = some t) : SamePorts s t := by
  rcases csrWrite?_cases h with ⟨-, rfl⟩ | ⟨-, rfl⟩ | ⟨-, rfl⟩ | ⟨-, rfl⟩ | ⟨-, -, rfl⟩ | ⟨-, rfl⟩ | ⟨-, -, rfl⟩ <;>
    exact samePorts_of_fields rfl rfl

/-! ### The shared operations of the commands -/

/-- R191: no policy keeps more of a chunk than there is. -/
theorem overflowPlan_kept_length_le (mode : BitVec 2) (maxq t : Nat) (c : List Word) :
    (overflowPlan mode maxq t c).kept.length ≤ c.length := by
  obtain ⟨-, h⟩ | ⟨-, -, h⟩ | ⟨-, -, -, h⟩ := overflowPlan_cases mode maxq t c <;> simp [h]

theorem enqueue_exhausted {c : List Word} {s u : State} (h : enqueue c s = .exhausted u) :
    ∃ v, SamePorts s v ∧ u = raiseFault .storageExhausted v := by
  obtain ⟨-, he⟩ | ⟨-, he⟩ := enqueue_cases c s <;> rw [he] at h <;> cases h
  refine ⟨_, ?_, rfl⟩
  exact samePorts_of_fields rfl rfl

/-- R191: an accepted enqueue counts the samples of the chunk it leaves last in the queue. -/
theorem enqueue_accepted {c : List Word} {s u : State} {n : Nat} (h : enqueue c s = .accepted u n) :
    SamePorts s u ∧ n ≤ c.length ∧ ∃ d, u.queue.getLast? = some d ∧ d.data.length = n := by
  obtain ⟨-, he⟩ | ⟨-, he⟩ := enqueue_cases c s <;> rw [he] at h <;> cases h
  refine ⟨samePorts_of_fields (by simp) (by simp), overflowPlan_kept_length_le .., { data := _, cursor := 0 }, ?_, rfl⟩
  rw [countOverflow_queue, List.getLast?_concat]

theorem resampleChecked_rejected {rin rout : Word} {x : List Word} {st : Status}
    (h : resampleChecked rin rout x = .rejected st) : st ≠ .ok := by
  obtain ⟨-, hr⟩ | ⟨-, -, -, hr⟩ | ⟨-, -, -, -, hr⟩ | ⟨-, -, -, ys, -, hr⟩ := resampleChecked_cases rin rout x <;>
    rw [hr] at h <;> cases h <;> decide

/-- R162, R170: samples that pass the checks are M of them, and COUNT can carry M. -/
theorem resampleChecked_samples {rin rout : Word} {x ys : List Word} (h : resampleChecked rin rout x = .samples ys) :
    ys.length = outLen x.length rin rout ∧ (BitVec.ofNat 24 ys.length).toNat = ys.length := by
  obtain ⟨-, hr⟩ | ⟨-, -, -, hr⟩ | ⟨-, -, -, -, hr⟩ | ⟨-, -, hle, zs, hz, hr⟩ := resampleChecked_cases rin rout x <;>
    rw [hr] at h <;> cases h
  have hlen := length_resample hz
  have hlt : ys.length < 2 ^ 24 := by rw [hlen]; exact Nat.lt_succ_of_le hle
  exact ⟨hlen, by rw [BitVec.toNat_ofNat, Nat.mod_eq_of_lt hlt]⟩

theorem packSamples_length (xs : List Int) : (packSamples xs).length = (xs.length + 1) / 2 := by
  rw [packSamples, pack16_length, List.length_map]

/-! ### The answer of a command -/

/-- The table of R104: COUNT and payload of a command's OK response, which leaves the queue `q`. -/
def TabledShape (i : Instr) (q : List Chunk) (count : BitVec 24) (ws : List Word) : Prop :=
  match i with
  | .enc n _ => count = n ∧ ws.length = (n.toNat + 1) / 2
  | .dec n _ => count = n ∧ ws.length = n.toNat
  | .rsmp n rin rout _ => count.toNat = outLen n.toNat rin rout ∧ ws.length = outLen n.toNat rin rout
  | .tx n rin rout _ => count.toNat = outLen n.toNat rin rout ∧ ws.length = (outLen n.toNat rin rout + 1) / 2
  | .rx n rin rout _ => count.toNat = outLen n.toNat rin rout ∧ ws = []
  | .enq _ _ => ws = [] ∧ ∃ c, q.getLast? = some c ∧ c.data.length = count.toNat
  | .clear => count = 0 ∧ ws = []
  | .csrr _ => count = 1 ∧ ws.length = 1
  | .csrw _ _ => count = 0 ∧ ws = []
  | .drain n => count = n ∧ ws.length = n.toNat

/-- Everything a command can leave of a state: a rejection, a model fault, or its work on the rest of the state (`u`) and then
one OK response. Only the shape of the response asks that the command is well formed. -/
inductive Answer (i : Instr) (s : State) : State → Prop
  | rejected (st : Status) (hst : st ≠ .ok) : Answer i s (reject (instrPort i) (opCode (instrOp i)) st s)
  | faulted (f : ModelFault) (u : State) (hports : SamePorts s u) : Answer i s (raiseFault f u)
  | responded (n : Nat) (ws : List Word) (u : State) (hports : SamePorts s u)
      (hshape : i.WellFormed → TabledShape i u.queue (BitVec.ofNat 24 n) ws) :
      Answer i s (respond (instrPort i) .ok n ws u)

theorem execRsmp_answer {n : BitVec 24} {rin rout : Word} {ws : List Word} {s t : State}
    (h : execRsmp n rin rout ws s = .next t) : Answer (.rsmp n rin rout ws) s t := by
  unfold execRsmp at h
  split at h <;> cases h
  next st hr => exact .rejected st (resampleChecked_rejected hr)
  next => exact .faulted _ s (samePorts_refl s)
  next ys hr =>
    obtain ⟨hlen, hcount⟩ := resampleChecked_samples hr
    refine .responded _ ys s (samePorts_refl s) fun hwf => ?_
    rw [show ws.length = n.toNat from hwf] at hlen
    exact ⟨hcount.trans hlen, hlen⟩

theorem execTx_answer {n : BitVec 24} {rin rout : Word} {ws : List Word} {s t : State}
    (h : execTx n rin rout ws s = .next t) : Answer (.tx n rin rout ws) s t := by
  unfold execTx at h
  split at h <;> cases h
  next st hr => exact .rejected st (resampleChecked_rejected hr)
  next => exact .faulted _ s (samePorts_refl s)
  next ys hr =>
    obtain ⟨hlen, hcount⟩ := resampleChecked_samples hr
    refine .responded _ _ s (samePorts_refl s) fun hwf => ?_
    rw [show ws.length = n.toNat from hwf] at hlen
    exact ⟨hcount.trans hlen, by rw [packSamples_length, List.length_map, hlen]⟩

theorem execRx_answer {n : BitVec 24} {rin rout : Word} {ws : List Word} {s t : State}
    (h : execRx n rin rout ws s = .next t) : Answer (.rx n rin rout ws) s t := by
  unfold execRx at h
  split at h
  next st hr =>
    cases h
    exact .rejected st (resampleChecked_rejected hr)
  next =>
    cases h
    exact .faulted _ s (samePorts_refl s)
  next ys hr =>
    split at h <;> cases h
    next he =>
      obtain ⟨v, hv, rfl⟩ := enqueue_exhausted he
      exact .faulted _ v hv
    next u _ he =>
      obtain ⟨hports, -, -⟩ := enqueue_accepted he
      obtain ⟨hlen, hcount⟩ := resampleChecked_samples hr
      refine .responded _ [] u hports fun hwf => ?_
      rw [List.length_map, pcmSamples_length hwf] at hlen
      exact ⟨hcount.trans hlen, rfl⟩

theorem execEnq_answer {n : BitVec 24} {ws : List Word} {s t : State} (h : execEnq n ws s = .next t) :
    Answer (.enq n ws) s t := by
  unfold execEnq at h
  split at h <;> cases h
  next he =>
    obtain ⟨v, hv, rfl⟩ := enqueue_exhausted he
    exact .faulted _ v hv
  next u count he =>
    obtain ⟨hports, hle, d, hd, hlen⟩ := enqueue_accepted he
    refine .responded _ [] u hports fun hwf => ⟨rfl, d, hd, ?_⟩
    have hlt : count < 2 ^ 24 := (hle.trans_eq hwf).trans_lt n.isLt
    rw [hlen, BitVec.toNat_ofNat, Nat.mod_eq_of_lt hlt]

theorem execCsrr_answer {idx : BitVec 8} {s t : State} (h : execCsrr idx s = .next t) : Answer (.csrr idx) s t := by
  unfold execCsrr at h
  split at h <;> cases h
  · exact .rejected .illegalCsr (by decide)
  · exact .responded 1 _ s (samePorts_refl s) fun _ => ⟨rfl, rfl⟩

theorem execCsrw_answer {idx : BitVec 8} {v : Word} {s t : State} (h : execCsrw idx v s = .next t) :
    Answer (.csrw idx v) s t := by
  unfold execCsrw at h
  split at h
  · cases h
    exact .rejected .illegalCsr (by decide)
  · split at h <;> cases h
    · exact .rejected .illegalCsr (by decide)
    · next u hw => exact .responded 0 [] u (samePorts_csrWrite? hw) fun _ => ⟨rfl, rfl⟩

/-- Everything the execution of a command can answer. -/
theorem exec_answer {i : Instr} {s t : State} (h : exec i s = .next t) : Answer i s t := by
  cases i with
  | enc n ws =>
    cases h
    refine .responded n.toNat _ s (samePorts_refl s) fun hwf => ⟨by simp, ?_⟩
    rw [packSamples_length, List.length_map, show ws.length = n.toNat from hwf]
  | dec n ws =>
    cases h
    exact .responded n.toNat _ s (samePorts_refl s) fun hwf =>
      ⟨by simp, by rw [List.length_map, pcmSamples_length hwf]⟩
  | rsmp n rin rout ws => exact execRsmp_answer h
  | tx n rin rout ws => exact execTx_answer h
  | rx n rin rout ws => exact execRx_answer h
  | enq n ws => exact execEnq_answer h
  | clear =>
    cases h
    exact .responded 0 [] { s with queue := [] } (samePorts_of_fields rfl rfl) fun _ => ⟨rfl, rfl⟩
  | csrr idx => exact execCsrr_answer h
  | csrw idx v => exact execCsrw_answer h
  | drain n =>
    cases h
    exact .responded n.toNat _ _ (samePorts_drain n.toNat s) fun _ => ⟨by simp, length_drain n.toNat s⟩

theorem Answer.portOf_ne {i : Instr} {s t : State} {q : Port} (h : Answer i s t) (hq : q ≠ instrPort i) :
    portOf q t = portOf q s := by
  cases h with
  | rejected st hst => exact portOf_reject_ne _ q _ st s hq
  | faulted f u hports => rw [portOf_raiseFault, hports]
  | responded n ws u hports hshape => exact (portOf_respond_ne _ q _ n ws u hq).trans (hports q)

/-- R106: a command's words are taken before it executes; its execution takes none. -/
theorem Answer.input_pos {i : Instr} {s t : State} (h : Answer i s t) (q : Port) :
    (portOf q t).input = (portOf q s).input ∧ (portOf q t).pos = (portOf q s).pos := by
  by_cases hq : q = instrPort i
  · subst hq
    cases h with
    | rejected st hst => simp
    | faulted f u hports => simp [hports (instrPort i)]
    | responded n ws u hports hshape => simp [hports (instrPort i)]
  · rw [h.portOf_ne hq]
    exact ⟨rfl, rfl⟩

/-- R105, R270: the codes of the statuses other than OK. -/
theorem statusCode_le (st : Status) : statusCode st ≤ 0x04#8 := by cases st <;> decide

theorem statusCode_ne_zero {st : Status} (h : st ≠ .ok) : statusCode st ≠ 0 := by
  revert h
  cases st <;> decide

/-- Settles O54: of the answers of a command, a rejection is one header with COUNT 0, a fault is ruled out, and an OK response
has the shape of the table. -/
theorem oneResponseOfTheTabledShape : Obligations.OneResponseOfTheTabledShape := by
  intro i s t hwf _ hexec hfault
  have hans := exec_answer hexec
  have hother (q : Port) (hq : q ≠ instrPort i) : (portOf q t).output = (portOf q s).output := by
    rw [hans.portOf_ne hq]
  cases hans with
  | rejected st hst =>
    exact ⟨statusCode st, 0, [], by rw [portOf_reject]; rfl, hother, fun _ => ⟨statusCode_le st, rfl, rfl⟩,
      fun hzero => absurd hzero (statusCode_ne_zero hst)⟩
  | faulted f u hports => cases hfault
  | responded n ws u hports hshape =>
    refine ⟨0, BitVec.ofNat 24 n, ws, by rw [portOf_respond, hports]; rfl, hother, fun hne => absurd rfl hne, fun _ => ?_⟩
    rw [respond_queue]
    cases i <;> exact hshape hwf

end Sys2Proof.Machine
end

section
/-! PROOFS. The words a command takes (30_encoding.md R95): the length of an assembled command follows from its header, and no
execution takes more. -/

namespace Sys2Proof.Machine

@[simp] theorem instrOp_assemble (op : Op) (h : Word) (ops : List Word) : instrOp (assemble op h ops) = op := by
  cases op <;> rfl

/-- R95: a command assembled from as many operand words as its header announces has that many. -/
theorem length_instrOperands_assemble {op : Op} {h : Word} {ops : List Word}
    (hlen : ops.length = operandCount op (headerArg h).toNat) :
    (instrOperands (assemble op h ops)).length = operandCount op (headerArg h).toNat := by
  cases op with
  | enc | dec | enq => exact hlen
  | clear | csrr | csrw | drain => rfl
  | rsmp | tx | rx =>
    simp only [operandCount] at hlen ⊢
    simp only [assemble, instrOperands, List.length_cons, List.length_drop]
    omega

/-- R95: the words a decoded command takes. -/
theorem commandWords_of_decode {p : Port} {h : Word} {tl rest : List Word} {i : Instr}
    (hd : decode p (h :: tl) = .command i rest) :
    ∃ op, checkHeader p h = .ok op ∧ instrPort i = p ∧
      commandWords i = operandCount op (headerArg h).toNat + 1 ∧ rest = (h :: tl).drop (commandWords i) := by
  obtain ⟨hd, tl, op, hws, hok, hle, rfl, rfl⟩ := decode_command hd
  cases hws
  obtain ⟨-, -, hport⟩ := checkHeader_ok hok
  have hwords : commandWords (assemble op h (tl.take (operandCount op (headerArg h).toNat))) =
      operandCount op (headerArg h).toNat + 1 := by
    rw [commandWords, encode, List.length_cons, length_instrOperands_assemble (List.length_take_of_le hle)]
  exact ⟨op, hok, by rw [instrPort, instrOp_assemble, hport], hwords, by rw [hwords, List.drop_succ_cons]⟩

/-- Settles O7: the port takes the command's words and its execution takes none and leaves the other port, or it takes the
rejected header alone. -/
theorem commandTakesItsWords : Obligations.CommandTakesItsWords := by
  intro p s t h tl hin hready hrun
  obtain ⟨-, ⟨hd, -⟩ | ⟨e, h', rest, hd, rfl⟩ | ⟨i, rest, hd, hexec⟩⟩ := runPort_cases hrun <;> rw [hin] at hd
  · exact absurd hd hready
  · obtain ⟨hws, herr⟩ := decode_illegal hd
    cases hws
    refine ⟨1, by rw [herr], by simp, by simp, fun q hq => ?_⟩
    rw [portOf_reject_ne p q _ _ _ hq, portOf_takeWords_ne p q _ _ _ hq]
  · obtain ⟨op, hok, hport, hwords, hrest⟩ := commandWords_of_decode hd
    have hans := exec_answer hexec
    obtain ⟨hinput, hpos⟩ := hans.input_pos p
    rw [portOf_takeWords] at hinput hpos
    refine ⟨commandWords i, ?_, hpos, hinput.trans hrest, fun q hq => ?_⟩
    · rw [hok, hwords]
      cases op <;> simp only [operandCount, pcmWords, headerArg] <;> omega
    · rw [hans.portOf_ne (hport ▸ hq), portOf_takeWords_ne p q _ _ _ hq]

end Sys2Proof.Machine
end

section
/-! PROOFS. Exact values in the rationals (00_scope.md R12, R13): the number a finite value denotes, its truncation, and which
patterns are NaNs. -/

namespace Sys2Proof.Machine

theorem two_zpow_eq_pow2_div (e : ℤ) : (2 : ℚ) ^ e = pow2 e / pow2 (-e) := by
  obtain ⟨k, rfl | rfl⟩ := e.eq_nat_or_neg <;> simp [pow2]

theorem pow2_pos (e : ℤ) : 0 < pow2 e := Nat.two_pow_pos _

/-- Natural division at the common denominator is the floor of the scaled number. -/
theorem mul_pow2_div_eq_floor (a : Nat) (e : ℤ) :
    ((a * pow2 e / pow2 (-e) : Nat) : ℤ) = ⌊(a : ℚ) * 2 ^ e⌋ := by
  rw [two_zpow_eq_pow2_div, ← mul_div_assoc, ← Nat.cast_mul, Rat.floor_natCast_div_natCast, Int.natCast_ediv]

theorem pow2_neg_le_mul_pow2_iff (a : Nat) (e : ℤ) : pow2 (-e) ≤ a * pow2 e ↔ (1 : ℚ) ≤ a * 2 ^ e := by
  rw [two_zpow_eq_pow2_div, ← mul_div_assoc, one_le_div (by exact_mod_cast pow2_pos (-e))]
  exact_mod_cast Iff.rfl

@[simp] theorem signed_false (m : Nat) : signed false m = m := rfl

@[simp] theorem signed_true (m : Nat) : signed true m = -m := rfl

@[simp] theorem finiteValue?_fin (neg : Bool) (m : Nat) (e : ℤ) :
    finiteValue? (.fin neg m e) = some ((signed neg m : ℚ) * 2 ^ e) := rfl

/-- A value is below zero exactly when it is negative and no zero: `-0.0` is not. -/
theorem signed_mul_zpow_neg_iff (neg : Bool) (m : Nat) (e : ℤ) :
    (signed neg m : ℚ) * 2 ^ e < 0 ↔ neg = true ∧ m ≠ 0 := by
  have hpos : (0 : ℚ) < 2 ^ e := by positivity
  rw [mul_neg_iff, or_iff_right (fun h => h.2.not_gt hpos), and_iff_left hpos, Int.cast_lt_zero]
  cases neg <;> simp [Nat.pos_iff_ne_zero]

theorem truncRat_of_nonneg {x : ℚ} (h : 0 ≤ x) : truncRat x = ⌊x⌋ := if_neg h.not_gt

/-- R12: truncation toward zero is symmetric. -/
theorem truncRat_neg_of_nonneg {x : ℚ} (h : 0 ≤ x) : truncRat (-x) = -⌊x⌋ := by
  rcases h.eq_or_lt with rfl | hpos
  · simp [truncRat]
  · rw [truncRat, if_pos (neg_lt_zero.mpr hpos), Int.ceil_neg]

/-- R13: the patterns that denote a NaN. -/
theorem f32_eq_nan_iff (w : Word) : f32 w = .nan ↔ isNaNPattern w = true := by
  have hexp : (w.extractLsb' 23 8).toNat = 255 ↔ w.extractLsb' 23 8 = 255#8 := BitVec.toNat_inj (y := 255#8)
  have hfrac : (w.extractLsb' 0 23).toNat = 0 ↔ w.extractLsb' 0 23 = 0#23 := BitVec.toNat_inj (y := 0#23)
  rw [isNaNPattern, Bool.and_eq_true, beq_iff_eq, bne_iff_ne, ← hexp, ne_eq, ← hfrac]
  simp only [f32]
  split_ifs <;> simp_all

end Sys2Proof.Machine
end

section
/-! PROOFS. `encode` in the rationals (40_codec.md R130): the clamp, and the truncation of an exact product. -/

namespace Sys2Proof.Machine

theorem truncScaled_eq_truncRat (neg : Bool) (m : Nat) (e : ℤ) (scale : Nat) :
    truncScaled neg m e scale = truncRat ((signed neg m : ℚ) * 2 ^ e * scale) := by
  have hnonneg : (0 : ℚ) ≤ m * 2 ^ e * scale := by positivity
  have hfloor : ((m * scale * pow2 e / pow2 (-e) : Nat) : ℤ) = ⌊(m : ℚ) * 2 ^ e * scale⌋ := by
    rw [mul_pow2_div_eq_floor, Nat.cast_mul, mul_right_comm]
  cases neg with
  | false => rw [truncScaled, signed_false, signed_false, hfloor, Int.cast_natCast, truncRat_of_nonneg hnonneg]
  | true =>
    rw [truncScaled, signed_true, signed_true, hfloor, Int.cast_neg, Int.cast_natCast, neg_mul, neg_mul,
      truncRat_neg_of_nonneg hnonneg]

theorem clampUnit_fin (neg : Bool) (m : Nat) (e : ℤ) :
    clampUnit (.fin neg m e) = if (1 : ℚ) ≤ m * 2 ^ e then .fin neg 1 0 else .fin neg m e := by
  simp only [clampUnit, pow2_neg_le_mul_pow2_iff]

/-- R130: the clamp cuts the magnitude at 1 and keeps the sign, which is the clamp of the value to [-1, 1]. -/
theorem finiteValue?_clampUnit {v : FVal} {x : ℚ} (h : finiteValue? v = some x) :
    finiteValue? (clampUnit v) = some (max (-1) (min 1 x)) := by
  cases v with
  | nan | inf neg => cases h
  | fin neg m e =>
    obtain rfl := Option.some.inj h
    have hnonneg : (0 : ℚ) ≤ m * 2 ^ e := by positivity
    rw [clampUnit_fin]
    cases neg with
    | false =>
      have hlow : (-1 : ℚ) ≤ m * 2 ^ e := neg_one_lt_zero.le.trans hnonneg
      split_ifs with hbig
      · simp [min_eq_left hbig]
      · simp [min_eq_right (not_le.mp hbig).le, hlow]
    | true =>
      have hhigh : -((m : ℚ) * 2 ^ e) ≤ 1 := (neg_nonpos.mpr hnonneg).trans zero_le_one
      split_ifs with hbig
      · simp [hhigh, hbig]
      · simp [hhigh, (not_le.mp hbig).le]

/-- R130: the exact product of the clamped value, truncated toward zero; the test of the sign bit and the mantissa is the test
`y < 0`. -/
theorem encodeSample_of_clampUnit {w : Word} {y : ℚ} (h : finiteValue? (clampUnit (f32 w)) = some y) :
    encodeSample w = truncRat (if y < 0 then y * 32768 else y * 32767) := by
  unfold encodeSample
  cases hv : clampUnit (f32 w) with
  | nan => simp [hv, finiteValue?] at h
  | inf neg => simp [hv, finiteValue?] at h
  | fin neg m e =>
    obtain rfl : _ = y := Option.some.inj (hv ▸ h)
    simp only [← signed_mul_zpow_neg_iff neg m e, truncScaled_eq_truncRat, apply_ite truncRat, Nat.cast_ofNat]

theorem encodeSample_of_nan {w : Word} (h : f32 w = .nan) : encodeSample w = 0 := by
  simp only [encodeSample, h, clampUnit]

/-- Settles O18: a finite pattern is clamped and its exact product truncated; a NaN and the infinities are evaluated. -/
theorem encodeIsTruncatedProduct : Obligations.EncodeIsTruncatedProduct := by
  intro w
  refine ⟨encodeSample_of_nan, fun h => ?_, fun h => ?_,
    fun x hx => encodeSample_of_clampUnit (finiteValue?_clampUnit hx)⟩
  · simp only [encodeSample, h, clampUnit]; decide
  · simp only [encodeSample, h, clampUnit]; decide

end Sys2Proof.Machine
end

section
/-! PROOFS. ENC and DEC (40_codec.md R135, R136): their one OK response, and the half that DEC does not read. -/

namespace Sys2Proof.Machine

theorem respond_ok_toNat (p : Port) (n : BitVec 24) (ws : List Word) (s : State) :
    respond p .ok n.toNat ws s = writeWords p ((0x00#8 ++ n : Word) :: ws) s := by
  rw [respond, BitVec.ofNat_toNat, BitVec.setWidth_eq]
  rfl

theorem exec_enc (n : BitVec 24) (ws : List Word) (s : State) :
    exec (.enc n ws) s = .next (writeWords .producer ((0x00#8 ++ n : Word) :: packSamples (ws.map encodeSample)) s) :=
  congrArg Host.Outcome.next (respond_ok_toNat .producer n _ s)

theorem exec_dec (n : BitVec 24) (ws : List Word) (s : State) :
    exec (.dec n ws) s =
      .next (writeWords .producer ((0x00#8 ++ n : Word) :: (pcmSamples n.toNat ws).map decodeSample) s) :=
  congrArg Host.Outcome.next (respond_ok_toNat .producer n _ s)

theorem halves_append (us vs : List Word) : halves (us ++ vs) = halves us ++ halves vs := by
  induction us with
  | nil => rfl
  | cons u us ih => simp only [List.cons_append, halves, ih]

/-- R65: the upper half of the last word of an odd count is no sample. -/
theorem pcmSamples_concat_of_odd {n : Nat} {ws : List Word} (h : n = 2 * ws.length + 1) (b a : Half) :
    pcmSamples n (ws ++ [b ++ a]) = (halves ws ++ [a]).map int16 := by
  rw [pcmSamples, halves_append, h, ← halves_length, List.take_length_add_append]
  simp [halves]

/-- Settles O22: the response of `exec_enc`; the NaN rule is R130's first case, and the other corner cases and the example are
evaluated. -/
theorem encCommand : Obligations.EncCommand := by
  have hlength (n : BitVec 24) (ws : List Word) (hwf : (Instr.enc n ws).WellFormed) :
      (encode (.enc n ws)).length = 1 + n.toNat := by
    rw [encode, List.length_cons, Laws.Length.enc n ws hwf, Nat.add_comm]
    rfl
  have hexample : packSamples ([0x3F000000, 0xBF000000, 0x40000000].map encodeSample) = [0xC0003FFF, 0x00007FFF] := by
    decide
  exact ⟨fun n ws => ⟨rfl, rfl, hlength n ws⟩, fun n ws s _ => exec_enc n ws s, exec_enc 0 [],
    fun w hw => encodeSample_of_nan ((f32_eq_nan_iff w).mpr hw), by decide, by decide, by decide, by decide,
    fun s => by rw [exec_enc, hexample]; rfl⟩

/-- Settles O23: the response of `exec_dec`, which reads the pad half in no sample; the corner cases and the example are
evaluated. -/
theorem decCommand : Obligations.DecCommand := by
  have hlength (n : BitVec 24) (ws : List Word) (hwf : (Instr.dec n ws).WellFormed) :
      (encode (.dec n ws)).length = 1 + (n.toNat + 1) / 2 := by
    rw [encode, List.length_cons, Laws.Length.dec n ws hwf, Nat.add_comm]
    rfl
  have hpad (n : BitVec 24) (ws : List Word) (a b c : Half) (s : State) (hn : n.toNat = 2 * ws.length + 1) :
      exec (.dec n (ws ++ [b ++ a])) s = exec (.dec n (ws ++ [c ++ a])) s := by
    rw [exec_dec, exec_dec, pcmSamples_concat_of_odd hn, pcmSamples_concat_of_odd hn]
  have hexample : (pcmSamples (3 : BitVec 24).toNat [0x0002FFFF, 0x00004000]).map decodeSample =
      [0xB8000000, 0x38800000, 0x3F000000] := by
    decide
  exact ⟨fun n ws => ⟨rfl, rfl, hlength n ws⟩, fun n ws s _ => exec_dec n ws s, exec_dec 0 [], hpad,
    by decide, by decide, by decide, fun s => by rw [exec_dec, hexample]; rfl⟩

end Sys2Proof.Machine
end

section
/-! PROOFS. The one rounding (00_scope.md R13): a quotient within the format's range rounds to a finite value that is at most
twice its bound, and a natural number of no more than the format's bits is kept. -/

namespace Sys2Proof.Machine

@[simp] theorem roundTo_zero (f : Format) (neg : Bool) (den : Nat) : roundTo f neg 0 den = .fin neg 0 f.minExp := if_pos rfl

theorem divNearestEven_le (a b : Nat) : divNearestEven a b ≤ a / b + 1 := by
  simp only [divNearestEven]
  split_ifs <;> omega

@[simp] theorem divNearestEven_one (a : Nat) : divNearestEven a 1 = a := by simp [divNearestEven, Nat.mod_one]

theorem lastBitExp_le (f : Format) (num den : Nat) :
    lastBitExp f num den ≤ max ((num.log2 : ℤ) - den.log2 - (f.prec - 1)) f.minExp := by
  simp only [lastBitExp]
  split_ifs <;> omega

/-- Scaling numerator and denominator by the two parts of `2^e` divides the quotient by `2^e`. -/
theorem mul_pow2_div_mul_pow2 (num den : Nat) (e : ℤ) :
    ((num * pow2 (-e) : Nat) : ℚ) / (den * pow2 e : Nat) = num / den / 2 ^ e := by
  rw [two_zpow_eq_pow2_div, Nat.cast_mul, Nat.cast_mul, div_div_div_eq, mul_comm (den : ℚ)]

/-- Short of the format's largest exponent the rounding is finite. A mantissa that rounds up to a power of two is halved at
the next exponent, which keeps the value. -/
theorem roundTo_eq_fin {f : Format} {num den : Nat} (neg : Bool) (hprec : 0 < f.prec) (hnum : num ≠ 0)
    (hexp : lastBitExp f num den < f.maxExp) :
    ∃ m e, roundTo f neg num den = .fin neg m e ∧
      (m : ℚ) * 2 ^ e =
        divNearestEven (num * pow2 (-lastBitExp f num den)) (den * pow2 (lastBitExp f num den)) *
          2 ^ lastBitExp f num den := by
  simp only [roundTo, if_neg hnum]
  split_ifs with hm hover hover
  · omega
  · refine ⟨_, _, rfl, ?_⟩
    rw [hm, zpow_add_one₀ two_ne_zero, Nat.cast_pow, Nat.cast_pow, ← pow_sub_one_mul hprec.ne' ((2 : ℕ) : ℚ)]
    push_cast
    ring
  · omega
  · exact ⟨_, _, rfl, rfl⟩

/-- A quotient at most `2^k` has its last bit no higher than `k` less the format's bits. -/
theorem log2_sub_log2_le {num den : Nat} {k : ℤ} (hnum : num ≠ 0) (hden : 0 < den) (hle : (num : ℚ) / den ≤ 2 ^ k) :
    (num.log2 : ℤ) - den.log2 ≤ k := by
  have hlow : (2 : ℚ) ^ (num.log2 : ℤ) ≤ num := by exact_mod_cast Nat.log2_self_le hnum
  have hhigh : (den : ℚ) < 2 ^ ((den.log2 : ℤ) + 1) := by exact_mod_cast Nat.lt_log2_self
  have hdenQ : (0 : ℚ) < den := by exact_mod_cast hden
  have hlt : (2 : ℚ) ^ (num.log2 : ℤ) < 2 ^ (k + (den.log2 + 1)) := calc
    (2 : ℚ) ^ (num.log2 : ℤ) ≤ 2 ^ k * den := hlow.trans ((div_le_iff₀ hdenQ).mp hle)
    _ < 2 ^ k * 2 ^ ((den.log2 : ℤ) + 1) := by gcongr
    _ = 2 ^ (k + (den.log2 + 1)) := (zpow_add₀ two_ne_zero _ _).symm
  have := (zpow_lt_zpow_iff_right₀ one_lt_two).mp hlt
  omega

/-- A quotient at most `2^k`, with `k` inside the format's exponents, rounds to a finite value at most `2^(k+1)`. -/
theorem roundTo_eq_fin_of_le {f : Format} {num den : Nat} {k : ℤ} (neg : Bool) (hprec : 0 < f.prec) (hden : 0 < den)
    (hle : (num : ℚ) / den ≤ 2 ^ k) (hmin : f.minExp ≤ k - (f.prec - 1)) (hmax : k - (f.prec - 1) < f.maxExp) :
    ∃ m e, roundTo f neg num den = .fin neg m e ∧ (m : ℚ) * 2 ^ e ≤ 2 ^ (k + 1) := by
  rcases eq_or_ne num 0 with rfl | hnum
  · exact ⟨0, f.minExp, roundTo_zero f neg den, by rw [Nat.cast_zero, zero_mul]; positivity⟩
  have hlog := log2_sub_log2_le hnum hden hle
  have hlast := lastBitExp_le f num den
  obtain ⟨m, e, hround, hvalue⟩ := roundTo_eq_fin neg hprec hnum (by omega : lastBitExp f num den < f.maxExp)
  refine ⟨m, e, hround, hvalue.trans_le ?_⟩
  generalize lastBitExp f num den = c at hlast
  have hck : (2 : ℚ) ^ c ≤ 2 ^ k := zpow_le_zpow_right₀ one_le_two (by omega)
  have hmant : (divNearestEven (num * pow2 (-c)) (den * pow2 c) : ℚ) ≤ num / den / 2 ^ c + 1 := calc
    _ ≤ ((num * pow2 (-c) / (den * pow2 c) + 1 : Nat) : ℚ) := Nat.cast_le.mpr (divNearestEven_le _ _)
    _ ≤ ((num * pow2 (-c) : Nat) : ℚ) / (den * pow2 c : Nat) + 1 := by rw [Nat.cast_succ]; gcongr; exact Nat.cast_div_le
    _ = num / den / 2 ^ c + 1 := by rw [mul_pow2_div_mul_pow2]
  calc (divNearestEven (num * pow2 (-c)) (den * pow2 c) : ℚ) * 2 ^ c
      ≤ (num / den / 2 ^ c + 1) * 2 ^ c := by gcongr
    _ = num / den + 2 ^ c := by field_simp
    _ ≤ 2 ^ k + 2 ^ k := add_le_add hle hck
    _ = 2 ^ (k + 1) := by rw [zpow_add_one₀ two_ne_zero, mul_two]

/-- R162, R164: a natural number below `2^53` is exact in binary64. -/
theorem ofNat64_eq_fin {n : Nat} (hn : n < 2 ^ 53) : ∃ m e, ofNat64 n = .fin false m e ∧ (m : ℚ) * 2 ^ e = n := by
  rcases eq_or_ne n 0 with rfl | hzero
  · exact ⟨0, binary64.minExp, rfl, by simp⟩
  have hlog : n.log2 < 53 := (Nat.log2_lt hzero).mpr hn
  have hlast : lastBitExp binary64 n 1 ≤ 0 := by
    have := lastBitExp_le binary64 n 1
    simp only [binary64, show Nat.log2 1 = 0 from by decide] at this ⊢
    omega
  obtain ⟨m, e, hround, hvalue⟩ := roundTo_eq_fin (f := binary64) (den := 1) false (by decide) hzero
    (hlast.trans_lt (by decide))
  refine ⟨m, e, hround, hvalue.trans ?_⟩
  generalize lastBitExp binary64 n 1 = c at hlast
  have hone : pow2 c = 1 := by rw [pow2, Int.toNat_of_nonpos hlast, pow_zero]
  have hpos : (pow2 (-c) : ℚ) ≠ 0 := by exact_mod_cast (pow2_pos (-c)).ne'
  rw [hone, Nat.mul_one, divNearestEven_one, two_zpow_eq_pow2_div, hone]
  push_cast
  field_simp

end Sys2Proof.Machine
end

section
/-! PROOFS. The output length of the resampler (41_resampler.md R162): the ratio and its product with the length are finite, so
their floor is that of a rational. -/

namespace Sys2Proof.Machine

/-- The floor of a nonnegative finite value is that of the rational it denotes. -/
theorem floorNat_fin (m : Nat) (e : ℤ) : floorNat (.fin false m e) = ⌊(m : ℚ) * 2 ^ e⌋.toNat := by
  rw [← mul_pow2_div_eq_floor, Int.toNat_natCast, floorNat]

theorem finiteValue?_ofNat64 {n : Nat} (hn : n < 2 ^ 53) : finiteValue? (ofNat64 n) = some (n : ℚ) := by
  obtain ⟨m, e, hv, hvalue⟩ := ofNat64_eq_fin hn
  rw [hv, finiteValue?_fin, signed_false, Int.cast_natCast, hvalue]

theorem word_lt_two_pow_53 (r : Word) : r.toNat < 2 ^ 53 := r.isLt.trans (by decide)

/-- The quotient that `fdiv` rounds is the quotient of the values. -/
theorem fdiv_quotient (m k : Nat) (e g : ℤ) :
    ((m * pow2 (e - g) : Nat) : ℚ) / (k * pow2 (g - e) : Nat) = m * 2 ^ e / (k * 2 ^ g) := by
  have h := mul_pow2_div_mul_pow2 m k (g - e)
  rw [neg_sub] at h
  rw [h, zpow_sub₀ two_ne_zero]
  field_simp

/-- The quotient that `fmul` rounds is the product of the values. -/
theorem fmul_quotient (m k : Nat) (e g : ℤ) :
    ((m * k * pow2 (e + g) : Nat) : ℚ) / (pow2 (-(e + g)) : Nat) = m * 2 ^ e * (k * 2 ^ g) := by
  rw [Nat.cast_mul, mul_div_assoc, ← two_zpow_eq_pow2_div, zpow_add₀ two_ne_zero, Nat.cast_mul]
  ring

/-- R162: the ratio of two rates, the divisor not zero, is finite and at most `2^33`. -/
theorem rateRatio_eq_fin {rin : Word} (rout : Word) (hrin : rin ≠ 0) :
    ∃ m e, rateRatio rin rout = .fin false m e ∧ (m : ℚ) * 2 ^ e ≤ 2 ^ (33 : ℤ) := by
  obtain ⟨a, b, hout, hvout⟩ := ofNat64_eq_fin (word_lt_two_pow_53 rout)
  obtain ⟨c, d, hin, hvin⟩ := ofNat64_eq_fin (word_lt_two_pow_53 rin)
  have hone : (1 : ℚ) ≤ rin.toNat := by
    exact_mod_cast Nat.one_le_iff_ne_zero.mpr fun h => hrin (BitVec.eq_of_toNat_eq h)
  have hc : c ≠ 0 := by
    rintro rfl
    rw [← hvin, Nat.cast_zero, zero_mul] at hone
    exact zero_lt_one.not_ge hone
  have hle : ((a * pow2 (b - d) : Nat) : ℚ) / (c * pow2 (d - b) : Nat) ≤ 2 ^ (32 : ℤ) := by
    rw [fdiv_quotient, hvout, hvin]
    exact (div_le_self (Nat.cast_nonneg _) hone).trans (by exact_mod_cast rout.isLt.le)
  rw [rateRatio, hout, hin, fdiv, if_neg hc]
  exact roundTo_eq_fin_of_le _ (by decide) (Nat.mul_pos (Nat.pos_of_ne_zero hc) (pow2_pos _)) hle (by decide) (by decide)

/-- R162: the product of a length within COUNT_MAX and the ratio is finite and nonnegative. -/
theorem fmul_rateRatio_eq_fin {len : Nat} {rin : Word} (rout : Word) (hrin : rin ≠ 0) (hlen : len ≤ countMax) :
    ∃ m e, fmul (ofNat64 len) (rateRatio rin rout) = .fin false m e := by
  obtain ⟨a, b, hl, hvlen⟩ := ofNat64_eq_fin (hlen.trans_lt (by decide : countMax < 2 ^ 53))
  obtain ⟨c, d, hr, hratio⟩ := rateRatio_eq_fin rout hrin
  have hle : ((a * c * pow2 (b + d) : Nat) : ℚ) / (pow2 (-(b + d)) : Nat) ≤ 2 ^ (57 : ℤ) := by
    have hlenQ : (len : ℚ) ≤ 2 ^ (24 : ℤ) := by exact_mod_cast hlen.trans (by decide : countMax ≤ 2 ^ 24)
    calc _ = len * ((c : ℚ) * 2 ^ d) := by rw [fmul_quotient, hvlen]
      _ ≤ 2 ^ (24 : ℤ) * 2 ^ (33 : ℤ) := by gcongr
      _ = 2 ^ (57 : ℤ) := (zpow_add₀ two_ne_zero _ _).symm
  obtain ⟨m, e, hround, -⟩ := roundTo_eq_fin_of_le false (by decide : 0 < binary64.prec) (pow2_pos _) hle
    (by decide) (by decide)
  exact ⟨m, e, by rw [hl, hr]; exact hround⟩

theorem outLen_self (len : Nat) (r : Word) : outLen len r r = len := if_pos rfl

theorem outLen_of_ne {rin rout : Word} (len : Nat) (h : rin ≠ rout) :
    outLen len rin rout = floorNat (fmul (ofNat64 len) (rateRatio rin rout)) := if_neg h

/-- R162: an empty input gives M = 0. -/
theorem outLen_zero {rin : Word} (rout : Word) (hrin : rin ≠ 0) : outLen 0 rin rout = 0 := by
  by_cases h : rin = rout
  · rw [h, outLen_self]
  · obtain ⟨m, e, hratio, -⟩ := rateRatio_eq_fin rout hrin
    rw [outLen_of_ne 0 h, hratio, ofNat64, roundTo_zero, fmul, Nat.zero_mul, Nat.zero_mul, roundTo_zero, bne_self_eq_false,
      floorNat_fin]
    simp

@[simp] theorem resampleWith_self (draw : Nat → NaNPattern) (x : List Word) (r : Word) : resampleWith draw x r r = some x :=
  if_pos rfl

theorem resampleWith_of_ne {rin rout : Word} (draw : Nat → NaNPattern) (x : List Word) (h : rin ≠ rout) :
    resampleWith draw x rin rout = interpolateFrom x (rateRatio rin rout) draw 0 (outLen x.length rin rout) := if_neg h

/-- R162: M = 0 is an empty sequence, no error. -/
theorem resampleWith_of_outLen_eq_zero {draw : Nat → NaNPattern} {x : List Word} {rin rout : Word}
    (hM : outLen x.length rin rout = 0) : resampleWith draw x rin rout = some [] := by
  by_cases h : rin = rout
  · subst h
    rw [outLen_self] at hM
    rw [resampleWith_self, List.eq_nil_of_length_eq_zero hM]
  · rw [resampleWith_of_ne draw x h, hM, interpolateFrom]

/-- Settles O26: the length and both rates are exact, so the floor is taken of a finite nonnegative product. -/
theorem outputLengthRule : Obligations.OutputLengthRule := by
  refine ⟨fun len r _ => outLen_self len r, fun len rin rout hrin _ hne hlen => ?_,
    fun rin rout hrin _ => outLen_zero rout hrin, fun draw x rin rout _ _ => resampleWith_of_outLen_eq_zero⟩
  obtain ⟨m, e, hprod⟩ := fmul_rateRatio_eq_fin rout hrin hlen
  refine ⟨finiteValue?_ofNat64 (hlen.trans_lt (by decide)), finiteValue?_ofNat64 (word_lt_two_pow_53 rin),
    finiteValue?_ofNat64 (word_lt_two_pow_53 rout), (m : ℚ) * 2 ^ e, ?_, by positivity, ?_⟩
  · rw [← rateRatio, hprod, finiteValue?_fin, signed_false, Int.cast_natCast]
  · rw [outLen_of_ne len hne, hprod, floorNat_fin]

end Sys2Proof.Machine
end

section
/-! PROOFS. The samples of the resampler (41_resampler.md R164, R168): the formula, the index guard, and the NaN patterns. -/

namespace Sys2Proof.Machine

/-- R166: the index guard fires exactly where `low` is beyond the last sample. -/
theorem interpolate_eq_none_iff (x : List Word) (ratio : FVal) (i : Nat) :
    interpolate x ratio i = none ↔ x.length ≤ floorNat (samplePos ratio i) := by
  simp [interpolate]

/-- R164: where the guard does not fire, the sample is the formula. -/
theorem interpolate_eq_some {x : List Word} {ratio v : FVal} {i : Nat} (h : interpolate x ratio i = some v) :
    let pos := samplePos ratio i
    let low := floorNat pos
    let high := min (low + 1) (x.length - 1)
    let t := fsub pos (ofNat64 low)
    low < x.length ∧
      v = fadd (fmul (f32 (x.getD low 0)) (fsub (ofNat64 1) t)) (fmul (f32 (x.getD high 0)) t) := by
  simp only [interpolate] at h
  split at h
  · cases h
  · next hlow => exact ⟨not_le.mp hlow, (Option.some.inj h).symm⟩

/-- Settles O27: what an interpolation can answer, each position through the two lemmas on one sample. -/
theorem interpolationFormula : Obligations.InterpolationFormula := by
  intro draw x rin rout _ _ hne
  rw [resampleWith_of_ne draw x hne]
  obtain ⟨ys, hys, hall⟩ | ⟨hnone, i, hi, hguard⟩ :=
    interpolateFrom_cases x (rateRatio rin rout) draw 0 (outLen x.length rin rout)
  · refine Or.inl ⟨ys, hys, length_interpolateFrom hys, fun i hi => ?_⟩
    obtain ⟨v, hv, hy⟩ := hall i hi
    rw [Nat.zero_add] at hv hy
    obtain ⟨hlow, rfl⟩ := interpolate_eq_some hv
    exact ⟨hlow, draw i, hy⟩
  · rw [Nat.zero_add] at hguard
    exact Or.inr ⟨hnone, i, hi, (interpolate_eq_none_iff x _ i).mp hguard⟩

/-- R13: a binary32 pattern is its sign, exponent and fraction fields. -/
theorem word_eq_fields (w : Word) :
    w.extractLsb' 31 1 ++ (w.extractLsb' 23 8 ++ w.extractLsb' 0 23) = w := by
  rw [BitVec.extractLsb'_append_extractLsb'_eq_extractLsb' (rfl : 23 = 0 + 23)]
  exact (BitVec.extractLsb'_append_extractLsb'_eq_extractLsb' (rfl : 31 = 0 + (8 + 23))).trans BitVec.extractLsb'_eq_self

theorem exponentField_append (a : BitVec 1) (b : BitVec 8) (c : BitVec 23) :
    (a ++ (b ++ c) : Word).extractLsb' 23 8 = b := by
  rw [BitVec.extractLsb'_append_eq_of_add_le (by decide), BitVec.extractLsb'_append_eq_left]

theorem fractionField_append (a : BitVec 1) (b : BitVec 8) (c : BitVec 23) :
    (a ++ (b ++ c) : Word).extractLsb' 0 23 = c := by
  rw [BitVec.extractLsb'_append_eq_of_add_le (by decide), BitVec.extractLsb'_append_eq_right]

/-- A one-bit field is the bit that says whether it is 1. -/
theorem ofBool_decide_eq_one (b : BitVec 1) : BitVec.ofBool (decide (b = 1#1)) = b := by
  revert b
  decide

/-- R168: a drawn pattern is a NaN. -/
theorem isNaNPattern_nanWord (p : NaNPattern) : isNaNPattern (nanWord p) = true := by
  have hfrac : BitVec.ofNat 23 (p.fractionLessOne.val + 1) ≠ 0#23 := by
    have := p.fractionLessOne.isLt
    intro h
    have h' := congrArg BitVec.toNat h
    rw [BitVec.toNat_ofNat, BitVec.toNat_ofNat] at h'
    omega
  rw [isNaNPattern, nanWord, exponentField_append, fractionField_append, Bool.and_eq_true, beq_iff_eq, bne_iff_ne]
  exact ⟨rfl, hfrac⟩

/-- R168: every NaN pattern can be drawn. -/
theorem exists_nanWord_eq {w : Word} (h : isNaNPattern w = true) : ∃ p, nanWord p = w := by
  rw [isNaNPattern, Bool.and_eq_true, beq_iff_eq, bne_iff_ne] at h
  obtain ⟨hexp, hfrac⟩ := h
  have hpos : 0 < (w.extractLsb' 0 23).toNat := Nat.pos_of_ne_zero fun h0 => hfrac (BitVec.eq_of_toNat_eq h0)
  have hlt : (w.extractLsb' 0 23).toNat < 8388608 := (w.extractLsb' 0 23).isLt
  refine ⟨⟨decide (w.extractLsb' 31 1 = 1#1), ⟨(w.extractLsb' 0 23).toNat - 1, by omega⟩⟩, ?_⟩
  rw [nanWord, ofBool_decide_eq_one, Nat.sub_add_cancel hpos, BitVec.ofNat_toNat, BitVec.setWidth_eq, ← hexp, word_eq_fields]

/-- Settles O28: a NaN sample is the drawn pattern. -/
theorem naNSamplesAreAnyNaN : Obligations.NaNSamplesAreAnyNaN :=
  ⟨isNaNPattern_nanWord, fun _ => exists_nanWord_eq, fun w => (f32_eq_nan_iff w).symm,
    fun draw x r _ => resampleWith_self draw x r⟩

end Sys2Proof.Machine
end

section
/-! PROOFS. The resampling commands (41_resampler.md R161, R163, R170): what each answers to an outcome of the shared checks. -/

namespace Sys2Proof.Machine

/-- R161: the check of the rates comes first. -/
theorem resampleChecked_of_zero {rin rout : Word} (x : List Word) (h : rin = 0 ∨ rout = 0) :
    resampleChecked rin rout x = .rejected .invalidArgument := if_pos h

/-- R163: equal rates pass the checks and give the input. -/
theorem resampleChecked_self {r : Word} {x : List Word} (hr : r ≠ 0) (hx : x.length ≤ countMax) :
    resampleChecked r r x = .samples x := by
  rw [resampleChecked, if_neg (not_or.mpr ⟨hr, hr⟩), outLen_self, if_neg hx.not_gt, resample, resampleWith_self]

theorem exec_rsmp_of_rejected {n : BitVec 24} {rin rout : Word} {ws : List Word} {st : Status} (s : State)
    (h : resampleChecked rin rout ws = .rejected st) :
    exec (.rsmp n rin rout ws) s = .next (reject .producer (opCode .rsmp) st s) := by
  rw [exec, execRsmp, h]

theorem exec_tx_of_rejected {n : BitVec 24} {rin rout : Word} {ws : List Word} {st : Status} (s : State)
    (h : resampleChecked rin rout ws = .rejected st) :
    exec (.tx n rin rout ws) s = .next (reject .producer (opCode .tx) st s) := by
  rw [exec, execTx, h]

theorem exec_rx_of_rejected {n : BitVec 24} {rin rout : Word} {ws : List Word} {st : Status} (s : State)
    (h : resampleChecked rin rout ((pcmSamples n.toNat ws).map decodeSample) = .rejected st) :
    exec (.rx n rin rout ws) s = .next (reject .producer (opCode .rx) st s) := by
  rw [exec, execRx, h]

theorem exec_rsmp_of_samples {n : BitVec 24} {rin rout : Word} {ws ys : List Word} (s : State)
    (h : resampleChecked rin rout ws = .samples ys) :
    exec (.rsmp n rin rout ws) s = .next (respond .producer .ok ys.length ys s) := by
  rw [exec, execRsmp, h]

/-- Settles O32: the three commands reject on the shared check of the rates. -/
theorem zeroRateRejected : Obligations.ZeroRateRejected := fun _ _ _ _ s h =>
  ⟨exec_rsmp_of_rejected s (resampleChecked_of_zero _ h), exec_tx_of_rejected s (resampleChecked_of_zero _ h),
    exec_rx_of_rejected s (resampleChecked_of_zero _ h)⟩

/-- Settles O34: the input passes the checks unchanged, and its length is the header's N. -/
theorem equalRatesCopyTheInput : Obligations.EqualRatesCopyTheInput := by
  refine ⟨fun x r _ => resampleWith_self _ x r, fun n r ws s hr hwf => ?_⟩
  have hlen : ws.length = n.toNat := hwf
  have hmax : ws.length ≤ countMax := hlen ▸ Nat.le_of_lt_succ n.isLt
  rw [exec_rsmp_of_samples s (resampleChecked_self hr hmax), hlen, respond_ok_toNat]

end Sys2Proof.Machine
end

section
/-! PROOFS. ENQ under its policy (42_playback.md R191, R204): the outcome of an enqueue by the storage check on its plan, and what
DROP_OLDEST discards. -/

namespace Sys2Proof.Machine

/-- R195: an enqueue whose plan outgrows the storage stops after the plan's discard. -/
theorem enqueue_of_outgrows {c : List Word} {s : State} {plan : OverflowPlan}
    (hplan : overflowPlan (policyMode s.policy) s.maxQueued.toNat (queued s.queue) c = plan)
    (hout : outgrows s.params (discardOldest plan.discard s.queue) plan.kept.length = true) :
    enqueue c s = .exhausted (raiseFault .storageExhausted { s with queue := discardOldest plan.discard s.queue }) := by
  subst hplan
  exact if_pos hout

/-- R191: an enqueue whose plan fits the storage appends what the plan keeps and counts what it drops. -/
theorem enqueue_of_fits {c : List Word} {s : State} {plan : OverflowPlan}
    (hplan : overflowPlan (policyMode s.policy) s.maxQueued.toNat (queued s.queue) c = plan)
    (hfit : outgrows s.params (discardOldest plan.discard s.queue) plan.kept.length = false) :
    enqueue c s = .accepted
      (countOverflow plan.dropped
        { s with queue := discardOldest plan.discard s.queue ++ [{ data := plan.kept, cursor := 0 }] })
      plan.kept.length := by
  subst hplan
  exact if_neg (ne_true_of_eq_false hfit)

theorem exec_enq_of_accepted (n : BitVec 24) {ws : List Word} {s u : State} {count : Nat}
    (h : enqueue ws s = .accepted u count) :
    exec (.enq n ws) s = .next (writeWords .producer [0x00#8 ++ BitVec.ofNat 24 count] u) := by
  rw [exec, execEnq, h]
  rfl

theorem exec_enq_of_exhausted (n : BitVec 24) {ws : List Word} {s u : State} (h : enqueue ws s = .exhausted u) :
    exec (.enq n ws) s = .next u := by
  rw [exec, execEnq, h]

/-- R204: the plan of DROP_OLDEST above the threshold. -/
theorem overflowPlan_dropOldest {maxq t : Nat} {c : List Word} (hover : 0 < t + c.length - maxq) :
    overflowPlan 1 maxq t c =
      { discard := min (t + c.length - maxq) t,
        kept := c.drop (t + c.length - maxq - min (t + c.length - maxq) t),
        dropped := t + c.length - maxq } := by
  obtain ⟨h | h, -⟩ | ⟨h, -, -⟩ | ⟨-, -, -, h⟩ := overflowPlan_cases 1 maxq t c
  · exact absurd h (by decide)
  · omega
  · exact absurd h (by decide)
  · exact h

/-- R204: discarding queued samples first and then new ones is discarding the oldest of all of them. -/
theorem pending_discardOldest_concat (k : Nat) (q : List Chunk) (c : List Word) :
    pending (discardOldest (min k (queued q)) q ++ [{ data := c.drop (k - min k (queued q)), cursor := 0 }]) =
      (pending q ++ c).drop k := by
  have hnew : k - min k (queued q) = k - queued q := by omega
  have hold : (pending q).drop (min k (queued q)) = (pending q).drop k := by
    rw [← length_pending, List.drop_eq_drop_iff]
    omega
  rw [pending_append, pending_discardOldest, hold, List.drop_append, length_pending, hnew]
  simp [pending, chunkPending]

theorem discardOldest_zero (q : List Chunk) : discardOldest 0 q = q := by
  cases q <;> rfl

theorem discardOldest_cons_of_le {k : Nat} {c : Chunk} (q : List Chunk) (hk : 0 < k) (h : chunkAvail c ≤ k) :
    discardOldest k (c :: q) = discardOldest (k - chunkAvail c) q := by
  rw [discardOldest, if_neg hk.ne', if_pos h]

theorem discardOldest_cons_of_lt {k : Nat} {c : Chunk} (q : List Chunk) (hk : 0 < k) (h : k < chunkAvail c) :
    discardOldest k (c :: q) = { c with cursor := c.cursor + k } :: q := by
  rw [discardOldest, if_neg hk.ne', if_neg h.not_ge]

/-- Settles O41: the plan of DROP_OLDEST fits the storage, and what it leaves pending are the newest samples, counted by R26. -/
theorem dropOldestKeepsTheNewest : Obligations.DropOldestKeepsTheNewest := by
  refine ⟨fun n ws s excess dq _ hmode hexcess hpos hdq hfit => ?_, fun k h q =>
    ⟨discardOldest_zero _, fun hk hle => discardOldest_cons_of_le q hk hle,
      fun hk hlt => discardOldest_cons_of_lt q hk hlt⟩⟩
  have hplan : overflowPlan (policyMode s.policy) s.maxQueued.toNat (queued s.queue) ws =
      { discard := dq, kept := ws.drop (excess - dq), dropped := excess } := by
    rw [hmode, overflowPlan_dropOldest (hexcess ▸ hpos), ← hexcess, ← hdq]
  have hpending : pending (discardOldest dq s.queue ++ [{ data := ws.drop (excess - dq), cursor := 0 }]) =
      (pending s.queue ++ ws).drop excess := by
    rw [hdq, pending_discardOldest_concat]
  have hqueued : queued (discardOldest dq s.queue ++ [{ data := ws.drop (excess - dq), cursor := 0 }]) =
      s.maxQueued.toNat := by
    rw [← length_pending, hpending, List.length_drop, List.length_append, length_pending]
    omega
  have henq := enqueue_of_fits hplan (by rwa [List.length_drop])
  rw [countOverflow, if_neg hpos.ne', List.length_drop] at henq
  exact ⟨_, exec_enq_of_accepted n henq, writeWords_queue .., by rwa [writeWords_queue], by rwa [writeWords_queue], rfl⟩

end Sys2Proof.Machine
end

section
/-! PROOFS. DRAIN and port S (42_playback.md R196, R198, R206): a frame the queue can fill, and everything a word on S can do. -/

namespace Sys2Proof.Machine

theorem exec_drain (n : BitVec 24) (s : State) :
    exec (.drain n) s = .next (writeWords .sink ((0x00#8 ++ n : Word) :: (drain n.toNat s).1) (drain n.toNat s).2) :=
  congrArg Host.Outcome.next (respond_ok_toNat .sink n _ _)

/-- R196: a frame the queue can fill has no silence and counts none. -/
theorem drain_of_le_queued {n : Nat} {s : State} (h : n ≤ queued s.queue) :
    drain n s = ((drainQueue n s.queue).1, { s with queue := (drainQueue n s.queue).2 }) := by
  rw [drain_spec, Nat.sub_eq_zero_of_le h, (drainQueue_spec n s.queue).1]
  exact congrArg (·, _) (List.append_nil _)

/-- R198: a frame that fills inside the head chunk advances its cursor. -/
theorem drainQueue_cons_of_gt {n : Nat} {c : Chunk} (q : List Chunk) (h : n < chunkAvail c) :
    drainQueue n (c :: q) = ((chunkPending c).take n, { c with cursor := c.cursor + n } :: q) := by
  obtain rfl | hn := Nat.eq_zero_or_pos n
  · rfl
  · rw [drainQueue, if_neg hn.ne', Nat.min_eq_right h.le]
    exact if_pos h

/-- Settles O44: the drain takes `pre` whole and then fills inside the chunk behind it. -/
theorem partialConsumption : Obligations.PartialConsumption := by
  intro n s pre h q hq hpre hfill
  have hwhole : queued pre ≤ n.toNat := by
    obtain rfl | hlt := hpre
    · exact Nat.zero_le _
    · exact hlt.le
  have hfront : n.toNat - queued pre < chunkAvail h := Nat.sub_lt_left_of_lt_add hwhole hfill
  have hle : n.toNat ≤ queued s.queue := by
    rw [hq, queued_append, queued, chunkAvail]
    omega
  rw [exec_drain, drain_of_le_queued hle, hq, drainQueue_append _ hpre, drainQueue_cons_of_gt q hfront]
  rfl

/-- Everything a word on port S can do while no model fault holds: the port is held, a header is rejected, or a DRAIN runs
(R102, R310). -/
theorem runPort_sink_cases {s : State} (hf : s.fault = none) :
    runPort .sink s = .next s ∨
    (∃ c k rest, runPort .sink s = .next (reject .sink c .illegalCommand (takeWords .sink k rest s))) ∨
    ∃ n k rest, runPort .sink s = exec (.drain n) (takeWords .sink k rest s) := by
  cases hd : decode .sink (portOf .sink s).input with
  | incomplete => exact .inl (runPort_of_incomplete hf hd)
  | illegal e h rest => exact .inr (.inl ⟨_, _, _, runPort_of_illegal hf hd⟩)
  | command i rest =>
    obtain ⟨h, tl, op, -, hc, -, hi, -⟩ := decode_command hd
    obtain ⟨-, -, hp⟩ := checkHeader_ok hc
    obtain rfl := opPort_eq_sink.mp hp
    exact .inr (.inr ⟨headerArg h, _, _, (runPort_of_command hf hd).trans (by rw [hi]; rfl)⟩)

/-- Settles O46: a frame has the length asked for, and a rejection or a DRAIN on S leaves the rest of the block running. -/
theorem adapterKeepsRunning : Obligations.AdapterKeepsRunning := by
  refine ⟨fun n s => ⟨_, _, exec_drain n s, length_drain n.toNat s, ?_⟩, fun s hf => ?_⟩
  · exact congrArg (·.output ++ _) (samePorts_drain n.toNat s .sink)
  · obtain hrun | ⟨c, k, rest, hrun⟩ | ⟨n, k, rest, hrun⟩ := runPort_sink_cases hf
    · exact ⟨s, hrun, hf, rfl, rfl, rfl, rfl, rfl, 0, rfl, .inl rfl⟩
    · exact ⟨_, hrun, hf, rfl, rfl, rfl, rfl, rfl, 0, rfl, .inl rfl⟩
    · have hcount : (0x00#8 ++ n : Word).toNat = n.toNat := by
        rw [BitVec.toNat_append]
        simp
      rw [exec_drain] at hrun
      refine ⟨_, hrun, (countUnderrun_fault ..).trans hf, countUnderrun_policy .., countUnderrun_maxQueued ..,
        countUnderrun_overflows .., countUnderrun_dropped .., countUnderrun_producer .., n.toNat, ?_,
        .inr ⟨0x00#8 ++ n, (drain n.toNat (takeWords .sink k rest s)).1, ?_, by rw [hcount, length_drain], hcount.ge⟩⟩
      · rw [writeWords_queue, drain_spec, countUnderrun_queue, (drainQueue_spec _ _).2, takeWords_queue]
      · exact congrArg (·.output ++ _) (samePorts_drain n.toNat (takeWords .sink k rest s) .sink)

end Sys2Proof.Machine
end

section
/-! PROOFS. Commands and the rest of the state: ENC, DEC, RSMP and TX answer from their operands alone (20_memory.md R71,
41_resampler.md R160), and a CSR write touches neither the queue nor the fault field (43_pipeline_and_csr.md R252). -/

namespace Sys2Proof.Machine

/-- A command whose answer is fixed by its operands, and done to every state alike. -/
inductive AnswersFromOperands (i : Instr) : Prop
  | rejected (st : Status) (h : ∀ s, exec i s = .next (reject (instrPort i) (opCode (instrOp i)) st s))
  | guarded (h : ∀ s, exec i s = .next (raiseFault .resampleIndexGuard s))
  | responded (n : Nat) (ws : List Word) (h : ∀ s, exec i s = .next (respond (instrPort i) .ok n ws s))

theorem answersFromOperands_enc (n : BitVec 24) (ws : List Word) : AnswersFromOperands (.enc n ws) :=
  .responded _ _ fun _ => rfl

theorem answersFromOperands_dec (n : BitVec 24) (ws : List Word) : AnswersFromOperands (.dec n ws) :=
  .responded _ _ fun _ => rfl

theorem answersFromOperands_rsmp (n : BitVec 24) (rin rout : Word) (ws : List Word) :
    AnswersFromOperands (.rsmp n rin rout ws) := by
  cases hr : resampleChecked rin rout ws with
  | rejected st => exact .rejected st fun s => exec_rsmp_of_rejected s hr
  | guard => exact .guarded fun s => by rw [exec, execRsmp, hr]
  | samples ys => exact .responded _ _ fun s => exec_rsmp_of_samples s hr

theorem answersFromOperands_tx (n : BitVec 24) (rin rout : Word) (ws : List Word) :
    AnswersFromOperands (.tx n rin rout ws) := by
  cases hr : resampleChecked rin rout ws with
  | rejected st => exact .rejected st fun s => exec_tx_of_rejected s hr
  | guard => exact .guarded fun s => by rw [exec, execTx, hr]
  | samples ys => exact .responded ys.length (packSamples (ys.map encodeSample)) fun s => by rw [exec, execTx, hr]; rfl

theorem AnswersFromOperands.fault {i : Instr} (hi : AnswersFromOperands i) {s t : State} (h : exec i s = .next t) :
    t.fault = s.fault ∨ t.fault = some .resampleIndexGuard := by
  cases hi with
  | rejected st hexec =>
    cases (hexec s).symm.trans h
    exact .inl (reject_fault ..)
  | guarded hexec =>
    cases (hexec s).symm.trans h
    exact .inr rfl
  | responded n ws hexec =>
    cases (hexec s).symm.trans h
    exact .inl (respond_fault ..)

theorem csrWrite?_queue_fault {c : Csr} {v : Word} {s t : State} (h : csrWrite? c v s = some t) :
    t.queue = s.queue ∧ t.fault = s.fault := by
  rcases csrWrite?_cases h with ⟨-, rfl⟩ | ⟨-, rfl⟩ | ⟨-, rfl⟩ | ⟨-, rfl⟩ | ⟨-, -, rfl⟩ | ⟨-, rfl⟩ | ⟨-, -, rfl⟩ <;>
    exact ⟨rfl, rfl⟩

theorem exec_csrw_queue_fault {idx : BitVec 8} {v : Word} {s t : State} (h : exec (.csrw idx v) s = .next t) :
    t.queue = s.queue ∧ t.fault = s.fault := by
  simp only [exec, execCsrw] at h
  split at h
  · cases h
    exact ⟨reject_queue .., reject_fault ..⟩
  · split at h <;> cases h
    · exact ⟨reject_queue .., reject_fault ..⟩
    next hw =>
      obtain ⟨hq, hf⟩ := csrWrite?_queue_fault hw
      exact ⟨(respond_queue ..).trans hq, (respond_fault ..).trans hf⟩

end Sys2Proof.Machine
end

section
/-! PROOFS. The storage limit (42_playback.md R195), by ENQ and by RX: reached, it stops the block in StorageExhausted; without a
capacity it is not reached. -/

namespace Sys2Proof.Machine

theorem exceeds_eq_true_iff {n : Nat} {cap : Option Nat} : exceeds n cap = true ↔ ∃ k, cap = some k ∧ k < n := by
  cases cap <;> simp [exceeds]

theorem outgrows_eq_true_iff {params : Params} {q : List Chunk} {m : Nat} :
    outgrows params q m = true ↔
      (∃ k, params.storageCap = some k ∧ k < queued q + m) ∨ (∃ k, params.chunkCap = some k ∧ k < q.length + 1) := by
  rw [outgrows, Bool.or_eq_true, exceeds_eq_true_iff, exceeds_eq_true_iff]

theorem outgrows_of_no_caps {params : Params} (hs : params.storageCap = none) (hc : params.chunkCap = none)
    (q : List Chunk) (m : Nat) : outgrows params q m = false := by
  rw [outgrows, hs, hc]
  rfl

theorem exec_rx_of_exhausted {n : BitVec 24} {rin rout : Word} {ws ys : List Word} {s u : State}
    (hr : resampleChecked rin rout ((pcmSamples n.toNat ws).map decodeSample) = .samples ys)
    (he : enqueue ys s = .exhausted u) : exec (.rx n rin rout ws) s = .next u := by
  simp only [exec, execRx, hr, he]

/-- R160, R170: nonzero rates and a length that COUNT can carry pass the checks. -/
theorem resampleChecked_of_resample {rin rout : Word} {x ys : List Word} (hin : rin ≠ 0) (hout : rout ≠ 0)
    (hlen : outLen x.length rin rout ≤ countMax) (hy : resample x rin rout = some ys) :
    resampleChecked rin rout x = .samples ys := by
  rw [resampleChecked, if_neg (not_or.mpr ⟨hin, hout⟩), if_neg hlen.not_gt, hy]

theorem enqueue_of_no_caps (c : List Word) {s : State} (hs : s.params.storageCap = none) (hc : s.params.chunkCap = none) :
    ∃ u count, enqueue c s = .accepted u count ∧ u.fault = s.fault :=
  ⟨_, _, enqueue_of_fits rfl (outgrows_of_no_caps hs hc _ _), countOverflow_fault ..⟩

/-- R195, R280: without a capacity a command leaves the fault field alone, or raises the fault of the index guard. -/
theorem exec_fault_of_no_caps {i : Instr} {s t : State} (hs : s.params.storageCap = none) (hc : s.params.chunkCap = none)
    (h : exec i s = .next t) : t.fault = s.fault ∨ t.fault = some .resampleIndexGuard := by
  cases i with
  | enc n ws => exact (answersFromOperands_enc n ws).fault h
  | dec n ws => exact (answersFromOperands_dec n ws).fault h
  | rsmp n rin rout ws => exact (answersFromOperands_rsmp n rin rout ws).fault h
  | tx n rin rout ws => exact (answersFromOperands_tx n rin rout ws).fault h
  | rx n rin rout ws =>
    simp only [exec, execRx] at h
    split at h
    · cases h
      exact .inl (reject_fault ..)
    · cases h
      exact .inr rfl
    next ys _ =>
      obtain ⟨u, count, he, hu⟩ := enqueue_of_no_caps ys hs hc
      rw [he] at h
      cases h
      exact .inl ((respond_fault ..).trans hu)
  | enq n ws =>
    obtain ⟨u, count, he, hu⟩ := enqueue_of_no_caps ws hs hc
    rw [exec_enq_of_accepted n he] at h
    cases h
    exact .inl ((writeWords_fault ..).trans hu)
  | clear =>
    cases h
    exact .inl (respond_fault ..)
  | csrr idx =>
    simp only [exec, execCsrr] at h
    split at h <;> cases h
    · exact .inl (reject_fault ..)
    · exact .inl (respond_fault ..)
  | csrw idx v => exact .inl (exec_csrw_queue_fault h).2
  | drain n =>
    cases h
    exact .inl ((respond_fault ..).trans (countUnderrun_fault ..))

/-- Settles O42: beyond a capacity the enqueue of either command is exhausted and its state is the answer. -/
theorem storageLimitFaults : Obligations.StorageLimitFaults := by
  refine ⟨fun n ws s plan q hplan hq hcap => ?_, fun n rin rout ws ys s plan q hin hout hwf hlen hy hplan hq hcap => ?_,
    fun i s t hs hc hf hexec hfault => ?_⟩
  · subst hq
    exact ⟨_, exec_enq_of_exhausted n (enqueue_of_outgrows hplan.symm (outgrows_eq_true_iff.mpr hcap)), rfl, rfl, rfl⟩
  · subst hq
    have hchecked := resampleChecked_of_resample hin hout
      (by rwa [List.length_map, pcmSamples_length hwf]) hy
    exact ⟨_, exec_rx_of_exhausted hchecked (enqueue_of_outgrows hplan.symm (outgrows_eq_true_iff.mpr hcap)),
      rfl, rfl, rfl⟩
  · obtain h | h := exec_fault_of_no_caps hs hc hexec <;> rw [h] at hfault
    · rw [hf] at hfault
      cases hfault
    · cases hfault

end Sys2Proof.Machine
end

section
/-! PROOFS. CLEAR (42_playback.md R210), and who reads the policy and the threshold of the queue (R205). -/

namespace Sys2Proof.Machine

theorem exec_clear (s : State) :
    exec .clear s = .next (writeWords .producer [0x00000000] { s with queue := [] }) := rfl

/-- Settles O47: the gauges are read off the emptied queue. -/
theorem clearEmptiesTheQueue : Obligations.ClearEmptiesTheQueue := by
  refine ⟨rfl, rfl, exec_clear, fun s t h => ?_⟩
  have hq : t.queue = [] := by
    cases h
    rfl
  exact ⟨csrValue_qsamples_of_queue_eq_nil hq, csrValue_qchunks_of_queue_eq_nil hq⟩

/-- R205: no word on S writes the policy or the threshold. -/
theorem runPort_sink_policy {s t : State} (h : runPort .sink s = .next t) :
    t.policy = s.policy ∧ t.maxQueued = s.maxQueued := by
  obtain ⟨hf, -⟩ := runPort_cases h
  obtain hrun | ⟨c, k, rest, hrun⟩ | ⟨n, k, rest, hrun⟩ := runPort_sink_cases hf <;> rw [hrun] at h <;> cases h
  · exact ⟨rfl, rfl⟩
  · exact ⟨rfl, rfl⟩
  · exact ⟨countUnderrun_policy .., countUnderrun_maxQueued ..⟩

/-- The state with another policy and threshold. -/
def withThreshold (m v : Word) (s : State) : State := { s with policy := m, maxQueued := v }

theorem respond_withThreshold (m v : Word) (p : Port) (st : Status) (n : Nat) (ws : List Word) (s : State) :
    respond p st n ws (withThreshold m v s) = withThreshold m v (respond p st n ws s) := by
  cases p <;> rfl

theorem reject_withThreshold (m v : Word) (p : Port) (c : BitVec 8) (st : Status) (s : State) :
    reject p c st (withThreshold m v s) = withThreshold m v (reject p c st s) := by
  cases p <;> rfl

theorem countUnderrun_withThreshold (m v : Word) (k : Nat) (s : State) :
    countUnderrun k (withThreshold m v s) = withThreshold m v (countUnderrun k s) := by
  unfold countUnderrun
  split <;> rfl

theorem drain_withThreshold (m v : Word) (n : Nat) (s : State) :
    drain n (withThreshold m v s) = ((drain n s).1, withThreshold m v (drain n s).2) :=
  Prod.ext rfl (countUnderrun_withThreshold m v _ { s with queue := (drainQueue n s.queue).2 })

theorem AnswersFromOperands.withThreshold {i : Instr} (hi : AnswersFromOperands i) (m v : Word) {s t : State}
    (h : exec i s = .next t) : exec i (withThreshold m v s) = .next (withThreshold m v t) := by
  cases hi with
  | rejected st hexec =>
    cases (hexec s).symm.trans h
    exact (hexec _).trans (congrArg _ (reject_withThreshold ..))
  | guarded hexec =>
    cases (hexec s).symm.trans h
    exact hexec _
  | responded n ws hexec =>
    cases (hexec s).symm.trans h
    exact (hexec _).trans (congrArg _ (respond_withThreshold ..))

/-- R205: a command that is no enqueue and no CSR access answers alike under every policy and threshold, which it leaves alone. -/
theorem exec_withThreshold {i : Instr} {s t : State} (m v : Word) (henq : instrOp i ≠ .enq) (hrx : instrOp i ≠ .rx)
    (hcsrr : instrOp i ≠ .csrr) (hcsrw : instrOp i ≠ .csrw) (h : exec i s = .next t) :
    exec i (withThreshold m v s) = .next (withThreshold m v t) := by
  cases i with
  | enc n ws => exact (answersFromOperands_enc n ws).withThreshold m v h
  | dec n ws => exact (answersFromOperands_dec n ws).withThreshold m v h
  | rsmp n rin rout ws => exact (answersFromOperands_rsmp n rin rout ws).withThreshold m v h
  | tx n rin rout ws => exact (answersFromOperands_tx n rin rout ws).withThreshold m v h
  | rx n rin rout ws => exact absurd rfl hrx
  | enq n ws => exact absurd rfl henq
  | clear =>
    cases h
    exact congrArg _ (respond_withThreshold m v _ _ _ _ { s with queue := [] })
  | csrr idx => exact absurd rfl hcsrr
  | csrw idx w => exact absurd rfl hcsrw
  | drain n =>
    cases h
    rw [exec, execDrain, drain_withThreshold, respond_withThreshold]

/-- Settles O53: a CSR write keeps the queue, port S keeps both registers, and the other commands do not read them. -/
theorem policyWritesDropNothing : Obligations.PolicyWritesDropNothing :=
  ⟨fun _ _ _ _ h => (exec_csrw_queue_fault h).1, fun _ _ h => runPort_sink_policy h,
    fun _ _ _ m v henq hrx hcsrr hcsrw h => exec_withThreshold m v henq hrx hcsrr hcsrw h⟩

end Sys2Proof.Machine
end

section
/-! PROOFS. CSRR and CSRW (43_pipeline_and_csr.md R250 to R253): what each answers to a defined, an undefined and a refused index,
the legal values of POLICY and LAST_ERR as ranges, and what becomes of LAST_ERR under every command. -/

namespace Sys2Proof.Machine

/-! ### The answers of the two commands -/

theorem csrIndex_le (c : Csr) : csrIndex c ≤ 0x08#8 := by cases c <;> decide

/-- R29: the indices above 0x08 name no register. -/
theorem csrOfIndex?_of_gt {idx : BitVec 8} (h : 0x08#8 < idx) : csrOfIndex? idx = none := by
  cases hc : csrOfIndex? idx with
  | none => rfl
  | some c =>
    rw [← csrIndex_of_csrOfIndex? hc] at h
    exact absurd (csrIndex_le c) (BitVec.not_le.mpr h)

theorem exec_csrr_csrIndex (c : Csr) (s : State) :
    exec (.csrr (csrIndex c)) s = .next (writeWords .producer [0x00000001, csrValue c s] s) := by
  rw [exec, execCsrr, csrOfIndex?_csrIndex]
  rfl

/-- R251. -/
theorem exec_csrr_of_undefined {idx : BitVec 8} (s : State) (h : csrOfIndex? idx = none) :
    exec (.csrr idx) s = .next (writeWords .producer [0x03000000] { s with lastErr := 0x00000803 }) := by
  rw [exec, execCsrr, h]
  rfl

/-- R253. -/
theorem exec_csrw_of_undefined {idx : BitVec 8} (v : Word) (s : State) (h : csrOfIndex? idx = none) :
    exec (.csrw idx v) s = .next (writeWords .producer [0x03000000] { s with lastErr := 0x00000903 }) := by
  rw [exec, execCsrw, h]
  rfl

theorem exec_csrw_of_refused {c : Csr} {v : Word} {s : State} (h : csrWrite? c v s = none) :
    exec (.csrw (csrIndex c) v) s = .next (writeWords .producer [0x03000000] { s with lastErr := 0x00000903 }) := by
  simp only [exec, execCsrw, csrOfIndex?_csrIndex, h]
  rfl

theorem exec_csrw_of_accepted {c : Csr} {v : Word} {s u : State} (h : csrWrite? c v s = some u) :
    exec (.csrw (csrIndex c) v) s = .next (writeWords .producer [0x00000000] u) := by
  simp only [exec, execCsrw, csrOfIndex?_csrIndex, h]
  rfl

/-- Settles O51: a defined index reads its register, an index above 0x08 names none, and the example reads MAX_QUEUED's reset
value. -/
theorem csrrCommand : Obligations.CsrrCommand :=
  ⟨fun _ => ⟨rfl, rfl⟩,
    fun s => ⟨exec_csrr_csrIndex .qsamples s, exec_csrr_csrIndex .qchunks s, exec_csrr_csrIndex .underruns s,
      exec_csrr_csrIndex .silence s, exec_csrr_csrIndex .overflows s, exec_csrr_csrIndex .dropped s,
      exec_csrr_csrIndex .policy s, exec_csrr_csrIndex .maxQueued s, exec_csrr_csrIndex .lastErr s⟩,
    fun _ s h => exec_csrr_of_undefined s (csrOfIndex?_of_gt h), by decide, exec_csrr_csrIndex .maxQueued State.reset⟩

/-! ### The legal values of POLICY and LAST_ERR -/

/-- R36: POLICY takes the modes 0, 1 and 2 and no other word. -/
theorem policyAccepts_iff {v : Word} : policyAccepts v = true ↔ v < 3#32 := by
  rw [policyAccepts, policyMode, Bool.and_eq_true, beq_iff_eq, bne_iff_ne, ← BitVec.toNat_inj, ne_eq, ← BitVec.toNat_inj,
    BitVec.lt_def]
  simp only [BitVec.extractLsb'_toNat, BitVec.toNat_ofNat, Nat.shiftRight_eq_div_pow]
  have := v.isLt
  omega

/-- R38: LAST_ERR takes the words with the bits [31:17] zero. -/
theorem lastErrAccepts_iff {v : Word} : lastErrAccepts v = true ↔ v < 0x20000#32 := by
  rw [lastErrAccepts, beq_iff_eq, ← BitVec.toNat_inj, BitVec.lt_def]
  simp only [BitVec.extractLsb'_toNat, BitVec.toNat_ofNat, Nat.shiftRight_eq_div_pow]
  have := v.isLt
  omega

theorem csrWrite?_policy_of_lt {v : Word} (s : State) (h : v < 3#32) :
    csrWrite? .policy v s = some { s with policy := v } := if_pos (policyAccepts_iff.mpr h)

theorem csrWrite?_policy_of_ge {v : Word} (s : State) (h : 3#32 ≤ v) : csrWrite? .policy v s = none :=
  if_neg fun ha => BitVec.not_lt.mpr h (policyAccepts_iff.mp ha)

theorem csrWrite?_lastErr_of_lt {v : Word} (s : State) (h : v < 0x20000#32) :
    csrWrite? .lastErr v s = some { s with lastErr := v } := if_pos (lastErrAccepts_iff.mpr h)

theorem csrWrite?_lastErr_of_ge {v : Word} (s : State) (h : 0x20000#32 ≤ v) : csrWrite? .lastErr v s = none :=
  if_neg fun ha => BitVec.not_lt.mpr h (lastErrAccepts_iff.mp ha)

/-! ### LAST_ERR under every command -/

/-- R275: LAST_ERR names the opcode in [15:8]. -/
theorem extractLsb'_errorWord_opcode (p : Port) (c : BitVec 8) (st : Status) : (errorWord p c st).extractLsb' 8 8 = c :=
  (BitVec.extractLsb'_append_eq_of_le (xhi := 0#15 ++ portBit p ++ c) (xlo := statusCode st) (start := 8) le_rfl).trans
    BitVec.extractLsb'_append_eq_right

/-- R275: the record of a rejected command names its opcode, so it is not the zero that says there was no rejection. -/
theorem errorWord_opCode_ne_zero (p : Port) (op : Op) (st : Status) : errorWord p (opCode op) st ≠ 0 := by
  intro hzero
  obtain ⟨hlo, -⟩ := opCode_bounds op
  rw [← extractLsb'_errorWord_opcode p (opCode op) st, hzero] at hlo
  exact absurd hlo (by decide)

/-- What a command leaves in LAST_ERR: what was there, a rejection's record, or what a CSRW of LAST_ERR put there. -/
inductive LastErrAfter (i : Instr) (s t : State) : Prop
  | kept (h : t.lastErr = s.lastErr)
  | recorded (p : Port) (op : Op) (st : Status) (h : t.lastErr = errorWord p (opCode op) st)
  | written (h : i = .csrw 0x08 t.lastErr)

theorem AnswersFromOperands.lastErrAfter {i : Instr} (hi : AnswersFromOperands i) {s t : State}
    (h : exec i s = .next t) : LastErrAfter i s t := by
  cases hi with
  | rejected st hexec =>
    cases (hexec s).symm.trans h
    exact .recorded _ _ st (reject_lastErr ..)
  | guarded hexec =>
    cases (hexec s).symm.trans h
    exact .kept rfl
  | responded n ws hexec =>
    cases (hexec s).symm.trans h
    exact .kept (respond_lastErr ..)

theorem enqueue_accepted_lastErr {c : List Word} {s u : State} {n : Nat} (h : enqueue c s = .accepted u n) :
    u.lastErr = s.lastErr := by
  obtain ⟨-, he⟩ | ⟨-, he⟩ := enqueue_cases c s <;> rw [he] at h <;> cases h
  exact countOverflow_lastErr ..

theorem enqueue_exhausted_lastErr {c : List Word} {s u : State} (h : enqueue c s = .exhausted u) :
    u.lastErr = s.lastErr := by
  obtain ⟨-, he⟩ | ⟨-, he⟩ := enqueue_cases c s <;> rw [he] at h <;> cases h
  rfl

theorem csrWrite?_lastErr {c : Csr} {v : Word} {s u : State} (h : csrWrite? c v s = some u) :
    u.lastErr = s.lastErr ∨ (c = .lastErr ∧ u.lastErr = v) := by
  rcases csrWrite?_cases h with ⟨-, rfl⟩ | ⟨-, rfl⟩ | ⟨-, rfl⟩ | ⟨-, rfl⟩ | ⟨-, -, rfl⟩ | ⟨-, rfl⟩ | ⟨hc, -, rfl⟩
  on_goal 7 => exact .inr ⟨hc, rfl⟩
  all_goals exact .inl rfl

theorem lastErrAfter_csrr {idx : BitVec 8} {s t : State} (h : exec (.csrr idx) s = .next t) :
    LastErrAfter (.csrr idx) s t := by
  cases hidx : csrOfIndex? idx with
  | none =>
    rw [exec_csrr_of_undefined s hidx] at h
    cases h
    exact .recorded .producer .csrr .illegalCsr rfl
  | some c =>
    obtain rfl := csrIndex_of_csrOfIndex? hidx
    rw [exec_csrr_csrIndex] at h
    cases h
    exact .kept (writeWords_lastErr ..)

theorem lastErrAfter_csrw {idx : BitVec 8} {v : Word} {s t : State} (h : exec (.csrw idx v) s = .next t) :
    LastErrAfter (.csrw idx v) s t := by
  cases hidx : csrOfIndex? idx with
  | none =>
    rw [exec_csrw_of_undefined v s hidx] at h
    cases h
    exact .recorded .producer .csrw .illegalCsr rfl
  | some c =>
    obtain rfl := csrIndex_of_csrOfIndex? hidx
    cases hw : csrWrite? c v s with
    | none =>
      rw [exec_csrw_of_refused hw] at h
      cases h
      exact .recorded .producer .csrw .illegalCsr rfl
    | some u =>
      rw [exec_csrw_of_accepted hw] at h
      cases h
      obtain hkept | ⟨rfl, hv⟩ := csrWrite?_lastErr hw
      · exact .kept ((writeWords_lastErr ..).trans hkept)
      · exact .written (by rw [writeWords_lastErr, hv]; rfl)

theorem exec_lastErrAfter {i : Instr} {s t : State} (h : exec i s = .next t) : LastErrAfter i s t := by
  cases i with
  | enc n ws => exact (answersFromOperands_enc n ws).lastErrAfter h
  | dec n ws => exact (answersFromOperands_dec n ws).lastErrAfter h
  | rsmp n rin rout ws => exact (answersFromOperands_rsmp n rin rout ws).lastErrAfter h
  | tx n rin rout ws => exact (answersFromOperands_tx n rin rout ws).lastErrAfter h
  | rx n rin rout ws =>
    simp only [exec, execRx] at h
    split at h
    next st _ =>
      cases h
      exact .recorded _ _ st (reject_lastErr ..)
    next =>
      cases h
      exact .kept rfl
    next =>
      split at h <;> cases h
      next he => exact .kept (enqueue_exhausted_lastErr he)
      next he => exact .kept ((respond_lastErr ..).trans (enqueue_accepted_lastErr he))
  | enq n ws =>
    simp only [exec, execEnq] at h
    split at h <;> cases h
    next he => exact .kept (enqueue_exhausted_lastErr he)
    next he => exact .kept ((respond_lastErr ..).trans (enqueue_accepted_lastErr he))
  | clear =>
    cases h
    exact .kept (respond_lastErr ..)
  | csrr idx => exact lastErrAfter_csrr h
  | csrw idx v => exact lastErrAfter_csrw h
  | drain n =>
    cases h
    exact .kept ((respond_lastErr ..).trans (countUnderrun_lastErr ..))

/-- R252, R275: only a CSRW of LAST_ERR with the value 0 clears it. -/
theorem eq_csrw_of_lastErr_cleared {i : Instr} {s t : State} (h : exec i s = .next t) (hs : s.lastErr ≠ 0)
    (ht : t.lastErr = 0) : i = .csrw 0x08 0 := by
  cases exec_lastErrAfter h with
  | kept hkept => exact absurd (hkept.symm.trans ht) hs
  | recorded p op st hrec => exact absurd (hrec.symm.trans ht) (errorWord_opCode_ne_zero p op st)
  | written hi => rw [hi, ht]

/-- Settles O52: each register by the outcome of its write, the undefined indices by R29, and LAST_ERR under the other commands
by `exec_lastErrAfter`. -/
theorem csrwCommand : Obligations.CsrwCommand := by
  refine ⟨fun _ _ => ⟨rfl, rfl⟩,
    fun v s => ⟨exec_csrw_of_accepted (c := .underruns) rfl, exec_csrw_of_accepted (c := .silence) rfl,
      exec_csrw_of_accepted (c := .overflows) rfl, exec_csrw_of_accepted (c := .dropped) rfl,
      exec_csrw_of_accepted (c := .maxQueued) rfl,
      fun h => exec_csrw_of_accepted (csrWrite?_policy_of_lt s h),
      fun h => exec_csrw_of_accepted (csrWrite?_lastErr_of_lt s h),
      fun h => exec_csrw_of_refused (csrWrite?_policy_of_ge s h),
      fun h => exec_csrw_of_refused (csrWrite?_lastErr_of_ge s h)⟩,
    fun idx v s hidx => ?_, by decide, fun s t h => ?_, fun _ _ _ h => eq_csrw_of_lastErr_cleared h⟩
  · obtain rfl | rfl | hgt := hidx
    · exact exec_csrw_of_refused (c := .qsamples) rfl
    · exact exec_csrw_of_refused (c := .qchunks) rfl
    · exact exec_csrw_of_undefined v s (csrOfIndex?_of_gt hgt)
  · cases (exec_csrw_of_accepted (csrWrite?_policy_of_lt s (by decide))).symm.trans h
    rfl

end Sys2Proof.Machine
end

section
/-! PROOFS. How a command ends (60_exceptions.md R270, R274, R280): the status it answers with, a function of its operands, and
the two model faults with their causes. -/

namespace Sys2Proof.Machine

/-! ### The status of a command -/

/-- The status that an outcome of the shared checks answers with; the index guard answers nothing (R280). -/
def Resampled.status : Resampled → Status
  | .rejected st => st
  | .guard => .ok
  | .samples _ => .ok

/-- R252, R253: what CSRW rejects. -/
abbrev CsrwRefuses (idx : BitVec 8) (v : Word) : Prop :=
  0x08#8 < idx ∨ idx ≤ 0x01#8 ∨ (idx = 0x06#8 ∧ 3#32 ≤ v) ∨ (idx = 0x08#8 ∧ 0x20000#32 ≤ v)

/-- The status of a command's response (R270), if it answers. -/
def commandStatus : Instr → Status
  | .rsmp _ rin rout ws => (resampleChecked rin rout ws).status
  | .tx _ rin rout ws => (resampleChecked rin rout ws).status
  | .rx n rin rout ws => (resampleChecked rin rout ((pcmSamples n.toNat ws).map decodeSample)).status
  | .csrr idx => if 0x08#8 < idx then .illegalCsr else .ok
  | .csrw idx v => if CsrwRefuses idx v then .illegalCsr else .ok
  | .enc _ _ => .ok
  | .dec _ _ => .ok
  | .enq _ _ => .ok
  | .clear => .ok
  | .drain _ => .ok

/-- R273: the rates are checked before the length of the result. -/
theorem statusCode_resampleChecked (rin rout : Word) {x : List Word} {len : Nat} (hlen : x.length = len) :
    statusCode (resampleChecked rin rout x).status =
      if rin = 0 ∨ rout = 0 then 0x01#8 else if countMax < outLen len rin rout then 0x04#8 else 0x00#8 := by
  subst hlen
  obtain ⟨hz, hr⟩ | ⟨hin, hout, hM, hr⟩ | ⟨hin, hout, hM, -, hr⟩ | ⟨hin, hout, hM, ys, -, hr⟩ :=
    resampleChecked_cases rin rout x <;> rw [hr]
  · rw [if_pos hz]
    rfl
  · rw [if_neg (not_or.mpr ⟨hin, hout⟩), if_pos hM]
    rfl
  all_goals
    rw [if_neg (not_or.mpr ⟨hin, hout⟩), if_neg hM.not_gt]
    rfl

/-- R29: the indices that name a register are those up to 0x08. -/
theorem csrOfIndex?_eq_none_iff {idx : BitVec 8} : csrOfIndex? idx = none ↔ 0x08#8 < idx := by
  have hdefined : ∀ idx : BitVec 8, idx ≤ 0x08#8 → csrOfIndex? idx ≠ none := by decide
  exact ⟨fun h => BitVec.not_le.mp fun hle => hdefined idx hle h, csrOfIndex?_of_gt⟩

/-- R252, R253: a write of a defined register is refused for these indices and values, whatever the state. -/
theorem csrWrite?_eq_none_iff {c : Csr} {v : Word} {s : State} :
    csrWrite? c v s = none ↔ CsrwRefuses (csrIndex c) v := by
  cases c with
  | policy => simp [csrWrite?, CsrwRefuses, csrIndex, policyAccepts_iff]
  | lastErr => simp [csrWrite?, CsrwRefuses, csrIndex, lastErrAccepts_iff]
  | qsamples | qchunks | underruns | silence | overflows | dropped | maxQueued =>
    simp [csrWrite?, CsrwRefuses, csrIndex]

/-! ### The ends of a command -/

/-- The commands that resample, with their rates and the samples they resample (R170, R240, R243). -/
inductive Resamples : Instr → Word → Word → List Word → Prop
  | rsmp (n : BitVec 24) (rin rout : Word) (ws : List Word) : Resamples (.rsmp n rin rout ws) rin rout ws
  | tx (n : BitVec 24) (rin rout : Word) (ws : List Word) : Resamples (.tx n rin rout ws) rin rout ws
  | rx (n : BitVec 24) (rin rout : Word) (ws : List Word) :
    Resamples (.rx n rin rout ws) rin rout ((pcmSamples n.toNat ws).map decodeSample)

/-- The commands that enqueue, with the chunk they enqueue (R192, R243). -/
inductive Enqueues : Instr → List Word → Prop
  | enq (n : BitVec 24) (c : List Word) : Enqueues (.enq n c) c
  | rx (n : BitVec 24) (rin rout : Word) (ws c : List Word)
    (h : resample ((pcmSamples n.toNat ws).map decodeSample) rin rout = some c) : Enqueues (.rx n rin rout ws) c

/-- How a command ends: rejected with its status, in one of the two model faults, or with an OK response after its work on the
rest of the state (`u`). -/
inductive Ending (i : Instr) (s : State) : State → Prop
  | rejected (st : Status) (hst : commandStatus i = st) (hne : st ≠ .ok) :
    Ending i s (reject (instrPort i) (opCode (instrOp i)) st s)
  | exhausted (c : List Word) (u : State) (hc : Enqueues i c) (he : enqueue c s = .exhausted u) : Ending i s u
  | guarded (rin rout : Word) (x : List Word) (hx : Resamples i rin rout x)
    (hg : resampleChecked rin rout x = .guard) : Ending i s (raiseFault .resampleIndexGuard s)
  | responded (n : Nat) (ws : List Word) (u : State) (hst : commandStatus i = .ok) (hports : SamePorts s u)
    (hfault : u.fault = s.fault) : Ending i s (respond (instrPort i) .ok n ws u)

theorem resample_of_samples {rin rout : Word} {x ys : List Word} (h : resampleChecked rin rout x = .samples ys) :
    resample x rin rout = some ys := by
  obtain ⟨-, hr⟩ | ⟨-, -, -, hr⟩ | ⟨-, -, -, -, hr⟩ | ⟨-, -, -, zs, hz, hr⟩ := resampleChecked_cases rin rout x <;>
    rw [hr] at h <;> cases h
  exact hz

theorem enqueue_accepted_fault {c : List Word} {s u : State} {n : Nat} (h : enqueue c s = .accepted u n) :
    u.fault = s.fault := by
  obtain ⟨-, he⟩ | ⟨-, he⟩ := enqueue_cases c s <;> rw [he] at h <;> cases h
  exact countOverflow_fault ..

theorem execRsmp_ending {n : BitVec 24} {rin rout : Word} {ws : List Word} {s t : State}
    (h : execRsmp n rin rout ws s = .next t) : Ending (.rsmp n rin rout ws) s t := by
  unfold execRsmp at h
  split at h <;> cases h
  next st hr => exact .rejected st (congrArg Resampled.status hr) (resampleChecked_rejected hr)
  next hr => exact .guarded _ _ _ (.rsmp ..) hr
  next ys hr => exact .responded _ _ s (congrArg Resampled.status hr) (samePorts_refl s) rfl

theorem execTx_ending {n : BitVec 24} {rin rout : Word} {ws : List Word} {s t : State}
    (h : execTx n rin rout ws s = .next t) : Ending (.tx n rin rout ws) s t := by
  unfold execTx at h
  split at h <;> cases h
  next st hr => exact .rejected st (congrArg Resampled.status hr) (resampleChecked_rejected hr)
  next hr => exact .guarded _ _ _ (.tx ..) hr
  next ys hr => exact .responded _ _ s (congrArg Resampled.status hr) (samePorts_refl s) rfl

theorem execRx_ending {n : BitVec 24} {rin rout : Word} {ws : List Word} {s t : State}
    (h : execRx n rin rout ws s = .next t) : Ending (.rx n rin rout ws) s t := by
  unfold execRx at h
  split at h
  next st hr =>
    cases h
    exact .rejected st (congrArg Resampled.status hr) (resampleChecked_rejected hr)
  next hr =>
    cases h
    exact .guarded _ _ _ (.rx ..) hr
  next ys hr =>
    split at h <;> cases h
    next he => exact .exhausted ys _ (.rx _ _ _ _ _ (resample_of_samples hr)) he
    next u _ he =>
      exact .responded _ _ u (congrArg Resampled.status hr) (enqueue_accepted he).1 (enqueue_accepted_fault he)

theorem execEnq_ending {n : BitVec 24} {ws : List Word} {s t : State} (h : execEnq n ws s = .next t) :
    Ending (.enq n ws) s t := by
  unfold execEnq at h
  split at h <;> cases h
  next he => exact .exhausted ws _ (.enq n ws) he
  next u _ he => exact .responded _ _ u rfl (enqueue_accepted he).1 (enqueue_accepted_fault he)

theorem execCsrr_ending {idx : BitVec 8} {s t : State} (h : execCsrr idx s = .next t) : Ending (.csrr idx) s t := by
  unfold execCsrr at h
  split at h <;> cases h
  next hidx => exact .rejected .illegalCsr (if_pos (csrOfIndex?_eq_none_iff.mp hidx)) (by decide)
  next c hidx =>
    refine .responded _ _ s (if_neg fun hgt => ?_) (samePorts_refl s) rfl
    rw [csrOfIndex?_of_gt hgt] at hidx
    cases hidx

theorem execCsrw_ending {idx : BitVec 8} {v : Word} {s t : State} (h : execCsrw idx v s = .next t) :
    Ending (.csrw idx v) s t := by
  unfold execCsrw at h
  split at h
  next hidx =>
    cases h
    exact .rejected .illegalCsr (if_pos (.inl (csrOfIndex?_eq_none_iff.mp hidx))) (by decide)
  next c hidx =>
    obtain rfl := csrIndex_of_csrOfIndex? hidx
    split at h <;> cases h
    next hw => exact .rejected .illegalCsr (if_pos (csrWrite?_eq_none_iff.mp hw)) (by decide)
    next u hw =>
      refine .responded _ _ u (if_neg fun href => ?_) (samePorts_csrWrite? hw) (csrWrite?_queue_fault hw).2
      rw [csrWrite?_eq_none_iff.mpr href] at hw
      cases hw

/-- Every command that answers a next state ends in one of these ways, well formed or not. -/
theorem exec_ending {i : Instr} {s t : State} (h : exec i s = .next t) : Ending i s t := by
  cases i with
  | enc n ws =>
    cases h
    exact .responded _ _ s rfl (samePorts_refl s) rfl
  | dec n ws =>
    cases h
    exact .responded _ _ s rfl (samePorts_refl s) rfl
  | rsmp n rin rout ws => exact execRsmp_ending h
  | tx n rin rout ws => exact execTx_ending h
  | rx n rin rout ws => exact execRx_ending h
  | enq n ws => exact execEnq_ending h
  | clear =>
    cases h
    exact .responded 0 [] { s with queue := [] } rfl (samePorts_of_fields rfl rfl) rfl
  | csrr idx => exact execCsrr_ending h
  | csrw idx v => exact execCsrw_ending h
  | drain n =>
    cases h
    exact .responded _ _ _ rfl (samePorts_drain n.toNat s) (countUnderrun_fault ..)

end Sys2Proof.Machine
end

section
/-! PROOFS. The response of a port's step (60_exceptions.md R270, R274, R275): its status and, for a rejection, the whole next
state. -/

namespace Sys2Proof.Machine

/-! ### The fields of a record and of a response header -/

/-- R275: LAST_ERR holds the status in [7:0]. -/
theorem extractLsb'_errorWord_status (p : Port) (c : BitVec 8) (st : Status) :
    (errorWord p c st).extractLsb' 0 8 = statusCode st := BitVec.extractLsb'_append_eq_right

/-- R275: LAST_ERR holds the port in bit 16, above the opcode and the status. -/
theorem extractLsb'_errorWord_port (p : Port) (c : BitVec 8) (st : Status) :
    (errorWord p c st).extractLsb' 16 1 = portBit p := by
  rw [errorWord, BitVec.extractLsb'_append_eq_of_le (by decide), BitVec.extractLsb'_append_eq_of_le (by decide)]
  exact BitVec.extractLsb'_append_eq_right

/-- R275: LAST_ERR holds zeros in [31:17]. -/
theorem extractLsb'_errorWord_zeros (p : Port) (c : BitVec 8) (st : Status) :
    (errorWord p c st).extractLsb' 17 15 = 0 := by
  rw [errorWord, BitVec.extractLsb'_append_eq_of_le (by decide), BitVec.extractLsb'_append_eq_of_le (by decide)]
  exact BitVec.extractLsb'_append_eq_left

theorem extractLsb'_responseHeader_status (st : Status) (count : BitVec 24) :
    (responseHeader st count).extractLsb' 24 8 = statusCode st := headerOp_append ..

theorem extractLsb'_responseHeader_count (st : Status) (count : BitVec 24) :
    (responseHeader st count).extractLsb' 0 24 = count := headerArg_append ..

/-- R275: what a rejection leaves of the state and of LAST_ERR, in the fields of its response word `responseHeader st 0`. -/
theorem reject_takeWords_record {p : Port} {c : BitVec 8} {st : Status} {k : Nat} {rest : List Word} {s t : State}
    (h : t = reject p c st (takeWords p k rest s)) :
    t = answered p k rest [responseHeader st 0] { s with lastErr := t.lastErr } ∧
      t.lastErr.extractLsb' 0 8 = statusCode st ∧ t.lastErr.extractLsb' 8 8 = c ∧
      t.lastErr.extractLsb' 16 1 = portBit p ∧ t.lastErr.extractLsb' 17 15 = 0#15 := by
  have herr : t.lastErr = errorWord p c st := by rw [h, reject_lastErr]
  rw [herr]
  exact ⟨h.trans (reject_takeWords ..), extractLsb'_errorWord_status .., extractLsb'_errorWord_opcode ..,
    extractLsb'_errorWord_port .., extractLsb'_errorWord_zeros ..⟩

/-! ### Port steps that respond -/

/-- R91, R106: the opcode of a decoded command stands in its header, the first word of the stream. -/
theorem decode_command_front {p : Port} {ws rest : List Word} {i : Instr} (hd : decode p ws = .command i rest) :
    ∃ h tl, ws = h :: tl ∧ headerOp h = opCode (instrOp i) ∧ instrPort i = p ∧
      rest = (h :: tl).drop (commandWords i) := by
  obtain ⟨h, tl, op, rfl, hok, -, hi, -⟩ := decode_command hd
  obtain ⟨hop, -, -⟩ := checkHeader_ok hok
  obtain ⟨-, -, hport, -, hrest⟩ := commandWords_of_decode hd
  exact ⟨h, tl, rfl, by rw [hop, hi, instrOp_assemble], hport, hrest⟩

/-- The words appended to a list are determined by the result. -/
theorem cons_eq_of_append_eq {a b : List Word} {v w : Word} {us ws : List Word} (hb : b = a ++ v :: us)
    (h : b = a ++ w :: ws) : w = v ∧ ws = us := by
  obtain ⟨rfl, rfl⟩ := List.cons.inj (List.append_cancel_left (h.symm.trans hb))
  exact ⟨rfl, rfl⟩

/-- A response of a port rejects a header that is no command, rejects a command with the command's status, or is the OK response
of a command. -/
theorem runPort_response {p : Port} {s t : State} {w : Word} {ws : List Word} (hrun : runPort p s = .next t)
    (hout : (portOf p t).output = (portOf p s).output ++ w :: ws) :
    (∃ e h rest, decode p (portOf p s).input = .illegal e h rest ∧ w = responseHeader .illegalCommand 0 ∧ ws = [] ∧
      t = reject p (headerOp h) .illegalCommand (takeWords p 1 rest s)) ∨
    (∃ i rest, decode p (portOf p s).input = .command i rest ∧ w = responseHeader (commandStatus i) 0 ∧ ws = [] ∧
      t = reject p (opCode (instrOp i)) (commandStatus i) (takeWords p (commandWords i) rest s)) ∨
    ∃ i rest count, decode p (portOf p s).input = .command i rest ∧ commandStatus i = .ok ∧
      w = responseHeader .ok count := by
  obtain ⟨-, ⟨-, rfl⟩ | ⟨e, h, rest, hd, rfl⟩ | ⟨i, rest, hd, hexec⟩⟩ := runPort_cases hrun
  · exact absurd hout (by simp)
  · obtain ⟨hw, hws⟩ := cons_eq_of_append_eq (by rw [portOf_reject, portOf_takeWords]) hout
    exact .inl ⟨e, h, rest, hd, hw, hws, rfl⟩
  · obtain ⟨-, -, -, -, rfl, -⟩ := decode_command_front hd
    cases exec_ending hexec with
    | rejected st hst hne =>
      obtain ⟨hw, hws⟩ := cons_eq_of_append_eq (by rw [portOf_reject, portOf_takeWords]) hout
      subst hst
      exact .inr (.inl ⟨i, rest, hd, hw, hws, rfl⟩)
    | exhausted c u hc he =>
      obtain ⟨v, hports, rfl⟩ := enqueue_exhausted he
      rw [portOf_raiseFault, hports, portOf_takeWords] at hout
      exact absurd hout (by simp)
    | guarded rin rout x hx hg => exact absurd hout (by simp)
    | responded n us u hst hports hfault =>
      obtain ⟨hw, -⟩ := cons_eq_of_append_eq (by rw [portOf_respond, hports, portOf_takeWords]) hout
      exact .inr (.inr ⟨i, rest, _, hd, hst, hw⟩)

/-- R102, R270: no command answers ILLEGAL_COMMAND. -/
theorem statusCode_commandStatus_ne (i : Instr) : statusCode (commandStatus i) ≠ 0x02#8 := by
  have hok : statusCode .ok ≠ 0x02#8 := by decide
  have hchecked (rin rout : Word) (x : List Word) : statusCode (resampleChecked rin rout x).status ≠ 0x02#8 := by
    rw [statusCode_resampleChecked rin rout rfl]
    split_ifs <;> decide
  cases i with
  | rsmp | tx | rx => exact hchecked _ _ _
  | csrr | csrw =>
    simp only [commandStatus]
    split <;> decide
  | enc | dec | enq | clear | drain => exact hok

/-- Settles O55: the two rejections of `runPort_response` leave the record of `reject_takeWords_record`, after the words each
takes. -/
theorem rejectionIsPrecise : Obligations.RejectionIsPrecise := by
  intro p s t w ws hrun hout hne
  obtain ⟨e, h, rest, hd, rfl, rfl, ht⟩ | ⟨i, rest, hd, rfl, rfl, ht⟩ | ⟨i, rest, count, hd, hok, rfl⟩ :=
    runPort_response hrun hout
  · obtain ⟨hin, -⟩ := decode_illegal hd
    have hcode : statusCode .illegalCommand = 0x02#8 := rfl
    refine ⟨rfl, extractLsb'_responseHeader_count .., h, rest, 1, hin, ?_⟩
    rw [extractLsb'_responseHeader_status, if_pos hcode]
    exact ⟨rfl, reject_takeWords_record ht⟩
  · obtain ⟨h, tl, hin, hop, -, rfl⟩ := decode_command_front hd
    rw [hin] at hd
    refine ⟨rfl, extractLsb'_responseHeader_count .., h, tl, commandWords i, hin, ?_⟩
    rw [extractLsb'_responseHeader_status, if_neg (statusCode_commandStatus_ne i), ← headerOp, hop]
    exact ⟨⟨i, _, hd, rfl⟩, reject_takeWords_record ht⟩
  · rw [extractLsb'_responseHeader_status] at hne
    exact absurd rfl hne

/-- R95: a decoded command has the payload its header announces. -/
theorem wellFormed_of_decode {p : Port} {ws rest : List Word} {i : Instr} (hd : decode p ws = .command i rest) :
    i.WellFormed := by
  obtain ⟨h, tl, op, -, -, hle, rfl, -⟩ := decode_command hd
  have hlen := List.length_take_of_le hle
  cases op with
  | enc | dec | enq => exact hlen
  | clear | csrr | csrw | drain => trivial
  | rsmp | tx | rx => exact List.length_drop.trans (Nat.sub_eq_of_eq_add' hlen)

/-- R270: the status of a response is ILLEGAL_COMMAND, of a header that is no command, or the decoded command's own. -/
theorem runPort_status {p : Port} {s t : State} {w : Word} {ws : List Word} (hrun : runPort p s = .next t)
    (hout : (portOf p t).output = (portOf p s).output ++ w :: ws) :
    (∃ e h rest, decode p (portOf p s).input = .illegal e h rest ∧ w.extractLsb' 24 8 = 0x02#8) ∨
    ∃ i rest, decode p (portOf p s).input = .command i rest ∧ w.extractLsb' 24 8 = statusCode (commandStatus i) := by
  obtain ⟨e, h, rest, hd, rfl, -⟩ | ⟨i, rest, hd, rfl, -⟩ | ⟨i, rest, count, hd, hok, rfl⟩ := runPort_response hrun hout
  · exact .inl ⟨e, h, rest, hd, extractLsb'_responseHeader_status ..⟩
  · exact .inr ⟨i, rest, hd, extractLsb'_responseHeader_status ..⟩
  · exact .inr ⟨i, rest, hd, hok ▸ extractLsb'_responseHeader_status ..⟩

/-- Settles O56: the causes of a command's own status are those of `commandStatus`, and a decoded command has as many samples as
its header says; a header with DRAIN's opcode passes the checks on S. -/
theorem statusCodesAndTheirCauses : Obligations.StatusCodesAndTheirCauses := by
  refine ⟨fun p s t w ws hrun hout => ?_, fun n rest => ?_⟩
  · obtain ⟨e, h, rest, hd, hw⟩ | ⟨i, rest, hd, hw⟩ := runPort_status hrun hout <;> rw [hd]
    · exact hw
    · have hwf := wellFormed_of_decode hd
      cases i with
      | enc | dec | enq | clear | drain => exact hw
      | rsmp n rin rout us | tx n rin rout us => exact hw.trans (statusCode_resampleChecked rin rout hwf)
      | rx n rin rout us =>
        exact hw.trans (statusCode_resampleChecked rin rout ((List.length_map _).trans (pcmSamples_length hwf)))
      | csrr | csrw => exact hw.trans (apply_ite ..)
  · have hheader : checkHeader .sink (0x0A#8 ++ n) = .ok .drain := Laws.Header.drain n
    simp only [decode, hheader, operandCount, assemble, headerArg_append]
    rfl

end Sys2Proof.Machine
end

section
/-! PROOFS. The model faults (60_exceptions.md R280): their causes, read off the ends of a command, and that only reset ends
one. -/

namespace Sys2Proof.Machine

/-- R166: the index guard fires at an output index that the resampling asks for. -/
theorem exists_index_of_guard {rin rout : Word} {x : List Word} (h : resampleChecked rin rout x = .guard) :
    ∃ j, j < outLen x.length rin rout ∧ x.length ≤ floorNat (samplePos (rateRatio rin rout) j) := by
  obtain ⟨-, hr⟩ | ⟨-, -, -, hr⟩ | ⟨-, -, -, hnone, -⟩ | ⟨-, -, -, ys, -, hr⟩ := resampleChecked_cases rin rout x
  case inr.inr.inl =>
    have hne : rin ≠ rout := by
      rintro rfl
      rw [resample, resampleWith_self] at hnone
      cases hnone
    rw [resample, resampleWith_of_ne _ _ hne] at hnone
    obtain ⟨ys, hys, -⟩ | ⟨-, j, hj, hguard⟩ := interpolateFrom_cases x (rateRatio rin rout) (Config.nanDraw x rin rout) 0
      (outLen x.length rin rout)
    · rw [hys] at hnone
      cases hnone
    · rw [Nat.zero_add, interpolate_eq_none_iff] at hguard
      exact ⟨j, hj, hguard⟩
  all_goals
    rw [hr] at h
    cases h

/-- A command that raises a model fault enqueues a chunk that outgrows the storage, or resamples with an index beyond its input;
it writes on neither port (R280). -/
theorem exec_faulted {i : Instr} {s t : State} {f : ModelFault} (hs : s.fault = none) (h : exec i s = .next t)
    (ht : t.fault = some f) :
    SamePorts s t ∧
      ((f = .storageExhausted ∧ ∃ c u, Enqueues i c ∧ enqueue c s = .exhausted u) ∨
       (f = .resampleIndexGuard ∧ ∃ rin rout x, Resamples i rin rout x ∧ resampleChecked rin rout x = .guard)) := by
  cases exec_ending h with
  | rejected st hst hne =>
    rw [reject_fault, hs] at ht
    cases ht
  | exhausted c u hc he =>
    obtain ⟨v, hports, rfl⟩ := enqueue_exhausted he
    cases ht
    exact ⟨fun q => (portOf_raiseFault ..).trans (hports q), .inl ⟨rfl, c, _, hc, he⟩⟩
  | guarded rin rout x hx hg =>
    cases ht
    exact ⟨fun q => portOf_raiseFault .., .inr ⟨rfl, rin, rout, x, hx, hg⟩⟩
  | responded n ws u hst hports hfault =>
    rw [respond_fault, hfault, hs] at ht
    cases ht

theorem outgrows_of_exhausted {c : List Word} {s u : State} (h : enqueue c s = .exhausted u) :
    let plan := overflowPlan (policyMode s.policy) s.maxQueued.toNat (queued s.queue) c
    outgrows s.params (discardOldest plan.discard s.queue) plan.kept.length = true := by
  obtain ⟨hout, -⟩ | ⟨-, he⟩ := enqueue_cases c s
  · exact hout
  · rw [he] at h
    cases h

/-- R280, R317: of H's actions only reset touches the fault field. -/
theorem hostStep_fault {a : HostAct} (ha : a ≠ .reset) (s : State) : (hostStep a s).fault = s.fault := by
  cases a with
  | supply p ws => exact setPort_fault ..
  | read p => exact setPort_fault ..
  | reset => exact absurd rfl ha

/-- R280: a faulted block's step is an action of H. -/
theorem step_of_faulted {s t : State} (hs : s.fault ≠ none) (h : step s = .next t) :
    ∃ a later, s.agenda = .host a :: later ∧ t = hostStep a { s with agenda := later } := by
  obtain hhost | ⟨p, later, k, hrun⟩ := step_cases h
  · exact hhost
  · obtain ⟨hf, -⟩ := runPort_cases hrun
    exact absurd hf hs

/-- Settles O57: the causes are those of `exec_faulted`; a faulted block's ports have no step, and of H's actions only reset
clears the fault. -/
theorem modelFaultsAndTheirCauses : Obligations.ModelFaultsAndTheirCauses := by
  refine ⟨fun i s t f hs hexec ht => ?_, fun s f hf hag => ?_, fun s t hs hstep ht => ?_⟩
  · obtain ⟨hports, ⟨rfl, c, u, hc, he⟩ | ⟨rfl, rin, rout, x, hx, hg⟩⟩ := exec_faulted hs hexec ht
    · refine ⟨fun _ => ⟨c, _, _, ?_, rfl, rfl, outgrows_eq_true_iff.mp (outgrows_of_exhausted he)⟩, nofun,
        hports .producer, hports .sink⟩
      cases hc with
      | enq n => exact .inl ⟨n, rfl⟩
      | rx n rin rout ws _ hc => exact .inr ⟨n, rin, rout, ws, rfl, hc⟩
    · obtain ⟨j, hj, hlow⟩ := exists_index_of_guard hg
      refine ⟨nofun, fun _ => ?_, hports .producer, hports .sink⟩
      cases hx with
      | rsmp n => exact ⟨n, rin, rout, x, x, j, .inl ⟨rfl, rfl⟩, hj, hlow⟩
      | tx n => exact ⟨n, rin, rout, x, x, j, .inr (.inl ⟨rfl, rfl⟩), hj, hlow⟩
      | rx n _ _ ws => exact ⟨n, rin, rout, ws, _, j, .inr (.inr ⟨rfl, rfl⟩), hj, hlow⟩
  · obtain hnil | ⟨p, later, hturn⟩ := hag
    · rw [step_of_free hnil, freeStep_of_fault hf]
    · rw [step_of_turn hturn]
      exact runPort_of_fault hf
  · obtain ⟨a, later, hag, rfl⟩ := step_of_faulted hs hstep
    obtain rfl | ha := eq_or_ne a .reset
    · exact ⟨later, hag⟩
    · exact absurd ((hostStep_fault ha _).symm.trans ht) hs

end Sys2Proof.Machine
end

section
/-! PROOFS. Reset (70_reset_and_hazards.md R300): what it leaves of the block from any state, a faulted one included. -/

namespace Sys2Proof.Machine

/-- R44, R300: reset empties both streams of either port and sets its position to 0. -/
theorem portOf_resetBlock (p : Port) (s : State) : portOf p (resetBlock s) = PortState.reset := by
  cases p <;> rfl

/-- Settles O16: reset is H's action on the agenda, which a model fault does not hold back, and each field of its result is
that of `State.reset`; that a faulted block leaves its fault by no other step is the last clause of R280's statement. -/
theorem resetFromAnyState : Obligations.ResetFromAnyState := by
  obtain ⟨-, -, only_reset_clears⟩ := modelFaultsAndTheirCauses
  refine ⟨fun s later hag => ?_, fun s t f hf hstep ht => ?_⟩
  · exact ⟨resetBlock { s with agenda := later }, step_of_host hag, resetBlock_queue _, resetBlock_underruns _,
      resetBlock_silence _, resetBlock_overflows _, resetBlock_dropped _, resetBlock_policy _, resetBlock_lastErr _,
      resetBlock_maxQueued _, resetBlock_fault _, fun p => portOf_resetBlock p _⟩
  · have hfaulted : s.fault ≠ none := hf ▸ Option.some_ne_none f
    exact only_reset_clears s t hfaulted hstep ht

end Sys2Proof.Machine
end

section
/-! PROOFS. Decoding and encoding (30_encoding.md R90 to R106): `decode` reads back the words of a well-formed command, and the
words it reads are those of one command only. -/

namespace Sys2Proof.Machine

/-! ### From a command to its words -/

/-- R106: the header of a command passes the checks on its port. -/
theorem checkHeader_instrHeader (i : Instr) : checkHeader (instrPort i) (instrHeader i) = .ok (instrOp i) := by
  cases i with
  | enc n ws => exact Laws.Header.enc n ws
  | dec n ws => exact Laws.Header.dec n ws
  | rsmp n rin rout ws => exact Laws.Header.rsmp n rin rout ws
  | tx n rin rout ws => exact Laws.Header.tx n rin rout ws
  | rx n rin rout ws => exact Laws.Header.rx n rin rout ws
  | enq n ws => exact Laws.Header.enq n ws
  | clear => exact Laws.Header.clear
  | csrr idx => exact Laws.Header.csrr idx
  | csrw idx v => exact Laws.Header.csrw idx v
  | drain n => exact Laws.Header.drain n

/-- R95: a well-formed command has as many operand words as its header announces. -/
theorem length_instrOperands {i : Instr} (h : i.WellFormed) :
    (instrOperands i).length = operandCount (instrOp i) (instrArg i).toNat := by
  cases i with
  | enc n ws => exact Laws.Length.enc n ws h
  | dec n ws => exact Laws.Length.dec n ws h
  | rsmp n rin rout ws => exact Laws.Length.rsmp n rin rout ws h
  | tx n rin rout ws => exact Laws.Length.tx n rin rout ws h
  | rx n rin rout ws => exact Laws.Length.rx n rin rout ws h
  | enq n ws => exact Laws.Length.enq n ws h
  | clear => exact Laws.Length.clear h
  | csrr idx => exact Laws.Length.csrr idx h
  | csrw idx v => exact Laws.Length.csrw idx v h
  | drain n => exact Laws.Length.drain n h

@[simp] theorem headerOp_instrHeader (i : Instr) : headerOp (instrHeader i) = opCode (instrOp i) := headerOp_append ..

@[simp] theorem headerArg_instrHeader (i : Instr) : headerArg (instrHeader i) = instrArg i := headerArg_append ..

/-- R92, R94: the fields of a command are all in its header and operand words. -/
theorem assemble_instrHeader (i : Instr) : assemble (instrOp i) (instrHeader i) (instrOperands i) = i := by
  cases i with
  | csrr idx => exact congrArg Instr.csrr (headerIdx_append _ idx)
  | csrw idx v => exact congrArg (Instr.csrw · v) (headerIdx_append _ idx)
  | clear => rfl
  | enc | dec | enq | rsmp | tx | rx | drain =>
    simp only [instrOp, assemble, headerArg_instrHeader, instrArg, instrOperands, List.getD_cons_zero, List.getD_cons_succ,
      List.drop_succ_cons, List.drop_zero]

/-- Settles O1: the header passes its checks and announces as many words as the command has operands, and the command is
assembled from them again. -/
theorem decodeOfEncode : Obligations.DecodeOfEncode := by
  intro i rest hwf
  simp only [encode, List.cons_append, decode, checkHeader_instrHeader, headerArg_instrHeader, ← length_instrOperands hwf,
    List.length_append, if_neg (Nat.le_add_right _ _).not_gt, List.take_left, List.drop_left, assemble_instrHeader]

/-! ### From words to their command -/

/-- R92: format C's argument is its index where its reserved bits are zero. -/
theorem zero_append_headerIdx {h : Word} (hres : headerCsrReserved h = 0) : (0 : BitVec 16) ++ headerIdx h = headerArg h := by
  rw [← hres, headerCsrReserved, headerIdx, headerArg]
  exact BitVec.extractLsb'_append_extractLsb'_eq_extractLsb' rfl

/-- R91, R92: a command assembled from an accepted header has that header. -/
theorem instrHeader_assemble {op : Op} {h : Word} (ops : List Word) (hop : headerOp h = opCode op)
    (hres : reservedBitsSet op h = false) : instrHeader (assemble op h ops) = h := by
  have harg : instrArg (assemble op h ops) = headerArg h := by
    cases op with
    | enc | dec | rsmp | tx | rx | enq | drain => rfl
    | clear => exact (bne_eq_false_iff_eq.mp hres).symm
    | csrr | csrw => exact zero_append_headerIdx (bne_eq_false_iff_eq.mp hres)
  rw [instrHeader, instrOp_assemble, harg, ← hop, header_eq_append]

/-- R92, R95: a command assembled from as many operand words as its header announces has those operand words. -/
theorem instrOperands_assemble {op : Op} {h : Word} {ops : List Word}
    (hlen : ops.length = operandCount op (headerArg h).toNat) : instrOperands (assemble op h ops) = ops := by
  cases op with
  | enc | dec | enq => rfl
  | clear | csrr | drain => exact (List.eq_nil_of_length_eq_zero hlen).symm
  | csrw =>
    obtain ⟨v, rfl⟩ := List.length_eq_one_iff.mp hlen
    rfl
  | rsmp | tx | rx =>
    match ops, hlen with
    | rin :: rout :: ws, _ => rfl
    | [_], hlen | [], hlen =>
      simp only [operandCount, List.length_cons, List.length_nil] at hlen
      omega

/-- R91 to R95: the words a decoded command was read from are its encoding. -/
theorem encode_append_of_decode {p : Port} {ws rest : List Word} {i : Instr} (hd : decode p ws = .command i rest) :
    encode i ++ rest = ws := by
  obtain ⟨h, tl, op, rfl, hok, hle, rfl, rfl⟩ := decode_command hd
  obtain ⟨hop, hres, -⟩ := checkHeader_ok hok
  rw [encode, instrHeader_assemble _ hop hres, instrOperands_assemble (List.length_take_of_le hle), List.cons_append,
    List.take_append_drop]

/-- R106: a command whose encoding begins with the words of a decoded command is on the port these were decoded on. -/
theorem instrPort_eq_of_encode_append {p : Port} {ws rest rest' : List Word} {i j : Instr}
    (hd : decode p ws = .command i rest) (hj : encode j ++ rest' = ws) : instrPort j = p := by
  obtain ⟨h, tl, rfl, hop, hport, -⟩ := decode_command_front hd
  obtain ⟨rfl, -⟩ := List.cons.inj hj
  rw [headerOp_instrHeader] at hop
  rw [← hport, instrPort, instrPort, opCode_injective hop]

/-- Settles O2: the words are the encoding of what they decode to, and another well-formed command that they begin with would be
decoded from them as well. -/
theorem encodeOfDecode : Obligations.EncodeOfDecode := by
  intro p ws rest i hd
  obtain ⟨-, -, -, -, hport, -⟩ := decode_command_front hd
  refine ⟨wellFormed_of_decode hd, hport, encode_append_of_decode hd, fun j rest' hwf hj => ?_⟩
  have hdj := decodeOfEncode j rest' hwf
  rw [instrPort_eq_of_encode_append hd hj, hj, hd] at hdj
  cases hdj
  exact ⟨rfl, rfl⟩

/-- Settles O3: the words are decoded one example at a time. -/
theorem workedEncodingsDecode : Obligations.WorkedEncodingsDecode :=
  ⟨by decide, by decide, by decide, by decide, by decide, by decide, by decide⟩

end Sys2Proof.Machine
end

section
/-! PROOFS. Bytes of words and of PCM16 samples (20_memory.md R63 to R66, R69): the low half of a word is serialised first, and
four bytes are one word. -/

namespace Sys2Proof.Machine

/-- R64, R65: the bytes of a word are those of its low half and then those of its high half. -/
theorem wordBytes_append (b a : Half) : wordBytes (b ++ a) = halfBytes a ++ halfBytes b := by
  rw [wordBytes, halfBytes, halfBytes, BitVec.extractLsb'_append_eq_of_add_le (by decide),
    BitVec.extractLsb'_append_eq_of_add_le (by decide), BitVec.extractLsb'_append_eq_of_le (by decide),
    BitVec.extractLsb'_append_eq_of_le (by decide)]
  rfl

/-- Settles O8: two samples a word, each half serialised as its sample. -/
theorem pcmPayloadBytes : Obligations.PcmPayloadBytes := by
  intro hs
  induction hs using pack16.induct with
  | case1 => rfl
  | case2 a => simp only [pack16, List.flatMap_singleton, wordBytes_append]; rfl
  | case3 a b hs ih =>
    have hparity : (a :: b :: hs).length % 2 = hs.length % 2 := Nat.add_mod_right hs.length 2
    simp only [pack16, List.flatMap_cons, wordBytes_append, ih, hparity, List.append_assoc]

/-- R64: the four bytes of a word joined again. -/
theorem join_wordBytes (w : Word) :
    w.extractLsb' 24 8 ++ w.extractLsb' 16 8 ++ w.extractLsb' 8 8 ++ w.extractLsb' 0 8 = w := by
  rw [BitVec.extractLsb'_append_extractLsb'_eq_extractLsb' (rfl : 24 = 16 + 8),
    BitVec.extractLsb'_append_extractLsb'_eq_extractLsb' (rfl : 16 = 8 + 8),
    BitVec.extractLsb'_append_extractLsb'_eq_extractLsb' (rfl : 8 = 0 + 8)]
  exact BitVec.extractLsb'_eq_self

theorem frameBytes_wordBytes_append (w : Word) (bs : List Byte) :
    frameBytes (wordBytes w ++ bs) = (frameBytes bs).map (w :: ·) := by
  simp only [wordBytes, List.cons_append, List.nil_append, frameBytes, join_wordBytes]

/-- R69: a byte stream is words exactly when its length is a multiple of four. -/
theorem frameBytes_eq_none_iff (bs : List Byte) : frameBytes bs = none ↔ bs.length % 4 ≠ 0 := by
  induction bs using frameBytes.induct with
  | case1 => simp [frameBytes]
  | case2 b0 b1 b2 b3 bs ih =>
    have hmod : (b0 :: b1 :: b2 :: b3 :: bs).length % 4 = bs.length % 4 := Nat.add_mod_right bs.length 4
    rw [frameBytes, Option.map_eq_none_iff, ih, hmod]
  | case3 bs hnil hfour =>
    match bs with
    | [] => exact absurd rfl hnil
    | [_] | [_, _] | [_, _, _] => simp [frameBytes]
    | b0 :: b1 :: b2 :: b3 :: bs => exact absurd rfl (hfour b0 b1 b2 b3 bs)

/-- Settles O9: word by word, and four bytes at a time. -/
theorem wordsSurviveSerialisation : Obligations.WordsSurviveSerialisation := by
  refine ⟨fun ws => ?_, frameBytes_eq_none_iff⟩
  induction ws with
  | nil => rfl
  | cons w ws ih => rw [List.flatMap_cons, frameBytes_wordBytes_append, ih, Option.map_some]

end Sys2Proof.Machine
end

section
/-! PROOFS. The words of assembly lines (30_encoding.md R107, R108): a list length fits the header, and PCM16 literals survive
their packing. -/

namespace Sys2Proof.Machine

/-- R94: a list within COUNT_MAX has its length in the header. -/
theorem toNat_ofNat_24 {n : Nat} (h : n ≤ countMax) : (BitVec.ofNat 24 n).toNat = n := by
  have hlt : n < 2 ^ 24 := Nat.lt_succ_of_le h
  rw [BitVec.toNat_ofNat, Nat.mod_eq_of_lt hlt]

/-- R12: a PCM16 integer survives its two's-complement half. -/
theorem int16_bits16 {v : Int} (h : pcmRange v) : int16 (bits16 v) = v := by
  obtain ⟨hlo, hhi⟩ := h
  exact BitVec.toInt_ofInt_eq_self (by decide) hlo (by omega)

/-- R65: the samples stand at the front of the halves of their words. -/
theorem take_halves_pack16 (hs : List Half) : (halves (pack16 hs)).take hs.length = hs := by
  induction hs using pack16.induct with
  | case1 => rfl
  | case2 a => simp [pack16, halves]
  | case3 a b hs ih => simp [pack16, halves, ih]

/-- R65, R107: reading packed literals back gives them. -/
theorem pcmSamples_packSamples {ss : List Int} (h : ∀ v ∈ ss, pcmRange v) :
    pcmSamples ss.length (packSamples ss) = ss := by
  have hfront := take_halves_pack16 (ss.map bits16)
  rw [List.length_map] at hfront
  rw [pcmSamples, packSamples, hfront, List.map_map]
  exact (List.map_congr_left fun v hv => int16_bits16 (h v hv)).trans (List.map_id ss)

theorem packSamples_wellFormed (ss : List Int) (h : ss.length ≤ countMax) :
    (packSamples ss).length = pcmWords (BitVec.ofNat 24 ss.length).toNat := by
  rw [packSamples_length, toNat_ofNat_24 h, pcmWords]

/-- R107: a well-formed line assembles to a well-formed command. -/
theorem wellFormed_assembleLine {l : AsmLine} (h : l.WellFormed) : (assembleLine l).WellFormed := by
  cases l with
  | enc fs | rsmp rin rout fs | tx rin rout fs | enq fs => exact (toNat_ofNat_24 h).symm
  | dec ss | rx rin rout ss => exact packSamples_wellFormed ss h.1
  | clear | csrr c | csrw c v | drain n => trivial

/-- Settles O11: the header carries the list's length, and packed literals are read back. -/
theorem assembledLinesAreWellFormed : Obligations.AssembledLinesAreWellFormed := by
  have hmaxq : (0x09#8 ++ (0#16 ++ 0x07#8) : Word) = 0x09000007 := by decide
  refine ⟨fun l hl => ⟨wellFormed_assembleLine hl, ?_⟩, ⟨by decide, fun _ => rfl⟩,
    ⟨by decide, by decide, by decide, fun v => congrArg (· :: [v]) hmaxq, fun _ => rfl, fun _ _ _ => rfl⟩⟩
  cases l with
  | enc fs | rsmp rin rout fs | tx rin rout fs | enq fs => exact ⟨rfl, _, toNat_ofNat_24 hl, rfl⟩
  | dec ss | rx rin rout ss =>
    obtain ⟨hlen, hrange⟩ := hl
    exact ⟨rfl, _, _, toNat_ofNat_24 hlen, rfl, rfl, pcmSamples_packSamples hrange⟩
  | clear | csrr c | csrw c v | drain n => exact ⟨rfl, rfl⟩

end Sys2Proof.Machine
end

section
/-! PROOFS. What a command does to the whole state, said once for every command: the frame of each (10_state.md sections 3 and 4),
what it leaves of the chunks (R25), and the invariant of the block. -/

namespace Sys2Proof.Machine

/-! ### The effect of a command -/

/-- Everything a command does: the next state, written out as the updates it makes. -/
inductive Effect (i : Instr) (s : State) : State → Prop
  | rejected (st : Status) (hi : commandStatus i ≠ .ok) : Effect i s (reject (instrPort i) (opCode (instrOp i)) st s)
  | guarded (rin rout : Word) (x : List Word) (hi : Resamples i rin rout x) :
    Effect i s (raiseFault .resampleIndexGuard s)
  | exhausted (c : List Word) (k : Nat) (hi : Enqueues i c) :
    Effect i s (raiseFault .storageExhausted { s with queue := discardOldest k s.queue })
  | enqueued (c kept : List Word) (k d count : Nat) (hi : Enqueues i c)
      (hfit : outgrows s.params (discardOldest k s.queue) kept.length = false) :
    Effect i s (respond .producer .ok count []
      (countOverflow d { s with queue := discardOldest k s.queue ++ [{ data := kept, cursor := 0 }] }))
  | responded (n : Nat) (ws : List Word) : Effect i s (respond .producer .ok n ws s)
  | cleared (hi : i = .clear) : Effect i s (respond .producer .ok 0 [] { s with queue := [] })
  | written (c : Csr) (v : Word) (u : State) (hi : i = .csrw (csrIndex c) v) (hw : csrWrite? c v s = some u) :
    Effect i s (respond .producer .ok 0 [] u)
  | drained (n : BitVec 24) (k : Nat) (ws : List Word) (hi : i = .drain n) :
    Effect i s (respond .sink .ok n.toNat ws (countUnderrun k { s with queue := (drainQueue n.toNat s.queue).2 }))

theorem effect_of_exhausted {i : Instr} {c : List Word} {s u : State} (hi : Enqueues i c)
    (he : enqueue c s = .exhausted u) : Effect i s u := by
  obtain ⟨-, h⟩ | ⟨-, h⟩ := enqueue_cases c s <;> rw [h] at he <;> cases he
  exact .exhausted c _ hi

theorem effect_of_accepted {i : Instr} {c : List Word} {s u : State} {n : Nat} (hi : Enqueues i c)
    (he : enqueue c s = .accepted u n) (count : Nat) : Effect i s (respond .producer .ok count [] u) := by
  obtain ⟨-, h⟩ | ⟨hfit, h⟩ := enqueue_cases c s <;> rw [h] at he <;> cases he
  exact .enqueued c _ _ _ count hi hfit

/-- The status of a resampling command whose checks reject it. -/
theorem status_ne_ok_of_rejected {rin rout : Word} {x : List Word} {st : Status}
    (h : resampleChecked rin rout x = .rejected st) : (resampleChecked rin rout x).status ≠ .ok := by
  rw [h]
  exact resampleChecked_rejected h

theorem execRsmp_effect {n : BitVec 24} {rin rout : Word} {ws : List Word} {s t : State}
    (h : execRsmp n rin rout ws s = .next t) : Effect (.rsmp n rin rout ws) s t := by
  unfold execRsmp at h
  split at h <;> cases h
  next st hr => exact .rejected st (status_ne_ok_of_rejected hr)
  next => exact .guarded _ _ _ (.rsmp ..)
  next ys _ => exact .responded _ ys

theorem execTx_effect {n : BitVec 24} {rin rout : Word} {ws : List Word} {s t : State}
    (h : execTx n rin rout ws s = .next t) : Effect (.tx n rin rout ws) s t := by
  unfold execTx at h
  split at h <;> cases h
  next st hr => exact .rejected st (status_ne_ok_of_rejected hr)
  next => exact .guarded _ _ _ (.tx ..)
  next => exact .responded _ _

theorem execRx_effect {n : BitVec 24} {rin rout : Word} {ws : List Word} {s t : State}
    (h : execRx n rin rout ws s = .next t) : Effect (.rx n rin rout ws) s t := by
  unfold execRx at h
  split at h
  next st hr =>
    cases h
    exact .rejected st (status_ne_ok_of_rejected hr)
  next =>
    cases h
    exact .guarded _ _ _ (.rx ..)
  next ys hr =>
    have hi : Enqueues (.rx n rin rout ws) ys := .rx _ _ _ _ _ (resample_of_samples hr)
    split at h <;> cases h
    next he => exact effect_of_exhausted hi he
    next he => exact effect_of_accepted hi he _

theorem execEnq_effect {n : BitVec 24} {ws : List Word} {s t : State} (h : execEnq n ws s = .next t) :
    Effect (.enq n ws) s t := by
  unfold execEnq at h
  split at h <;> cases h
  next he => exact effect_of_exhausted (.enq n ws) he
  next he => exact effect_of_accepted (.enq n ws) he _

theorem commandStatus_csrr_of_undefined {idx : BitVec 8} (h : csrOfIndex? idx = none) :
    commandStatus (.csrr idx) ≠ .ok := by
  rw [commandStatus, if_pos (csrOfIndex?_eq_none_iff.mp h)]
  decide

theorem commandStatus_csrw_of_refuses {idx : BitVec 8} {v : Word} (h : CsrwRefuses idx v) :
    commandStatus (.csrw idx v) ≠ .ok := by
  rw [commandStatus, if_pos h]
  decide

theorem execCsrr_effect {idx : BitVec 8} {s t : State} (h : execCsrr idx s = .next t) : Effect (.csrr idx) s t := by
  unfold execCsrr at h
  split at h <;> cases h
  next hidx => exact .rejected .illegalCsr (commandStatus_csrr_of_undefined hidx)
  next => exact .responded 1 _

theorem execCsrw_effect {idx : BitVec 8} {v : Word} {s t : State} (h : execCsrw idx v s = .next t) :
    Effect (.csrw idx v) s t := by
  unfold execCsrw at h
  split at h
  next hidx =>
    cases h
    exact .rejected .illegalCsr (commandStatus_csrw_of_refuses (.inl (csrOfIndex?_eq_none_iff.mp hidx)))
  next c hidx =>
    obtain rfl := csrIndex_of_csrOfIndex? hidx
    split at h <;> cases h
    next hw => exact .rejected .illegalCsr (commandStatus_csrw_of_refuses (csrWrite?_eq_none_iff.mp hw))
    next u hw => exact .written c v u rfl hw

/-- A command that answers a next state has one of these effects. -/
theorem exec_effect {i : Instr} {s t : State} (h : exec i s = .next t) : Effect i s t := by
  cases i with
  | enc | dec =>
    cases h
    exact .responded _ _
  | rsmp n rin rout ws => exact execRsmp_effect h
  | tx n rin rout ws => exact execTx_effect h
  | rx n rin rout ws => exact execRx_effect h
  | enq n ws => exact execEnq_effect h
  | clear =>
    cases h
    exact .cleared rfl
  | csrr idx => exact execCsrr_effect h
  | csrw idx v => exact execCsrw_effect h
  | drain n =>
    cases h
    exact .drained n _ _ rfl

/-! ### The frame of a command -/

theorem Enqueues.instrOp {i : Instr} {c : List Word} (h : Enqueues i c) : instrOp i = .enq ∨ instrOp i = .rx := by
  cases h with
  | enq => exact .inl rfl
  | rx => exact .inr rfl

/-- R270: a command that rejects is one of those that write LAST_ERR. -/
theorem instrOp_of_commandStatus_ne_ok {i : Instr} (h : commandStatus i ≠ .ok) :
    instrOp i = .rsmp ∨ instrOp i = .tx ∨ instrOp i = .rx ∨ instrOp i = .csrr ∨ instrOp i = .csrw := by
  cases i with
  | rsmp | tx | rx | csrr | csrw => simp [instrOp]
  | enc | dec | enq | clear | drain => exact absurd rfl h

/-- Settles O58: the ports by the answer of a command, the other fields by its effect: what the effect does not write it leaves,
and what it writes the statement excepts for its command. -/
theorem execFrame : Obligations.ExecFrame := by
  intro i s t h
  have hans := exec_answer h
  refine ⟨hans.input_pos, fun p => hans.portOf_ne, ?_⟩
  cases exec_effect h with
  | rejected st hi => obtain hop | hop | hop | hop | hop := instrOp_of_commandStatus_ne_ok hi <;> simp [hop]
  | guarded rin rout x hi => cases hi <;> simp [instrOp]
  | exhausted c k hi => obtain hop | hop := hi.instrOp <;> simp [hop]
  | enqueued c kept k d count hi hfit => obtain hop | hop := hi.instrOp <;> simp [hop]
  | responded n ws => simp
  | cleared hi => simp [hi, instrOp]
  | drained n k ws hi => simp [hi, instrOp]
  | written c v u hi hw =>
    subst hi
    rcases csrWrite?_cases hw with ⟨rfl, rfl⟩ | ⟨rfl, rfl⟩ | ⟨rfl, rfl⟩ | ⟨rfl, rfl⟩ | ⟨rfl, -, rfl⟩ | ⟨rfl, rfl⟩ |
      ⟨rfl, -, rfl⟩ <;> simp [instrOp, csrIndex]

/-! ### The chunks -/

/-- Every queue has advanced to the empty one. -/
theorem advanced_nil (q : List Chunk) : Advanced q [] := ⟨q.length, by rw [List.drop_length]; exact .nil⟩

/-- Settles O50: the queue is kept, emptied, drained or discarded from, and an enqueue alone adds a chunk. -/
theorem chunkDataIsNeverChanged : Obligations.ChunkDataIsNeverChanged := by
  intro i s t h
  have kept (hq : t.queue = s.queue) : ∃ old new : List Chunk, t.queue = old ++ new ∧ Advanced s.queue old ∧
      (new = [] ∨ ((instrOp i = .enq ∨ instrOp i = .rx) ∧ ∃ c, new = [c] ∧ c.cursor = 0)) :=
    ⟨s.queue, [], by rw [hq, List.append_nil], advanced_refl _, .inl rfl⟩
  cases exec_effect h with
  | rejected st hi => exact kept (reject_queue ..)
  | guarded rin rout x hi => exact kept rfl
  | responded n ws => exact kept (respond_queue ..)
  | written c v u hi hw => exact kept ((respond_queue ..).trans (csrWrite?_queue_fault hw).1)
  | exhausted c k hi => exact ⟨discardOldest k s.queue, [], by simp, discardOldest_advanced .., .inl rfl⟩
  | enqueued c us k d count hi hfit =>
    exact ⟨discardOldest k s.queue, [{ data := us, cursor := 0 }], by simp, discardOldest_advanced ..,
      .inr ⟨hi.instrOp, _, rfl, rfl⟩⟩
  | cleared hi => exact ⟨[], [], by simp, advanced_nil _, .inl rfl⟩
  | drained n k ws hi => exact ⟨(drainQueue n.toNat s.queue).2, [], by simp, drainQueue_advanced .., .inl rfl⟩

/-! ### The invariant of the block -/

theorem withinCap_of_le {m n : Nat} {cap : Option Nat} (hle : m ≤ n) (h : withinCap n cap) : withinCap m cap := by
  cases cap with
  | none => rfl
  | some k =>
    simp only [withinCap, exceeds, decide_eq_false_iff_not] at h ⊢
    omega

theorem withinCap_zero (cap : Option Nat) : withinCap 0 cap := by cases cap <;> simp [withinCap, exceeds]

theorem queued_discardOldest_le (k : Nat) (q : List Chunk) : queued (discardOldest k q) ≤ queued q := by
  rw [← length_pending, pending_discardOldest, List.length_drop, length_pending]
  exact Nat.sub_le ..

theorem queued_drainQueue_le (n : Nat) (q : List Chunk) : queued (drainQueue n q).2 ≤ queued q := by
  rw [← length_pending, (drainQueue_spec n q).2, List.length_drop, length_pending]
  exact Nat.sub_le ..

theorem queued_concat (q : List Chunk) (xs : List Word) :
    queued (q ++ [{ data := xs, cursor := 0 }]) = queued q + xs.length := by
  rw [queued_append]
  rfl

/-- R275: a rejection leaves the reserved bits of LAST_ERR zero. -/
theorem lastErrAccepts_errorWord (p : Port) (c : BitVec 8) (st : Status) : lastErrAccepts (errorWord p c st) = true :=
  beq_iff_eq.mpr (extractLsb'_errorWord_zeros p c st)

/-- The part of the invariant that speaks of the queue (R25, R195). -/
def StorageOk (params : Params) (q : List Chunk) : Prop :=
  queueOk q ∧ withinCap (queued q) params.storageCap ∧ withinCap q.length params.chunkCap

theorem inv_iff {s : State} :
    Inv s ↔ StorageOk s.params s.queue ∧ policyAccepts s.policy = true ∧ lastErrAccepts s.lastErr = true := by
  simp only [Inv, StorageOk]
  tauto

theorem storageOk_nil (params : Params) : StorageOk params [] :=
  ⟨⟨nofun, nofun⟩, withinCap_zero _, withinCap_zero _⟩

theorem StorageOk.discard {params : Params} {q : List Chunk} (h : StorageOk params q) (k : Nat) :
    StorageOk params (discardOldest k q) := by
  obtain ⟨hq, hsamples, hchunks⟩ := h
  exact ⟨discardOldest_ok k q hq, withinCap_of_le (queued_discardOldest_le k q) hsamples,
    withinCap_of_le (length_discardOldest_le k q) hchunks⟩

theorem StorageOk.drain {params : Params} {q : List Chunk} (h : StorageOk params q) (n : Nat) :
    StorageOk params (drainQueue n q).2 := by
  obtain ⟨hq, hsamples, hchunks⟩ := h
  exact ⟨drainQueue_ok n q hq, withinCap_of_le (queued_drainQueue_le n q) hsamples,
    withinCap_of_le (length_drainQueue_le n q) hchunks⟩

/-- R195: an append that the storage check lets through stays within the capacities. -/
theorem StorageOk.concat {params : Params} {q : List Chunk} {xs : List Word} (h : StorageOk params q)
    (hfit : outgrows params q xs.length = false) : StorageOk params (q ++ [{ data := xs, cursor := 0 }]) := by
  obtain ⟨hq, -, -⟩ := h
  obtain ⟨hsamples, hchunks⟩ := Bool.or_eq_false_iff.mp hfit
  exact ⟨append_ok q xs hq, by rwa [queued_concat], by rwa [List.length_append]⟩

theorem Effect.inv {i : Instr} {s t : State} (h : Effect i s t) (hs : Inv s) : Inv t := by
  rw [inv_iff] at hs ⊢
  obtain ⟨hq, hp, he⟩ := hs
  cases h with
  | rejected st hi => exact ⟨by simpa, by simpa, by rw [reject_lastErr]; exact lastErrAccepts_errorWord ..⟩
  | guarded rin rout x hi => exact ⟨hq, hp, he⟩
  | responded n ws => exact ⟨hq, hp, he⟩
  | exhausted c k hi => exact ⟨hq.discard k, hp, he⟩
  | enqueued c us k d count hi hfit => exact ⟨by simpa using (hq.discard k).concat hfit, by simpa, by simpa⟩
  | cleared hi => exact ⟨storageOk_nil _, hp, he⟩
  | drained n k ws hi => exact ⟨by simpa using hq.drain n.toNat, by simpa, by simpa⟩
  | written c v u hi hw =>
    rcases csrWrite?_cases hw with ⟨-, rfl⟩ | ⟨-, rfl⟩ | ⟨-, rfl⟩ | ⟨-, rfl⟩ | ⟨-, hv, rfl⟩ | ⟨-, rfl⟩ | ⟨-, hv, rfl⟩
    on_goal 5 => exact ⟨hq, hv, he⟩
    on_goal 6 => exact ⟨hq, hp, hv⟩
    all_goals exact ⟨hq, hp, he⟩

theorem runPort_inv {p : Port} {s t : State} (hs : Inv s) (h : runPort p s = .next t) : Inv t := by
  have htake (k : Nat) (rest : List Word) : Inv (takeWords p k rest s) := by simpa [inv_iff] using hs
  obtain ⟨-, ⟨-, rfl⟩ | ⟨e, hd, rest, -, rfl⟩ | ⟨i, rest, -, hexec⟩⟩ := runPort_cases h
  · exact hs
  · obtain ⟨hq, hp, -⟩ := inv_iff.mp (htake 1 rest)
    exact inv_iff.mpr ⟨by simpa using hq, by simpa using hp, by rw [reject_lastErr]; exact lastErrAccepts_errorWord ..⟩
  · exact (exec_effect hexec).inv (htake _ _)

/-- Reset meets the invariant under every capacity. -/
theorem resetBlock_inv (s : State) : Inv (resetBlock s) :=
  have hregisters : policyAccepts 0 = true ∧ lastErrAccepts 0 = true := by decide
  inv_iff.mpr ⟨storageOk_nil _, hregisters⟩

theorem hostStep_inv (a : HostAct) {s : State} (hs : Inv s) : Inv (hostStep a s) := by
  cases a with
  | supply p ws => simpa [hostStep, inv_iff] using hs
  | read p => simpa [hostStep, inv_iff] using hs
  | reset => exact resetBlock_inv s

/-- Settles O59: an action of H and a port's step keep the invariant, and the order of steps is no part of it. -/
theorem stepKeepsTheInvariant : Obligations.StepKeepsTheInvariant := by
  intro s t hs h
  obtain ⟨a, rest, -, rfl⟩ | ⟨p, rest, k, hrun⟩ := step_cases h
  · exact hostStep_inv a (s := { s with agenda := rest }) hs
  · exact runPort_inv (s := { s with agenda := rest, turns := k }) hs hrun

/-- Settles O60: reset from any state, here the reset state itself. -/
theorem resetMeetsTheInvariant : Obligations.ResetMeetsTheInvariant := resetBlock_inv State.reset

end Sys2Proof.Machine
end

section
/-! PROOFS. Steps of the ports and of the host (10_state.md R21, 20_memory.md R72, R77, 70_reset_and_hazards.md R310, R317). -/

namespace Sys2Proof.Machine

theorem portReady_of_command {p : Port} {s : State} {i : Instr} {rest : List Word}
    (h : decode p (portOf p s).input = .command i rest) : portReady p s = true := by
  rw [portReady, h]

theorem portReady_of_incomplete {p : Port} {s : State} (h : decode p (portOf p s).input = .incomplete) :
    portReady p s = false := by
  rw [portReady, h]

theorem portReady_of_ne_incomplete {p : Port} {s : State} (h : decode p (portOf p s).input ≠ .incomplete) :
    portReady p s = true := by
  rw [portReady]
  split
  · exact absurd ‹_› h
  · rfl
  · rfl

/-- R72: with no agenda the one port that can move does. -/
theorem step_of_one {p q : Port} {s : State} {i : Instr} {rest : List Word} (hf : s.fault = none) (ha : s.agenda = [])
    (hne : q ≠ p) (hq : decode q (portOf q s).input = .incomplete) (hp : decode p (portOf p s).input = .command i rest) :
    step s = exec i (takeWords p (commandWords i) rest s) := by
  rw [step_of_free ha, freeStep_of_one hf hne (portReady_of_command hp) (portReady_of_incomplete hq),
    runPort_of_command hf hp]

theorem freeStep_of_both {s : State} (hf : s.fault = none) (hp : portReady .producer s = true)
    (hs : portReady .sink s = true) :
    freeStep s = runPort (Config.arbiter s.turns) { s with turns := s.turns + 1 } := by
  unfold freeStep
  rw [hf, hp, hs]

/-- R310: with neither port able to move the machine stops. -/
theorem freeStep_of_neither {s : State} (hf : s.fault = none) (hp : portReady .producer s = false)
    (hs : portReady .sink s = false) :
    freeStep s = .fault (if s.producer.input = [] ∧ s.sink.input = [] then .idle else .held) := by
  unfold freeStep
  rw [hf, hp, hs]

/-- A port asked to move runs its command. -/
theorem step_of_asked {p : Port} {later : List Event} {s : State} {i : Instr} {rest : List Word} (ha : Asked p later s)
    (hd : decode p (portOf p s).input = .command i rest) :
    step s = exec i (takeWords p (commandWords i) rest { s with agenda := later }) := by
  obtain ⟨hf, hag⟩ := ha
  rw [step_of_turn hag]
  exact runPort_of_command (s := { s with agenda := later }) hf (by rwa [portOf_withAgenda])

/-- Settles O12: the turn asked for, the one port that can move, and the free choice between two. -/
theorem stepRunsTheDecodedCommand : Obligations.StepRunsTheDecodedCommand := by
  refine ⟨fun p later s i rest ha hd => ?_, fun p q s i rest hf hag hne hq hp => step_of_one hf hag hne hq hp,
    fun s hf hag hready => ?_⟩
  · rw [step_of_asked ha hd, takeWords, portOf_withAgenda]
    rfl
  · rw [step_of_free hag, freeStep_of_both hf (portReady_of_ne_incomplete (hready .producer))
      (portReady_of_ne_incomplete (hready .sink))]

/-- Settles O14: a turn that passes leaves the state, and a machine with no port to move stops. -/
theorem heldPortTakesNoStep : Obligations.HeldPortTakesNoStep := by
  refine ⟨fun p later s ⟨hf, hag⟩ hd => ?_, fun s hf hag hp hs => ?_⟩
  · rw [step_of_turn hag]
    exact runPort_of_incomplete (s := { s with agenda := later }) hf (by rwa [portOf_withAgenda])
  · rw [step_of_free hag, freeStep_of_neither hf (portReady_of_incomplete hp) (portReady_of_incomplete hs)]
    by_cases hidle : s.producer.input = [] ∧ s.sink.input = []
    · rw [if_pos hidle]
      exact .inr ⟨rfl, hidle⟩
    · rw [if_neg hidle]
      exact .inl ⟨rfl, not_and_or.mp hidle⟩

/-- Settles O17: the two actions of H on a port's streams. -/
theorem hostSuppliesAndReads : Obligations.HostSuppliesAndReads := by
  refine ⟨fun s p ws later hag => ?_, fun s p w ws later hag hout => ?_⟩
  · rw [step_of_host hag, hostStep, portOf_withAgenda]
  · rw [step_of_host hag, hostStep, portOf_withAgenda, hout, List.tail_cons]

/-! ### Port S -/

/-- R77: the execution of a DRAIN moves no word of S's input and leaves P's port. -/
theorem exec_drain_takeWords (n : BitVec 24) (rest : List Word) (s : State) :
    ∃ t, exec (.drain n) (takeWords .sink 1 rest s) = .next t ∧ t.sink.input = rest ∧ t.sink.pos = s.sink.pos + 1 := by
  obtain ⟨hin, hpos⟩ := (exec_answer (exec_drain n (takeWords .sink 1 rest s))).input_pos .sink
  exact ⟨_, exec_drain .., hin, hpos⟩

theorem countUnderrun_withProducer (k : Nat) (q : PortState) (s : State) :
    countUnderrun k { s with producer := q } = { countUnderrun k s with producer := q } := by
  unfold countUnderrun
  split <;> rfl

/-- R77: a DRAIN reads and writes nothing of P's port. -/
theorem exec_drain_withProducer (n : BitVec 24) (q : PortState) (s : State) :
    ∃ t, exec (.drain n) s = .next t ∧ exec (.drain n) { s with producer := q } = .next { t with producer := q } ∧
      t.producer = s.producer := by
  refine ⟨_, exec_drain n s, ?_, countUnderrun_producer ..⟩
  rw [exec_drain, drain, countUnderrun_withProducer _ q { s with queue := (drainQueue n.toNat s.queue).2 }]
  rfl

/-- Settles O13: the header is a whole DRAIN, and its execution does not look at P. -/
theorem sinkNeverWaits : Obligations.SinkNeverWaits := by
  obtain ⟨-, decode_drain⟩ := statusCodesAndTheirCauses
  intro s n rest hf hin
  have hd : decode .sink s.sink.input = .command (.drain n) rest := by rw [hin, decode_drain]
  refine ⟨fun later hag => ?_, fun hag hp => ?_, fun q => ?_⟩
  · rw [step_of_asked ⟨hf, hag⟩ hd]
    exact exec_drain_takeWords n rest { s with agenda := later }
  · rw [step_of_one hf hag (q := .producer) (by decide) hp hd]
    exact exec_drain_takeWords n rest s
  · obtain ⟨t, ht, ht', hprod⟩ := exec_drain_withProducer n q (takeWords .sink (commandWords (.drain n)) rest s)
    exact ⟨t, { t with producer := q }, (runPort_of_command hf hd).trans ht,
      (runPort_of_command (p := .sink) (s := { s with producer := q }) hf hd).trans ht', hprod, rfl⟩

end Sys2Proof.Machine
end

section
/-! PROOFS. RSMP, TX and RX (41_resampler.md R170, 43_pipeline_and_csr.md R240, R243): rejected for a long result, complete
otherwise; RX enqueues as ENQ does. -/

namespace Sys2Proof.Machine

/-! ### RSMP and TX -/

/-- R170: a result beyond COUNT_MAX fails the checks. -/
theorem resampleChecked_of_tooLong {rin rout : Word} {x : List Word} (hin : rin ≠ 0) (hout : rout ≠ 0)
    (h : countMax < outLen x.length rin rout) : resampleChecked rin rout x = .rejected .resultTooLong := by
  rw [resampleChecked, if_neg (not_or.mpr ⟨hin, hout⟩), if_pos h]

theorem length_decodedSamples {n : Nat} {ws : List Word} (h : ws.length = pcmWords n) :
    ((pcmSamples n ws).map decodeSample).length = n := by
  rw [List.length_map, pcmSamples_length h]

/-- Settles O33: the three commands reject on the shared check of the length. -/
theorem tooLongResultRejected : Obligations.TooLongResultRejected := by
  intro n rin rout ws s hin hout
  refine ⟨fun hlong => ?_, fun hwf hlong => ?_⟩
  · have hr := resampleChecked_of_tooLong hin hout hlong
    exact ⟨exec_rsmp_of_rejected s hr, exec_tx_of_rejected s hr⟩
  · rw [← length_decodedSamples hwf] at hlong
    exact exec_rx_of_rejected s (resampleChecked_of_tooLong hin hout hlong)

theorem exec_tx_of_samples {n : BitVec 24} {rin rout : Word} {ws ys : List Word} (s : State)
    (h : resampleChecked rin rout ws = .samples ys) :
    exec (.tx n rin rout ws) s = .next (respond .producer .ok ys.length (packSamples (ys.map encodeSample)) s) := by
  rw [exec, execTx, h]

/-- Settles O35: what passes the checks is the response. -/
theorem rsmpAndTxRespond : Obligations.RsmpAndTxRespond := by
  intro n rin rout ws ys s hin hout hM hy
  have hr := resampleChecked_of_resample hin hout hM hy
  exact ⟨exec_rsmp_of_samples s hr, exec_tx_of_samples s hr, length_resample hy⟩

/-! ### TX and the free patterns of NaN samples -/

/-- R168, R240: the pattern drawn for a sample is lost in its encoding, which is 0 for every NaN. -/
theorem encodeSample_bits32 (p q : NaNPattern) (v : FVal) : encodeSample (bits32 p v) = encodeSample (bits32 q v) := by
  cases v with
  | nan =>
    have hnan (r : NaNPattern) : encodeSample (bits32 r .nan) = 0 :=
      encodeSample_of_nan ((f32_eq_nan_iff _).mpr (isNaNPattern_nanWord r))
    rw [hnan, hnan]
  | inf neg => rfl
  | fin neg m e => rfl

/-- The encoded samples of an interpolation, sample by sample. -/
theorem map_interpolateFrom_succ (x : List Word) (ratio : FVal) (draw : Nat → NaNPattern) (i k : Nat) :
    (interpolateFrom x ratio draw i (k + 1)).map (List.map encodeSample) =
      (interpolate x ratio i).bind fun v =>
        ((interpolateFrom x ratio draw (i + 1) k).map (List.map encodeSample)).map
          (encodeSample (bits32 (draw i) (fl32 v)) :: ·) := by
  simp only [interpolateFrom]
  cases interpolate x ratio i with
  | none => rfl
  | some v => cases interpolateFrom x ratio draw (i + 1) k <;> rfl

/-- R168: the draws decide neither whether there is an output nor what its samples encode to. -/
theorem interpolateFrom_draws (x : List Word) (ratio : FVal) (draw draw' : Nat → NaNPattern) (i k : Nat) :
    (interpolateFrom x ratio draw i k).map (List.map encodeSample) =
      (interpolateFrom x ratio draw' i k).map (List.map encodeSample) := by
  induction k generalizing i with
  | zero => rfl
  | succ k ih => simp only [map_interpolateFrom_succ, ih, encodeSample_bits32 (draw i) (draw' i)]

theorem resampleWith_draws (draw draw' : Nat → NaNPattern) (x : List Word) (rin rout : Word) :
    (resampleWith draw x rin rout).map (List.map encodeSample) =
      (resampleWith draw' x rin rout).map (List.map encodeSample) := by
  unfold resampleWith
  split
  · rfl
  · exact interpolateFrom_draws ..

/-- R71: a command that answers from its operands writes the same words to its port from every state. -/
theorem AnswersFromOperands.output {i : Instr} (hi : AnswersFromOperands i) :
    ∃ ws, ∀ s t, exec i s = .next t → (portOf (instrPort i) t).output = (portOf (instrPort i) s).output ++ ws := by
  cases hi with
  | rejected st hexec =>
    refine ⟨[responseHeader st 0], fun s t h => ?_⟩
    cases (hexec s).symm.trans h
    rw [portOf_reject]
  | guarded hexec =>
    refine ⟨[], fun s t h => ?_⟩
    cases (hexec s).symm.trans h
    rw [portOf_raiseFault, List.append_nil]
  | responded n ws hexec =>
    refine ⟨responseHeader .ok (BitVec.ofNat 24 n) :: ws, fun s t h => ?_⟩
    cases (hexec s).symm.trans h
    rw [portOf_respond]

theorem AnswersFromOperands.repeats {i : Instr} (hi : AnswersFromOperands i) (hport : instrPort i = .producer) {s s' t t' : State}
    (hs : exec i s = .next s') (ht : exec i t = .next t') :
    ∃ ws, s'.producer.output = s.producer.output ++ ws ∧ t'.producer.output = t.producer.output ++ ws := by
  obtain ⟨ws, hws⟩ := hi.output
  rw [hport] at hws
  exact ⟨ws, hws s s' hs, hws t t' ht⟩

/-- R71: two reads of a register that holds the same answer alike. -/
theorem csrr_repeats {idx : BitVec 8} {s s' t t' : State} (hv : ∀ c, csrOfIndex? idx = some c → csrValue c s = csrValue c t)
    (hs : exec (.csrr idx) s = .next s') (ht : exec (.csrr idx) t = .next t') :
    ∃ ws, s'.producer.output = s.producer.output ++ ws ∧ t'.producer.output = t.producer.output ++ ws := by
  cases hidx : csrOfIndex? idx with
  | none =>
    cases (exec_csrr_of_undefined s hidx).symm.trans hs
    cases (exec_csrr_of_undefined t hidx).symm.trans ht
    exact ⟨_, rfl, rfl⟩
  | some c =>
    specialize hv c hidx
    obtain rfl := csrIndex_of_csrOfIndex? hidx
    cases (exec_csrr_csrIndex c s).symm.trans hs
    cases (exec_csrr_csrIndex c t).symm.trans ht
    exact ⟨_, rfl, by rw [hv]; rfl⟩

/-- Settles O36: the response encodes the samples of any draw, and a repeat finds the same operands or the same register. -/
theorem txIgnoresNaNDraws : Obligations.TxIgnoresNaNDraws := by
  refine ⟨fun draw n rin rout ws ys s hin hout hM hy => ?_, fun i s s' t t' hi hs ht => ?_⟩
  · have hdraws := resampleWith_draws draw (Config.nanDraw ws rin rout) ws rin rout
    obtain ⟨zs, hz, henc⟩ : ∃ zs, resample ws rin rout = some zs ∧ ys.map encodeSample = zs.map encodeSample := by
      rw [hy, ← resample] at hdraws
      cases hz : resample ws rin rout with
      | none => rw [hz] at hdraws; cases hdraws
      | some zs => rw [hz] at hdraws; exact ⟨zs, rfl, Option.some.inj hdraws⟩
    obtain ⟨-, htx, -⟩ := rsmpAndTxRespond n rin rout ws zs s hin hout hM hz
    rw [htx, henc, length_resampleWith hy, length_resample hz]
  · cases i with
    | enc n ws => exact (answersFromOperands_enc n ws).repeats rfl hs ht
    | dec n ws => exact (answersFromOperands_dec n ws).repeats rfl hs ht
    | rsmp n rin rout ws => exact (answersFromOperands_rsmp n rin rout ws).repeats rfl hs ht
    | tx n rin rout ws => exact (answersFromOperands_tx n rin rout ws).repeats rfl hs ht
    | csrr idx =>
      obtain h | h | h | h | ⟨idx', hidx, hv⟩ := hi
      · cases h
      · cases h
      · cases h
      · cases h
      · cases hidx
        exact csrr_repeats hv hs ht
    | rx | enq | clear | csrw | drain => simp [instrOp] at hi

/-! ### ENQ and RX -/

theorem exec_rx_of_accepted {n : BitVec 24} {rin rout : Word} {ws ys : List Word} {s u : State} {count : Nat}
    (hr : resampleChecked rin rout ((pcmSamples n.toNat ws).map decodeSample) = .samples ys)
    (he : enqueue ys s = .accepted u count) :
    exec (.rx n rin rout ws) s = .next (writeWords .producer [0x00#8 ++ BitVec.ofNat 24 ys.length] u) := by
  simp only [exec, execRx, hr, he]
  rfl

/-- R190, R193: without overflow, and within the storage, the chunk joins the tail unmodified. -/
theorem enqueue_of_room {c : List Word} {s : State}
    (hroom : policyMode s.policy = 0 ∨ queued s.queue + c.length ≤ s.maxQueued.toNat)
    (hfit : outgrows s.params s.queue c.length = false) :
    enqueue c s = .accepted { s with queue := s.queue ++ [{ data := c, cursor := 0 }] } c.length := by
  have hplan : overflowPlan (policyMode s.policy) s.maxQueued.toNat (queued s.queue) c =
      { discard := 0, kept := c, dropped := 0 } := if_pos hroom
  rw [enqueue_of_fits hplan (by rwa [discardOldest_zero]), discardOldest_zero, countOverflow_zero]

/-- Settles O39: the accepted enqueue answers with the length of its chunk. -/
theorem enqAppendsTheChunk : Obligations.EnqAppendsTheChunk := by
  intro n ws s hwf hroom hfit
  have hlen : ws.length = n.toNat := hwf
  rw [exec_enq_of_accepted n (enqueue_of_room hroom hfit), hlen, BitVec.ofNat_toNat, BitVec.setWidth_eq]

/-- R243: nonzero rates and a length that COUNT can carry pass the checks of RX. -/
theorem resampleChecked_rx {n : BitVec 24} {rin rout : Word} {ws ys : List Word} (hin : rin ≠ 0) (hout : rout ≠ 0)
    (hwf : ws.length = pcmWords n.toNat) (hM : outLen n.toNat rin rout ≤ countMax)
    (hy : resample ((pcmSamples n.toNat ws).map decodeSample) rin rout = some ys) :
    resampleChecked rin rout ((pcmSamples n.toNat ws).map decodeSample) = .samples ys :=
  resampleChecked_of_resample hin hout (by rwa [length_decodedSamples hwf]) hy

/-- Settles O37: the accepted enqueue of the resampled chunk, whose length is M. -/
theorem rxEnqueuesTheResampledChunk : Obligations.RxEnqueuesTheResampledChunk := by
  intro n rin rout ws ys s hin hout hwf hM hy hroom hfit
  refine ⟨exec_rx_of_accepted (resampleChecked_rx hin hout hwf hM hy) (enqueue_of_room hroom hfit), ?_⟩
  rw [length_resample hy, length_decodedSamples hwf]

/-- Settles O38: both commands hand the chunk to one enqueue, and differ in the COUNT of an accepted one alone. -/
theorem rxEnqueuesAsEnqDoes : Obligations.RxEnqueuesAsEnqDoes := by
  intro n m rin rout ws ys s t hin hout hwf hM hf hy henq
  have hr := resampleChecked_rx hin hout hwf hM hy
  cases he : enqueue ys s with
  | exhausted u =>
    cases (exec_enq_of_exhausted m he).symm.trans henq
    obtain ⟨v, hports, hfault⟩ := enqueue_exhausted he
    have hfaulted : t.fault = some .storageExhausted := hfault ▸ rfl
    have hprod : t.producer = s.producer := hfault ▸ hports .producer
    exact ⟨t, exec_rx_of_exhausted hr he, rfl, rfl, rfl, rfl, enqueue_exhausted_lastErr he,
      fun hnone => absurd (hfaulted.symm.trans hnone) nofun, fun _ => congrArg PortState.output hprod⟩
  | accepted u count =>
    cases (exec_enq_of_accepted m he).symm.trans henq
    obtain ⟨hports, -, -⟩ := enqueue_accepted he
    have hprod : u.producer = s.producer := hports .producer
    have hfault : u.fault = none := (enqueue_accepted_fault he).trans hf
    exact ⟨_, exec_rx_of_accepted hr he, rfl, rfl, rfl, rfl, (writeWords_lastErr ..).trans (enqueue_accepted_lastErr he),
      fun _ => congrArg (·.output ++ _) hprod, fun hne => absurd hfault hne⟩

/-- R203: the plan of DROP_NEWEST above the threshold. -/
theorem overflowPlan_dropNewest {maxq t : Nat} {c : List Word} (hover : maxq < t + c.length) :
    overflowPlan 2 maxq t c = { discard := 0, kept := c.take (maxq - t), dropped := c.length - (maxq - t) } := by
  obtain ⟨h | h, -⟩ | ⟨-, -, h⟩ | ⟨-, h, -, -⟩ := overflowPlan_cases 2 maxq t c
  · exact absurd h (by decide)
  · omega
  · exact h
  · exact absurd rfl h

/-- R191: the counters of an enqueue that dropped `d` samples. -/
theorem countOverflow_eq (d : Nat) (s : State) :
    countOverflow d s = { s with overflows := if d = 0 then s.overflows else s.overflows + 1,
                                 dropped := s.dropped + BitVec.ofNat 32 d } := by
  obtain rfl | hd := Nat.eq_zero_or_pos d
  · simp
  · rw [countOverflow, if_neg hd.ne', if_neg hd.ne']

/-- Settles O40: the plan of DROP_NEWEST drops no sample exactly where there is none. -/
theorem dropNewestKeepsThePrefix : Obligations.DropNewestKeepsThePrefix := by
  intro n ws s _ hmode hover hfit
  have hlen : (ws.take (s.maxQueued.toNat - queued s.queue)).length = s.maxQueued.toNat - queued s.queue := by
    rw [List.length_take]
    omega
  have hempty : ws.length - (s.maxQueued.toNat - queued s.queue) = 0 ↔ ws = [] := by
    rw [← List.length_eq_zero_iff]
    omega
  have henq := enqueue_of_fits (hmode ▸ overflowPlan_dropNewest hover) (by rwa [hlen, discardOldest_zero])
  rw [exec_enq_of_accepted n henq, hlen, discardOldest_zero, countOverflow_eq]
  simp only [hempty]

end Sys2Proof.Machine
end

section
/-! PROOFS. DRAIN in every state, and sequences of drains (42_playback.md R196, R199 to R201, R209, 10_state.md R28): a drain sees
the pending samples alone. -/

namespace Sys2Proof.Machine

/-! ### One drain -/

/-- R196: the response of a DRAIN in the pending samples, and the state it leaves. -/
theorem exec_drain_pending (n : BitVec 24) (s : State) :
    exec (.drain n) s = .next (writeWords .sink
      ((0x00#8 ++ n : Word) :: ((pending s.queue).take n.toNat ++ silenceWords (n.toNat - queued s.queue)))
      (countUnderrun (n.toNat - queued s.queue) { s with queue := (drainQueue n.toNat s.queue).2 })) := by
  rw [exec_drain, drain_spec]

/-- Settles O43: the response of `exec_drain_pending`, and the counters by whether it holds silence. -/
theorem drainConserves : Obligations.DrainConserves := by
  intro n s
  refine ⟨_, exec_drain_pending n s, ?_, ?_, ?_, ?_, ?_, ?_⟩
  · exact congrArg (·.output ++ _) (countUnderrun_sink ..)
  · rw [writeWords_queue, countUnderrun_queue, (drainQueue_spec _ _).2]
  · rw [writeWords_queue, countUnderrun_queue, ← length_pending, (drainQueue_spec _ _).2, List.length_drop, length_pending]
    omega
  · simp only [writeWords_underruns, countUnderrun_underruns, Nat.sub_eq_zero_iff_le, ← Nat.not_lt, ite_not]
  · simp only [writeWords_silence, countUnderrun_silence, Nat.sub_eq_zero_iff_le, ← Nat.not_lt, ite_not]
  · unfold countUnderrun
    split <;> rfl

theorem drainQueue_zero (q : List Chunk) : drainQueue 0 q = ([], q) := by
  cases q <;> rfl

/-- R199: a frame that fills at the end of the head chunk removes it and stops there. -/
theorem drainQueue_cons_of_eq {n : Nat} {c : Chunk} (q : List Chunk) (hn : 0 < n) (h : n = chunkAvail c) :
    drainQueue n (c :: q) = (chunkPending c, q) := by
  subst h
  rw [drainQueue, if_neg hn.ne', Nat.min_self]
  simp only [if_neg (Nat.lt_irrefl _), Nat.sub_self, drainQueue_zero, List.append_nil]
  rw [List.take_of_length_le (length_chunkPending c).le]

/-- R200: an underrun leaves no chunk. -/
theorem drainQueue_of_queued_lt {n : Nat} {q : List Chunk} (h : queued q < n) : (drainQueue n q).2 = [] := by
  rw [← q.append_nil, drainQueue_append [] (.inr h)]
  rfl

/-- Settles O45: the drain takes `pre` whole and then the chunk behind it whole; a frame of size 0 reaches no chunk, and one that
needs more than there is takes the whole queue. -/
theorem zeroFrameAndUnderrun : Obligations.ZeroFrameAndUnderrun := by
  refine ⟨fun s => ?_, fun n s pre h q hq hlt hn => ?_, fun n s t hlt hexec => ?_⟩
  · have hzero : (0 : BitVec 24).toNat = 0 := rfl
    rw [exec_drain, drain_of_le_queued (hzero.trans_le (Nat.zero_le _)), hzero, drainQueue_zero]
    rfl
  · have hle : n.toNat ≤ queued s.queue := by
      rw [hq, queued_append, queued, chunkAvail]
      omega
    have hrest : n.toNat - queued pre = chunkAvail h := by
      rw [hn, chunkAvail]
      omega
    have hpos : 0 < chunkAvail h := Nat.sub_pos_of_lt hlt
    rw [exec_drain, drain_of_le_queued hle, hq, drainQueue_append _ (.inr (by omega)),
      hrest, drainQueue_cons_of_eq q hpos rfl]
    rfl
  · cases (exec_drain_pending n s).symm.trans hexec
    rw [writeWords_queue, countUnderrun_queue]
    exact drainQueue_of_queued_lt hlt

/-! ### Sequences of commands -/

theorem runAll_cons {i : Instr} {is : List Instr} {s t : State} (h : exec i s = .next t) :
    runAll (i :: is) s = runAll is t := by
  rw [runAll, h]

theorem runAll_append {is js : List Instr} {s t : State} (h : runAll is s = .next t) :
    runAll (is ++ js) s = runAll js t := by
  induction is generalizing s with
  | nil =>
    cases h
    rfl
  | cons i is ih =>
    rw [runAll] at h
    rw [List.cons_append, runAll]
    cases he : exec i s <;> rw [he] at h
    · exact ih h
    · cases h
    · cases h

/-- Settles O49: each drain answers with, and counts, what the pending samples say, and leaves equal pending samples again. -/
theorem chunkingIsHiddenFromDrains : Obligations.ChunkingIsHiddenFromDrains := by
  intro ns
  induction ns with
  | nil => exact fun s t hq hout hu hsil => ⟨s, t, rfl, rfl, hout, hu, hsil, hq⟩
  | cons n ns ih =>
    intro s t hq hout hu hsil
    have hqueued : queued s.queue = queued t.queue := by rw [← length_pending, hq, length_pending]
    obtain ⟨s₁, hs, hsout, hspend, -, hsu, hssil, -⟩ := drainConserves n s
    obtain ⟨t₁, ht, htout, htpend, -, htu, htsil, -⟩ := drainConserves n t
    simp only [List.map_cons, runAll_cons hs, runAll_cons ht]
    exact ih s₁ t₁ (by rw [hspend, htpend, hq]) (by rw [hsout, htout, hout, hq, hqueued]) (by rw [hsu, htu, hu, hqueued])
      (by rw [hssil, htsil, hsil, hqueued])

/-- The four diagnostic counters stand as before (R32 to R35). -/
structure SameCounts (s t : State) : Prop where
  underruns : t.underruns = s.underruns
  silence : t.silence = s.silence
  overflows : t.overflows = s.overflows
  dropped : t.dropped = s.dropped

/-- R190, R209: chunks enqueued without a limit join the pending samples, and nothing else moves on the sink's side. -/
theorem runAll_enqs (cs : List (List Word)) (s : State) (hpolicy : policyMode s.policy = 0)
    (hstorage : s.params.storageCap = none) (hchunks : s.params.chunkCap = none) (hlen : ∀ c ∈ cs, c.length ≤ countMax) :
    ∃ t, runAll (cs.map fun c => Instr.enq (BitVec.ofNat 24 c.length) c) s = .next t ∧
      pending t.queue = pending s.queue ++ cs.flatten ∧ t.sink = s.sink ∧ SameCounts s t := by
  induction cs generalizing s with
  | nil => exact ⟨s, rfl, (List.append_nil _).symm, rfl, rfl, rfl, rfl, rfl⟩
  | cons c cs ih =>
    obtain ⟨hc, hcs⟩ := List.forall_mem_cons.mp hlen
    have hexec := enqAppendsTheChunk (BitVec.ofNat 24 c.length) c s (toNat_ofNat_24 hc).symm (.inl hpolicy)
      (outgrows_of_no_caps hstorage hchunks ..)
    obtain ⟨t, hrun, hpend, hsink, hcounts⟩ := ih (writeWords .producer [0x00#8 ++ BitVec.ofNat 24 c.length]
      { s with queue := s.queue ++ [{ data := c, cursor := 0 }] }) hpolicy hstorage hchunks hcs
    refine ⟨t, (runAll_cons hexec).trans hrun, ?_, hsink, hcounts.underruns, hcounts.silence, hcounts.overflows,
      hcounts.dropped⟩
    rw [hpend, writeWords_queue, pending_append, List.append_assoc]
    simp [pending, chunkPending]

/-- R209: drains that ask for no more than there is deliver the pending samples window by window. -/
theorem runAll_drains (ns : List (BitVec 24)) (s : State) (hsum : (ns.map fun n => n.toNat).sum ≤ queued s.queue) :
    ∃ t, runAll (ns.map Instr.drain) s = .next t ∧
      t.sink.output = s.sink.output ++
        (List.zipWith (fun (n : BitVec 24) w => (0x00#8 ++ n : Word) :: w) ns
          (windows (ns.map fun n => n.toNat) (pending s.queue))).flatten ∧
      pending t.queue = (pending s.queue).drop (ns.map fun n => n.toNat).sum ∧ SameCounts s t := by
  induction ns generalizing s with
  | nil => exact ⟨s, rfl, (List.append_nil _).symm, rfl, rfl, rfl, rfl, rfl⟩
  | cons n ns ih =>
    rw [List.map_cons, List.sum_cons] at hsum
    have hle : n.toNat ≤ queued s.queue := by omega
    obtain ⟨s₁, hexec, hout, hpend, hqueued, hu, hsil, hframe⟩ := drainConserves n s
    obtain ⟨t, hrun, hout', hpend', hcounts⟩ := ih s₁ (by omega)
    rw [if_neg hle.not_gt] at hu hsil
    refine ⟨t, (runAll_cons hexec).trans hrun, ?_, ?_, ?_⟩
    · rw [hout', hout, hpend, Nat.sub_eq_zero_of_le hle]
      simp [windows]
    · rw [hpend', hpend, List.drop_drop, List.map_cons, List.sum_cons]
    · have hover : s₁.overflows = s.overflows := by rw [hframe]
      have hdrop : s₁.dropped = s.dropped := by rw [hframe]
      exact ⟨hcounts.underruns.trans hu, hcounts.silence.trans hsil, hcounts.overflows.trans hover,
        hcounts.dropped.trans hdrop⟩

/-- Settles O48: the enqueues leave the chunks' samples pending, the drains deliver them. -/
theorem fifoThroughWindows : Obligations.FifoThroughWindows := by
  intro cs ns s hempty hpolicy hstorage hchunks hlen hsum
  obtain ⟨s₁, henqs, hpend, hsink, hcounts⟩ := runAll_enqs cs s hpolicy hstorage hchunks hlen
  rw [hempty, pending, List.nil_append] at hpend
  obtain ⟨t, hdrains, hout, hpend', hcounts'⟩ := runAll_drains ns s₁ (by rwa [← length_pending, hpend])
  rw [hpend] at hout hpend'
  exact ⟨t, (runAll_append henqs).trans hdrains, hsink ▸ hout, hpend', hcounts'.underruns.trans hcounts.underruns,
    hcounts'.silence.trans hcounts.silence, hcounts'.overflows.trans hcounts.overflows,
    hcounts'.dropped.trans hcounts.dropped⟩

end Sys2Proof.Machine
end

section
/-! PROOFS. The one rounding (00_scope.md R13): the mantissa is the integer nearest to the quotient scaled by its last bit, ties to
even, and no other number of the format is nearer. -/

namespace Sys2Proof.Machine

/-! ### The nearest integer -/

/-- Rounded division is within a half of the quotient, and at a half it is even. -/
theorem divNearestEven_nearest (a : Nat) {b : Nat} (hb : 0 < b) :
    |(a : ℚ) / b - divNearestEven a b| ≤ 1 / 2 ∧
      (|(a : ℚ) / b - divNearestEven a b| = 1 / 2 → divNearestEven a b % 2 = 0) := by
  have hbQ : (0 : ℚ) < b := by exact_mod_cast hb
  have hquot : (a : ℚ) / b = (a / b : Nat) + (a % b : Nat) / b := by
    rw [div_eq_iff hbQ.ne', add_mul, div_mul_cancel₀ _ hbQ.ne', mul_comm]
    exact_mod_cast (Nat.div_add_mod a b).symm
  have hrem : (0 : ℚ) ≤ (a % b : Nat) / b := by positivity
  have hrem1 : ((a % b : Nat) : ℚ) / b < 1 := by
    rw [div_lt_one hbQ]
    exact_mod_cast Nat.mod_lt a hb
  have hlt : ((a % b : Nat) : ℚ) / b < 1 / 2 ↔ 2 * (a % b) < b := by
    rw [div_lt_div_iff₀ hbQ two_pos, one_mul, mul_comm]
    exact_mod_cast Iff.rfl
  have hgt : 1 / 2 < ((a % b : Nat) : ℚ) / b ↔ b < 2 * (a % b) := by
    rw [div_lt_div_iff₀ two_pos hbQ, one_mul, mul_comm]
    exact_mod_cast Iff.rfl
  generalize ((a % b : Nat) : ℚ) / b = r at *
  simp only [divNearestEven, hquot]
  split_ifs with hdown hup heven
  · have := hlt.mpr hdown
    rw [add_sub_cancel_left, abs_of_nonneg hrem]
    exact ⟨this.le, fun h => absurd h this.ne⟩
  · have := hgt.mpr hup
    push_cast
    rw [add_sub_add_left_eq_sub, abs_of_neg (by linarith)]
    exact ⟨by linarith, fun h => by linarith⟩
  · have hr : r = 1 / 2 := le_antisymm (not_lt.mp (mt hgt.mp hup)) (not_lt.mp (mt hlt.mp hdown))
    rw [add_sub_cancel_left, abs_of_nonneg hrem]
    exact ⟨hr.le, fun _ => heven⟩
  · have hr : r = 1 / 2 := le_antisymm (not_lt.mp (mt hgt.mp hup)) (not_lt.mp (mt hlt.mp hdown))
    push_cast
    rw [add_sub_add_left_eq_sub, hr]
    refine ⟨by norm_num [abs_of_neg], fun _ => by omega⟩

/-- An integer within a half is a nearest one, and another one is as near only at a half. -/
theorem nearest_integer {x : ℚ} {m : Nat} (h : |x - m| ≤ 1 / 2) (k : Nat) :
    |x - m| ≤ |x - k| ∧ (|x - m| = |x - k| → k ≠ m → |x - m| = 1 / 2) := by
  obtain rfl | hne := eq_or_ne k m
  · exact ⟨le_rfl, fun _ h => absurd rfl h⟩
  have hone : (1 : ℚ) ≤ |(k : ℚ) - m| := by
    have : (1 : ℤ) ≤ |(k : ℤ) - m| := Int.one_le_abs (sub_ne_zero.mpr (by exact_mod_cast hne))
    exact_mod_cast this
  have htri : |(k : ℚ) - m| ≤ |x - m| + |x - k| := by
    rw [abs_sub_comm x k, add_comm]
    exact abs_sub_le ..
  exact ⟨by linarith, fun heq _ => by linarith⟩

/-! ### The last bit -/

/-- What the rounding asks of a format: two bits at least, and more than one exponent. -/
structure Format.Ordinary (f : Format) : Prop where
  prec : 2 ≤ f.prec
  exps : f.minExp < f.maxExp

theorem binary32_ordinary : binary32.Ordinary := ⟨by decide, by decide⟩

theorem binary64_ordinary : binary64.Ordinary := ⟨by decide, by decide⟩

theorem ordinary_of_eq {f : Format} (h : f = binary32 ∨ f = binary64) : f.Ordinary := by
  obtain rfl | rfl := h
  · exact binary32_ordinary
  · exact binary64_ordinary

/-- A quotient lies below the power of two one above the difference of the leading bits. -/
theorem div_lt_two_zpow_log2 (num : Nat) {den : Nat} (hden : 0 < den) :
    (num : ℚ) / den < 2 ^ ((num.log2 : ℤ) - den.log2 + 1) := by
  have hnum : (num : ℚ) < 2 ^ ((num.log2 : ℤ) + 1) := by exact_mod_cast Nat.lt_log2_self
  have hlow : (2 : ℚ) ^ (den.log2 : ℤ) ≤ den := by exact_mod_cast Nat.log2_self_le hden.ne'
  have hdenQ : (0 : ℚ) < den := by exact_mod_cast hden
  rw [div_lt_iff₀ hdenQ]
  calc (num : ℚ) < 2 ^ ((num.log2 : ℤ) + 1) := hnum
    _ = 2 ^ ((num.log2 : ℤ) - den.log2 + 1) * 2 ^ (den.log2 : ℤ) := by rw [← zpow_add₀ two_ne_zero]; ring_nf
    _ ≤ 2 ^ ((num.log2 : ℤ) - den.log2 + 1) * den := by gcongr

theorem two_zpow_le_div_log2 {num den : Nat} (hnum : 0 < num) (hden : 0 < den) :
    (2 : ℚ) ^ ((num.log2 : ℤ) - den.log2 - 1) ≤ num / den := by
  by_contra! h
  have := log2_sub_log2_le hnum.ne' hden h.le
  omega

/-- The last bit kept, before the format's smallest exponent bounds it. -/
def freeLastBit (f : Format) (num den : Nat) : ℤ :=
  let e : ℤ := (num.log2 : ℤ) - den.log2 - ((f.prec : ℤ) - 1)
  if num * pow2 (-e) < 2 ^ (f.prec - 1) * (den * pow2 e) then e - 1 else e

theorem lastBitExp_eq_max (f : Format) (num den : Nat) :
    lastBitExp f num den = max (freeLastBit f num den) f.minExp := rfl

/-- Scaled by its last bit, a quotient has as many bits as the format. -/
theorem freeLastBit_spec (f : Format) {num den : Nat} (hprec : 0 < f.prec) (hnum : 0 < num) (hden : 0 < den) :
    (2 : ℚ) ^ (f.prec - 1) ≤ num / den / 2 ^ freeLastBit f num den ∧
      (num : ℚ) / den / 2 ^ freeLastBit f num den < 2 ^ f.prec := by
  have hhigh := div_lt_two_zpow_log2 num hden
  have hlow := two_zpow_le_div_log2 hnum hden
  have hhalf : (2 : ℚ) ^ f.prec = 2 * 2 ^ (f.prec - 1) := (mul_pow_sub_one hprec.ne' 2).symm
  simp only [freeLastBit]
  generalize he : (num.log2 : ℤ) - den.log2 - ((f.prec : ℤ) - 1) = e
  have hcond : num * pow2 (-e) < 2 ^ (f.prec - 1) * (den * pow2 e) ↔ (num : ℚ) / den / 2 ^ e < 2 ^ (f.prec - 1) := by
    have hpos : (0 : ℚ) < (den * pow2 e : Nat) := by exact_mod_cast Nat.mul_pos hden (pow2_pos e)
    rw [← mul_pow2_div_mul_pow2, div_lt_iff₀ hpos]
    exact_mod_cast Iff.rfl
  have hbelow : (num : ℚ) / den / 2 ^ e < 2 ^ f.prec := by
    rw [div_lt_iff₀ (by positivity), ← zpow_natCast, ← zpow_add₀ two_ne_zero]
    exact hhigh.trans_eq (by congr 1; omega)
  have habove : (2 : ℚ) ^ (f.prec - 1) ≤ num / den / 2 ^ (e - 1) := by
    rw [le_div_iff₀ (by positivity), ← zpow_natCast, ← zpow_add₀ two_ne_zero]
    exact (le_of_eq (by congr 1; omega)).trans hlow
  split_ifs with hif
  · refine ⟨habove, ?_⟩
    rw [zpow_sub_one₀ two_ne_zero, ← div_div, div_inv_eq_mul, hhalf, mul_comm]
    linarith [hcond.mp hif]
  · exact ⟨not_lt.mp (mt hcond.mpr hif), hbelow⟩

/-- Scaled by the last bit kept, a quotient has at most the format's bits, and fewer only at the format's smallest exponent. -/
theorem lastBitExp_spec (f : Format) {num den : Nat} (hprec : 0 < f.prec) (hnum : 0 < num) (hden : 0 < den) :
    f.minExp ≤ lastBitExp f num den ∧ (num : ℚ) / den / 2 ^ lastBitExp f num den < 2 ^ f.prec ∧
      (lastBitExp f num den = f.minExp ∨ (2 : ℚ) ^ (f.prec - 1) ≤ num / den / 2 ^ lastBitExp f num den) := by
  obtain ⟨hlow, hhigh⟩ := freeLastBit_spec f hprec hnum hden
  rw [lastBitExp_eq_max]
  obtain hle | hle := le_total f.minExp (freeLastBit f num den)
  · rw [max_eq_left hle]
    exact ⟨hle, hhigh, .inr hlow⟩
  · rw [max_eq_right hle]
    refine ⟨le_rfl, lt_of_le_of_lt ?_ hhigh, .inl rfl⟩
    gcongr
    exact one_le_two

/-! ### The rounded number -/

/-- The mantissa of a rounding at its last bit, before a carry into the next exponent. -/
def roundedMant (f : Format) (num den : Nat) : Nat :=
  divNearestEven (num * pow2 (-lastBitExp f num den)) (den * pow2 (lastBitExp f num den))

/-- The bound of the format's finite range: the midpoint past its largest number. -/
def Format.limit (f : Format) : ℚ := ((2 : ℚ) ^ f.prec - 1 / 2) * 2 ^ f.maxExp

theorem roundedMant_nearest (f : Format) (num : Nat) {den : Nat} (hden : 0 < den) :
    |(num : ℚ) / den / 2 ^ lastBitExp f num den - roundedMant f num den| ≤ 1 / 2 ∧
      (|(num : ℚ) / den / 2 ^ lastBitExp f num den - roundedMant f num den| = 1 / 2 → roundedMant f num den % 2 = 0) := by
  have h := divNearestEven_nearest (num * pow2 (-lastBitExp f num den))
    (Nat.mul_pos hden (pow2_pos (lastBitExp f num den)))
  rwa [mul_pow2_div_mul_pow2] at h

/-- The mantissa has the format's bits, or is the next power of two. -/
theorem roundedMant_bounds (f : Format) {num den : Nat} (hf : f.Ordinary) (hnum : 0 < num) (hden : 0 < den) :
    roundedMant f num den ≤ 2 ^ f.prec ∧ (lastBitExp f num den = f.minExp ∨ 2 ^ (f.prec - 1) ≤ roundedMant f num den) := by
  have hprec : 0 < f.prec := zero_lt_two.trans_le hf.prec
  obtain ⟨-, hhigh, hlow⟩ := lastBitExp_spec f hprec hnum hden
  obtain ⟨hnear, -⟩ := roundedMant_nearest f num hden
  rw [abs_le] at hnear
  constructor
  · have : (roundedMant f num den : ℚ) < (2 ^ f.prec : Nat) + 1 := by push_cast; linarith
    exact Nat.lt_succ_iff.mp (by exact_mod_cast this)
  · refine hlow.imp_right fun hlow => ?_
    have : ((2 ^ (f.prec - 1) : Nat) : ℚ) < roundedMant f num den + 1 := by push_cast; linarith
    exact Nat.lt_succ_iff.mp (by exact_mod_cast this)

end Sys2Proof.Machine
end

section
/-! PROOFS. Rounding to nearest, ties to even (00_scope.md R13): what a rounding can be, and that no number of the format is nearer. -/

namespace Sys2Proof.Machine

/-- A mantissa that does not carry comes from a quotient below the midpoint under the next power of two: the largest mantissa is
odd, so a tie above it carries. -/
theorem scaled_lt_of_roundedMant_lt {f : Format} {num den : Nat} (hf : f.Ordinary) (hden : 0 < den)
    (hm : roundedMant f num den < 2 ^ f.prec) :
    (num : ℚ) / den / 2 ^ lastBitExp f num den < 2 ^ f.prec - 1 / 2 := by
  obtain ⟨hnear, heven⟩ := roundedMant_nearest f num hden
  have hmQ : (roundedMant f num den : ℚ) + 1 ≤ 2 ^ f.prec := by exact_mod_cast hm
  refine lt_of_le_of_ne (by linarith [(abs_le.mp hnear).2]) fun htie => ?_
  have hlargest : roundedMant f num den + 1 = 2 ^ f.prec := by
    have : (roundedMant f num den : ℚ) + 1 = 2 ^ f.prec := le_antisymm hmQ (by linarith [(abs_le.mp hnear).2])
    exact_mod_cast this
  have hhalf : |(num : ℚ) / den / 2 ^ lastBitExp f num den - roundedMant f num den| = 1 / 2 := by
    have : (roundedMant f num den : ℚ) + 1 = 2 ^ f.prec := by exact_mod_cast hlargest
    rw [htie, ← this, abs_of_pos] <;> linarith
  have hpow : 2 ^ f.prec % 2 = 0 := Nat.mod_eq_zero_of_dvd (dvd_pow_self 2 (by have := hf.prec; omega))
  have := heven hhalf
  omega

/-- Everything a rounding can be: the mantissa at the last bit kept, or its half at the next exponent, where the quotient lies
below the format's limit; an infinity from there on. -/
theorem roundTo_cases {f : Format} {num den : Nat} (neg : Bool) (hf : f.Ordinary) (hnum : 0 < num) (hden : 0 < den) :
    (∃ m e, roundTo f neg num den = .fin neg m e ∧ representable f m e ∧ (2 ^ (f.prec - 1) ≤ m ∨ e = f.minExp) ∧
      (num : ℚ) / den < f.limit ∧ (m : ℚ) * 2 ^ e = roundedMant f num den * 2 ^ lastBitExp f num den ∧
      (m % 2 = 0 ∨ m = roundedMant f num den)) ∨
    (roundTo f neg num den = .inf neg ∧ f.limit ≤ (num : ℚ) / den) := by
  obtain ⟨hprec, hexps⟩ := hf
  obtain ⟨hmin, hhigh, hlow⟩ := lastBitExp_spec f (by omega) hnum hden
  obtain ⟨hcarry, hfull⟩ := roundedMant_bounds f ⟨hprec, hexps⟩ hnum hden
  have hbelow := scaled_lt_of_roundedMant_lt (f := f) (num := num) ⟨hprec, hexps⟩ hden
  obtain ⟨hnear, -⟩ := roundedMant_nearest f num hden
  have hx : (num : ℚ) / den = num / den / 2 ^ lastBitExp f num den * 2 ^ lastBitExp f num den :=
    (div_mul_cancel₀ _ (by positivity)).symm
  have hround : roundTo f neg num den =
      if roundedMant f num den = 2 ^ f.prec then
        (if f.maxExp < lastBitExp f num den + 1 then .inf neg else .fin neg (2 ^ (f.prec - 1)) (lastBitExp f num den + 1))
      else if f.maxExp < lastBitExp f num den then .inf neg
      else .fin neg (roundedMant f num den) (lastBitExp f num den) := by
    simp only [roundTo, if_neg hnum.ne', ← roundedMant.eq_1]
    split <;> rfl
  have hhalf : (2 : ℚ) ^ f.prec = 2 * 2 ^ (f.prec - 1) := (mul_pow_sub_one (by omega) 2).symm
  have hone : (1 : ℚ) ≤ 2 ^ (f.prec - 1) := one_le_pow₀ one_le_two
  have hX_nonneg : (0 : ℚ) ≤ num / den / 2 ^ lastBitExp f num den := by positivity
  rw [hround]
  generalize roundedMant f num den = m at *
  generalize lastBitExp f num den = c at *
  generalize (num : ℚ) / den / 2 ^ c = X at *
  rw [hx, Format.limit]
  have hmid : (2 : ℚ) ^ (f.prec - 1) ≤ 2 ^ f.prec - 1 / 2 := by linarith
  have hmid_nonneg : (0 : ℚ) ≤ 2 ^ f.prec - 1 / 2 := by linarith
  have hpow (hle : c ≤ f.maxExp) : (2 : ℚ) ^ c ≤ 2 ^ f.maxExp := zpow_le_zpow_right₀ one_le_two hle
  split_ifs with hm hover hover
  · refine .inr ⟨rfl, ?_⟩
    have hX : (2 : ℚ) ^ f.prec - 1 / 2 ≤ X := by
      rw [hm] at hnear
      push_cast at hnear
      linarith [(abs_le.mp hnear).1]
    have : (2 : ℚ) ^ f.maxExp ≤ 2 ^ c := zpow_le_zpow_right₀ one_le_two (by omega)
    gcongr
  · have hvalue : ((2 ^ (f.prec - 1) : Nat) : ℚ) * 2 ^ (c + 1) = m * 2 ^ c := by
      rw [hm, zpow_add_one₀ two_ne_zero]
      push_cast
      rw [hhalf]
      ring
    refine .inl ⟨_, _, rfl, ⟨?_, by omega, by omega⟩, .inl le_rfl, ?_, hvalue, .inl ?_⟩
    · exact Nat.pow_lt_pow_right one_lt_two (by omega)
    · calc X * 2 ^ c < 2 ^ f.prec * 2 ^ c := by gcongr
        _ = 2 ^ (f.prec - 1) * 2 ^ (c + 1) := by rw [hhalf, zpow_add_one₀ two_ne_zero]; ring
        _ ≤ (2 ^ f.prec - 1 / 2) * 2 ^ f.maxExp := by
          gcongr
          · exact one_le_two
          · omega
    · exact Nat.mod_eq_zero_of_dvd (dvd_pow_self 2 (by omega))
  · refine .inr ⟨rfl, ?_⟩
    have hX : (2 : ℚ) ^ (f.prec - 1) ≤ X := hlow.resolve_left (by omega)
    calc ((2 : ℚ) ^ f.prec - 1 / 2) * 2 ^ f.maxExp ≤ 2 ^ f.prec * 2 ^ f.maxExp := by gcongr; linarith
      _ = 2 ^ (f.prec - 1) * 2 ^ (f.maxExp + 1) := by rw [hhalf, zpow_add_one₀ two_ne_zero]; ring
      _ ≤ X * 2 ^ c := by
        gcongr
        · exact one_le_two
        · omega
  · refine .inl ⟨m, c, rfl, ⟨by omega, hmin, by omega⟩, hfull.symm, ?_, rfl, .inr rfl⟩
    have := hpow (by omega)
    calc X * 2 ^ c < (2 ^ f.prec - 1 / 2) * 2 ^ c := by gcongr; exact hbelow (by omega)
      _ ≤ (2 ^ f.prec - 1 / 2) * 2 ^ f.maxExp := by gcongr

/-- A number of the format, scaled by the last bit of a quotient, is an integer, or it has a lower last bit and lies below
every full mantissa. -/
theorem scaled_number (f : Format) {m : Nat} {e c : ℤ} (hprec : 0 < f.prec) (hm : m < 2 ^ f.prec) :
    (∃ k : Nat, (m : ℚ) * 2 ^ e / 2 ^ c = k) ∨ (e < c ∧ (m : ℚ) * 2 ^ e / 2 ^ c < (2 ^ (f.prec - 1) : Nat)) := by
  obtain hle | hlt := le_or_gt c e
  · obtain ⟨j, hj⟩ := Int.eq_ofNat_of_zero_le (sub_nonneg.mpr hle)
    refine .inl ⟨m * 2 ^ j, ?_⟩
    rw [mul_div_assoc, ← zpow_sub₀ two_ne_zero, hj]
    push_cast
    rfl
  · refine .inr ⟨hlt, ?_⟩
    have hmQ : (m : ℚ) < 2 ^ f.prec := by exact_mod_cast hm
    have hscale : (2 : ℚ) ^ (e - c) ≤ 2 ^ (-1 : ℤ) := zpow_le_zpow_right₀ one_le_two (by omega)
    calc (m : ℚ) * 2 ^ e / 2 ^ c = m * 2 ^ (e - c) := by rw [mul_div_assoc, ← zpow_sub₀ two_ne_zero]
      _ ≤ m * 2 ^ (-1 : ℤ) := by gcongr
      _ < 2 ^ f.prec * 2 ^ (-1 : ℤ) := by gcongr
      _ = (2 ^ (f.prec - 1) : Nat) := by
        rw [← mul_pow_sub_one hprec.ne']
        push_cast
        rw [zpow_neg_one]
        ring

/-- No number of the format is nearer to a quotient than its rounded mantissa at the last bit kept, and where another is as near
the mantissa is even. -/
theorem roundedMant_nearest_number {f : Format} {num den m : Nat} {e : ℤ} (hf : f.Ordinary) (hnum : 0 < num)
    (hden : 0 < den) (hrep : representable f m e) :
    |(num : ℚ) / den - roundedMant f num den * 2 ^ lastBitExp f num den| ≤ |(num : ℚ) / den - m * 2 ^ e| ∧
      (|(num : ℚ) / den - roundedMant f num den * 2 ^ lastBitExp f num den| = |(num : ℚ) / den - m * 2 ^ e| →
        (roundedMant f num den : ℚ) * 2 ^ lastBitExp f num den ≠ m * 2 ^ e → roundedMant f num den % 2 = 0) := by
  have hprec : 0 < f.prec := zero_lt_two.trans_le hf.prec
  obtain ⟨hm, hmin, -⟩ := hrep
  obtain ⟨-, -, hlow⟩ := lastBitExp_spec f hprec hnum hden
  obtain ⟨hnear, heven⟩ := roundedMant_nearest f num hden
  have hscaled := scaled_number f (e := e) (c := lastBitExp f num den) hprec hm
  generalize roundedMant f num den = k at *
  generalize lastBitExp f num den = c at *
  have hpos : (0 : ℚ) < 2 ^ c := by positivity
  have hunscale (y : ℚ) : |(num : ℚ) / den - y| = |(num : ℚ) / den / 2 ^ c - y / 2 ^ c| * 2 ^ c := by
    rw [← sub_div, abs_div, abs_of_pos hpos, div_mul_cancel₀ _ hpos.ne']
  rw [hunscale, hunscale (m * 2 ^ e), mul_div_cancel_right₀ _ hpos.ne', mul_le_mul_iff_left₀ hpos, mul_left_inj' hpos.ne',
    ne_eq, ← eq_div_iff hpos.ne']
  generalize (num : ℚ) / den / 2 ^ c = X at *
  obtain ⟨j, hj⟩ | ⟨hlt, hbelow⟩ := hscaled
  · rw [hj]
    obtain ⟨hle, htie⟩ := nearest_integer hnear j
    exact ⟨hle, fun heq hne => heven (htie heq fun hjk => hne (by rw [hjk]))⟩
  · have hX : ((2 ^ (f.prec - 1) : Nat) : ℚ) ≤ X := by
      push_cast
      exact hlow.resolve_left (by omega)
    obtain ⟨hle, -⟩ := nearest_integer hnear (2 ^ (f.prec - 1))
    have hfar : |X - k| < |X - m * 2 ^ e / 2 ^ c| := calc
      _ ≤ X - (2 ^ (f.prec - 1) : Nat) := by rwa [abs_of_nonneg (sub_nonneg.mpr hX)] at hle
      _ < X - m * 2 ^ e / 2 ^ c := by linarith
      _ ≤ _ := le_abs_self _
    exact ⟨hfar.le, fun heq => absurd heq hfar.ne⟩

/-- Settles O24: the finite result has the value of the rounded mantissa, to which no number is nearer; a carried mantissa is a
power of two, so even. -/
theorem roundingIsToNearestEven : Obligations.RoundingIsToNearestEven := by
  intro f hfmt neg num den hnum hden
  have hf := ordinary_of_eq hfmt
  refine (roundTo_cases neg hf hnum hden).imp_left ?_
  rintro ⟨m, e, hround, hrep, hcanon, hlimit, hvalue, heven⟩
  refine ⟨m, e, hround, hrep, hcanon, hlimit, fun m' e' hrep' => ?_⟩
  obtain ⟨hle, htie⟩ := roundedMant_nearest_number hf hnum hden hrep'
  rw [hvalue]
  exact ⟨hle, fun heq hne => heven.elim id fun hm => hm ▸ htie heq hne⟩

end Sys2Proof.Machine
end

section
/-! PROOFS. The operations on floating-point values (00_scope.md R13): each computes its exact value and rounds once. -/

namespace Sys2Proof.Machine

/-! ### Signed values -/

theorem finiteValue?_eq_some {v : FVal} {x : ℚ} (h : finiteValue? v = some x) :
    ∃ neg m e, v = .fin neg m e ∧ (signed neg m : ℚ) * 2 ^ e = x := by
  cases v with
  | nan | inf neg => cases h
  | fin neg m e => exact ⟨neg, m, e, rfl, Option.some.inj h⟩

theorem signed_mul_nat (neg : Bool) (m n : Nat) : signed neg (m * n) = signed neg m * n := by
  cases neg <;> simp

theorem signed_mul_signed (a b : Bool) (m k : Nat) : signed a m * signed b k = signed (a != b) (m * k) := by
  cases a <;> cases b <;> simp

@[simp] theorem signed_not (neg : Bool) (m : Nat) : signed (!neg) m = -signed neg m := by
  cases neg <;> simp

theorem signed_eq_zero {neg : Bool} {m : Nat} : signed neg m = 0 ↔ m = 0 := by
  cases neg <;> simp

theorem signed_decide_natAbs (x : ℤ) : signed (decide (x < 0)) x.natAbs = x := by
  by_cases h : x < 0
  · simp only [h, decide_true, signed_true]
    omega
  · simp only [h, decide_false, signed_false]
    omega

/-- A value is zero exactly when its mantissa is. -/
theorem signed_mul_zpow_eq_zero {neg : Bool} {m : Nat} {e : ℤ} : (signed neg m : ℚ) * 2 ^ e = 0 ↔ m = 0 := by
  rw [mul_eq_zero, or_iff_left (by positivity), Int.cast_eq_zero, signed_eq_zero]

/-- A signed number scaled by `2^e`, as the quotient that is rounded. -/
theorem signed_pow2_quotient (neg : Bool) (m : Nat) (e : ℤ) :
    (signed neg (m * pow2 e) : ℚ) / pow2 (-e) = signed neg m * 2 ^ e := by
  rw [signed_mul_nat, two_zpow_eq_pow2_div]
  push_cast
  rw [mul_div_assoc]

/-! ### The exact values of the operations -/

/-- `v` is the exact value `x` rounded once to format `f`. -/
def RoundedOnce (f : Format) (v : FVal) (x : ℚ) : Prop :=
  ∃ neg num den, 0 < den ∧ v = roundTo f neg num den ∧ (signed neg num : ℚ) / den = x

theorem fmul_rounds (a b : Bool) (m k : Nat) (e g : ℤ) :
    RoundedOnce binary64 (fmul (.fin a m e) (.fin b k g)) (signed a m * 2 ^ e * (signed b k * 2 ^ g)) := by
  refine ⟨_, _, _, pow2_pos _, rfl, ?_⟩
  rw [signed_pow2_quotient, ← signed_mul_signed, zpow_add₀ two_ne_zero]
  push_cast
  ring

theorem fl32_rounds (neg : Bool) (m : Nat) (e : ℤ) :
    ∃ num den, 0 < den ∧ fl32 (.fin neg m e) = roundTo binary32 neg num den ∧
      (signed neg num : ℚ) / den = signed neg m * 2 ^ e :=
  ⟨_, _, pow2_pos _, rfl, signed_pow2_quotient neg m e⟩

theorem fdiv_rounds (a b : Bool) (m : Nat) {k : Nat} (e g : ℤ) (hk : k ≠ 0) :
    RoundedOnce binary64 (fdiv (.fin a m e) (.fin b k g)) (signed a m * 2 ^ e / (signed b k * 2 ^ g)) := by
  refine ⟨_, _, _, Nat.mul_pos (Nat.pos_of_ne_zero hk) (pow2_pos _), if_neg hk, ?_⟩
  have hquot := fdiv_quotient m k e g
  cases a <;> cases b <;>
    simp only [bne_self_eq_false, Bool.false_bne, Bool.true_bne, Bool.not_false, signed_false, signed_true, Int.cast_neg,
      Int.cast_natCast, neg_mul, neg_div, div_neg, neg_neg, hquot]

/-- The operands of a sum in units of their smaller exponent. -/
def alignedSum (a : Bool) (m : Nat) (e : ℤ) (b : Bool) (k : Nat) (g : ℤ) : ℤ :=
  signed a (m * pow2 (e - min e g)) + signed b (k * pow2 (g - min e g))

theorem fadd_fin (a b : Bool) (m k : Nat) (e g : ℤ) :
    fadd (.fin a m e) (.fin b k g) =
      if alignedSum a m e b k g = 0 then .fin (a && b) 0 binary64.minExp
      else roundTo binary64 (decide (alignedSum a m e b k g < 0))
        ((alignedSum a m e b k g).natAbs * pow2 (min e g)) (pow2 (-min e g)) := rfl

theorem pow2_mul_zpow {e c : ℤ} (h : c ≤ e) : (pow2 (e - c) : ℚ) * 2 ^ c = 2 ^ e := by
  have hnonneg : pow2 (-(e - c)) = 1 := by rw [pow2, Int.toNat_of_nonpos (by omega), pow_zero]
  have hpow : (2 : ℚ) ^ (e - c) = pow2 (e - c) := by rw [two_zpow_eq_pow2_div, hnonneg, Nat.cast_one, div_one]
  rw [← hpow, ← zpow_add₀ two_ne_zero, sub_add_cancel]

theorem alignedSum_value (a : Bool) (m : Nat) (e : ℤ) (b : Bool) (k : Nat) (g : ℤ) :
    (alignedSum a m e b k g : ℚ) * 2 ^ min e g = signed a m * 2 ^ e + signed b k * 2 ^ g := by
  rw [alignedSum, signed_mul_nat, signed_mul_nat]
  push_cast
  rw [add_mul, mul_assoc, mul_assoc, pow2_mul_zpow (min_le_left e g), pow2_mul_zpow (min_le_right e g)]

theorem alignedSum_eq_zero_iff (a : Bool) (m : Nat) (e : ℤ) (b : Bool) (k : Nat) (g : ℤ) :
    alignedSum a m e b k g = 0 ↔ (signed a m : ℚ) * 2 ^ e + signed b k * 2 ^ g = 0 := by
  rw [← alignedSum_value, mul_eq_zero, or_iff_left (by positivity), Int.cast_eq_zero]

theorem fadd_rounds {a b : Bool} {m k : Nat} {e g : ℤ} (h : (signed a m : ℚ) * 2 ^ e + signed b k * 2 ^ g ≠ 0) :
    RoundedOnce binary64 (fadd (.fin a m e) (.fin b k g)) (signed a m * 2 ^ e + signed b k * 2 ^ g) := by
  refine ⟨_, _, _, pow2_pos _, (fadd_fin ..).trans (if_neg (mt (alignedSum_eq_zero_iff a m e b k g).mp h)), ?_⟩
  rw [signed_pow2_quotient, signed_decide_natAbs, alignedSum_value]

/-- An exact zero sum is negative only where both operands are. -/
theorem fadd_zero {a b : Bool} {m k : Nat} {e g : ℤ} (h : (signed a m : ℚ) * 2 ^ e + signed b k * 2 ^ g = 0) :
    fadd (.fin a m e) (.fin b k g) = .fin (a && b) 0 binary64.minExp :=
  (fadd_fin ..).trans (if_pos ((alignedSum_eq_zero_iff ..).mpr h))

theorem fsub_fin (a b : Bool) (m k : Nat) (e g : ℤ) :
    fsub (.fin a m e) (.fin b k g) = fadd (.fin a m e) (.fin (!b) k g) := rfl

theorem fsub_value (a b : Bool) (m k : Nat) (e g : ℤ) :
    (signed a m : ℚ) * 2 ^ e + signed (!b) k * 2 ^ g = signed a m * 2 ^ e - signed b k * 2 ^ g := by
  rw [signed_not]
  push_cast
  ring

theorem finiteValue?_fin_zero (neg : Bool) (e : ℤ) : finiteValue? (.fin neg 0 e) = some 0 := by
  rw [finiteValue?_fin, signed_mul_zpow_eq_zero.mpr rfl]

theorem finiteValue?_fin_false (m : Nat) (e : ℤ) : finiteValue? (.fin false m e) = some ((m : ℚ) * 2 ^ e) := rfl

/-- R13: finite operands give their exact value rounded once. -/
theorem operations_round {v w : FVal} {x y : ℚ} (hv : finiteValue? v = some x) (hw : finiteValue? w = some y) :
    RoundedOnce binary64 (fmul v w) (x * y) ∧
    (x + y ≠ 0 → RoundedOnce binary64 (fadd v w) (x + y)) ∧ (x + y = 0 → finiteValue? (fadd v w) = some 0) ∧
    (x - y ≠ 0 → RoundedOnce binary64 (fsub v w) (x - y)) ∧ (x - y = 0 → finiteValue? (fsub v w) = some 0) ∧
    (y ≠ 0 → RoundedOnce binary64 (fdiv v w) (x / y)) := by
  obtain ⟨a, m, e, rfl, rfl⟩ := finiteValue?_eq_some hv
  obtain ⟨b, k, g, rfl, rfl⟩ := finiteValue?_eq_some hw
  rw [fsub_fin, ← fsub_value]
  exact ⟨fmul_rounds .., fadd_rounds, fun h => fadd_zero h ▸ finiteValue?_fin_zero .., fadd_rounds,
    fun h => fadd_zero h ▸ finiteValue?_fin_zero .., fun h => fdiv_rounds _ _ _ _ _ (mt signed_mul_zpow_eq_zero.mpr h)⟩

/-- R13: the signs of zero results. -/
theorem operations_zero (a b : Bool) (m k : Nat) (e g : ℤ) (x y : ℚ) (hx : finiteValue? (.fin a m e) = some x)
    (hy : finiteValue? (.fin b k g) = some y) :
    (x * y = 0 → ∃ c, fmul (.fin a m e) (.fin b k g) = .fin (a != b) 0 c) ∧
    (x = 0 → y ≠ 0 → ∃ c, fdiv (.fin a m e) (.fin b k g) = .fin (a != b) 0 c) ∧
    (x + y = 0 → ∃ c, fadd (.fin a m e) (.fin b k g) = .fin (a && b) 0 c) ∧
    (x - y = 0 → ∃ c, fsub (.fin a m e) (.fin b k g) = .fin (a && !b) 0 c) := by
  obtain rfl := Option.some.inj hx
  obtain rfl := Option.some.inj hy
  refine ⟨fun h => ⟨binary64.minExp, ?_⟩, fun h hne => ⟨binary64.minExp, ?_⟩, fun h => ⟨_, fadd_zero h⟩, fun h => ⟨_, fadd_zero (by rwa [fsub_value])⟩⟩
  · have hmk : m * k = 0 := by
      rw [mul_eq_zero, signed_mul_zpow_eq_zero, signed_mul_zpow_eq_zero] at h
      exact mul_eq_zero.mpr h
    rw [fmul, hmk, Nat.zero_mul, roundTo_zero]
  · rw [fdiv, if_neg (mt signed_mul_zpow_eq_zero.mpr hne), signed_mul_zpow_eq_zero.mp h, Nat.zero_mul, roundTo_zero]

/-- R13: the operations with an infinity and a finite value. -/
theorem operations_inf (a b : Bool) (k : Nat) (g : ℤ) (y : ℚ) (hy : finiteValue? (.fin b k g) = some y) :
    fmul (.inf a) (.fin b k g) = (if y = 0 then .nan else .inf (a != b)) ∧
    fmul (.fin b k g) (.inf a) = (if y = 0 then .nan else .inf (a != b)) ∧
    fadd (.inf a) (.fin b k g) = .inf a ∧ fadd (.fin b k g) (.inf a) = .inf a ∧
    fsub (.inf a) (.fin b k g) = .inf a ∧ fsub (.fin b k g) (.inf a) = .inf (!a) := by
  obtain rfl := Option.some.inj hy
  simp only [signed_mul_zpow_eq_zero]
  exact ⟨rfl, by rw [bne_comm]; rfl, rfl, rfl, rfl, rfl⟩

/-- Settles O25: finite operands by the exact value each operation rounds; the rules for NaNs and infinities are the arms of the
operations. -/
theorem operationsRoundExactValuesOnce : Obligations.OperationsRoundExactValuesOnce := by
  refine ⟨fun v w x y => operations_round, fun neg m e x hx => ?_, operations_zero, ⟨rfl, fun v => ?_⟩,
    fun a => ⟨rfl, fun b => ⟨rfl, rfl, ?_⟩, operations_inf a⟩⟩
  · obtain rfl := Option.some.inj hx
    exact fl32_rounds neg m e
  · cases v <;> exact ⟨rfl, rfl, rfl, rfl, rfl, rfl, rfl, rfl⟩
  · cases a <;> cases b <;> rfl

end Sys2Proof.Machine
end

section
/-! PROOFS. Rounding as a relation on the rationals (00_scope.md R13): a nearest number, within a relative error; exact on numbers,
and monotone beside them. -/

namespace Sys2Proof.Machine

/-! ### The numbers of a format -/

/-- `x` is a number of format `f`. -/
def IsNumber (f : Format) (x : ℚ) : Prop := ∃ neg m e, representable f m e ∧ (signed neg m : ℚ) * 2 ^ e = x

theorem IsNumber.neg {f : Format} {x : ℚ} (h : IsNumber f x) : IsNumber f (-x) := by
  obtain ⟨neg, m, e, hrep, rfl⟩ := h
  exact ⟨!neg, m, e, hrep, by rw [signed_not, Int.cast_neg, neg_mul]⟩

theorem isNumber_of_nat {f : Format} {m : Nat} {e : ℤ} (h : representable f m e) : IsNumber f ((m : ℚ) * 2 ^ e) :=
  ⟨false, m, e, h, by simp⟩

theorem isNumber_zero {f : Format} (hf : f.Ordinary) : IsNumber f 0 :=
  ⟨false, 0, f.minExp, ⟨by positivity, le_rfl, hf.exps.le⟩, by simp⟩

/-- An integer of no more than 53 bits is a binary64 number. -/
theorem isNumber_natCast {n : Nat} (h : n < 2 ^ 53) : IsNumber binary64 n := by
  simpa using isNumber_of_nat (f := binary64) (e := 0) ⟨h, by decide, by decide⟩

/-- Widening to binary64 changes no value. -/
theorem IsNumber.widen {x : ℚ} (h : IsNumber binary32 x) : IsNumber binary64 x := by
  obtain ⟨neg, m, e, ⟨hm, hmin, hmax⟩, rfl⟩ := h
  simp only [binary32] at hm hmin hmax
  exact ⟨neg, m, e, ⟨hm.trans (by decide), by simp only [binary64]; omega, by simp only [binary64]; omega⟩, rfl⟩

/-- Two values at a common exponent differ by a whole number of its units. -/
theorem zpow_le_abs_sub {x y : ℚ} {c : ℤ} {i j : ℤ} (hx : x = i * 2 ^ c) (hy : y = j * 2 ^ c) (hne : x ≠ y) :
    (2 : ℚ) ^ c ≤ |x - y| := by
  subst hx hy
  have hij : i - j ≠ 0 := fun h => hne (by rw [sub_eq_zero.mp h])
  have hone : (1 : ℚ) ≤ |(i : ℚ) - j| := by exact_mod_cast Int.one_le_abs hij
  rw [← sub_mul, abs_mul, abs_of_pos (by positivity : (0 : ℚ) < 2 ^ c)]
  exact le_mul_of_one_le_left (by positivity) hone

theorem abs_signed_mul_zpow (neg : Bool) (m : Nat) (e : ℤ) : |(signed neg m : ℚ) * 2 ^ e| = m * 2 ^ e := by
  rw [abs_mul, abs_of_pos (by positivity : (0 : ℚ) < 2 ^ e)]
  cases neg <;> simp

theorem signed_mul_zpow_rescale (neg : Bool) (m : Nat) {e c : ℤ} (h : c ≤ e) :
    (signed neg m : ℚ) * 2 ^ e = (signed neg (m * pow2 (e - c)) : ℤ) * 2 ^ c := by
  rw [signed_mul_nat, Int.cast_mul, mul_assoc, Int.cast_natCast, pow2_mul_zpow h]

/-- Two numbers of a format lie apart, by its smallest number and in relation to their size. -/
theorem IsNumber.gap {f : Format} {x y : ℚ} (hx : IsNumber f x) (hy : IsNumber f y) (hne : x ≠ y) :
    (2 : ℚ) ^ f.minExp ≤ |x - y| ∧ |x| ≤ (2 ^ f.prec + 1) * |x - y| := by
  obtain ⟨a, m, e, ⟨hm, hmin, -⟩, rfl⟩ := hx
  obtain ⟨b, k, g, ⟨hk, hmin', -⟩, rfl⟩ := hy
  have hmQ : (m : ℚ) ≤ 2 ^ f.prec := by exact_mod_cast hm.le
  have hkQ : (k : ℚ) ≤ 2 ^ f.prec := by exact_mod_cast hk.le
  obtain hle | hle := le_total e g
  · have hgap := zpow_le_abs_sub rfl (signed_mul_zpow_rescale b k hle) hne
    refine ⟨(zpow_le_zpow_right₀ one_le_two hmin).trans hgap, ?_⟩
    calc |(signed a m : ℚ) * 2 ^ e| = m * 2 ^ e := abs_signed_mul_zpow ..
      _ ≤ (2 ^ f.prec + 1) * |(signed a m : ℚ) * 2 ^ e - signed b k * 2 ^ g| := by
        gcongr
        linarith
  · have hgap := zpow_le_abs_sub (signed_mul_zpow_rescale a m hle) rfl hne
    refine ⟨(zpow_le_zpow_right₀ one_le_two hmin').trans hgap, ?_⟩
    calc |(signed a m : ℚ) * 2 ^ e|
        ≤ |(signed b k : ℚ) * 2 ^ g| + |(signed a m : ℚ) * 2 ^ e - signed b k * 2 ^ g| := by
          have := abs_sub_abs_le_abs_sub ((signed a m : ℚ) * 2 ^ e) (signed b k * 2 ^ g)
          linarith
      _ ≤ 2 ^ f.prec * |(signed a m : ℚ) * 2 ^ e - signed b k * 2 ^ g| +
          |(signed a m : ℚ) * 2 ^ e - signed b k * 2 ^ g| := by
        rw [abs_signed_mul_zpow]
        gcongr
      _ = (2 ^ f.prec + 1) * |(signed a m : ℚ) * 2 ^ e - signed b k * 2 ^ g| := by ring

/-! ### Rounding as a relation -/

/-- `y` is a number nearest to `x`, within half of the last bit kept of `x`. -/
structure Rounds (f : Format) (x y : ℚ) : Prop where
  number : IsNumber f y
  nearest : ∀ w, IsNumber f w → |x - y| ≤ |x - w|
  error : |x - y| ≤ |x| / 2 ^ f.prec + 2 ^ (f.minExp - 1)

theorem Rounds.neg {f : Format} {x y : ℚ} (h : Rounds f x y) : Rounds f (-x) (-y) := by
  have hflip (a b : ℚ) : |-a - b| = |a - -b| := by rw [← abs_neg]; ring_nf
  refine ⟨h.number.neg, fun w hw => ?_, ?_⟩
  · rw [hflip, hflip, neg_neg]
    exact h.nearest (-w) hw.neg
  · rw [hflip, neg_neg, abs_neg]
    exact h.error

/-- A number is its own rounding. -/
theorem Rounds.eq_self {f : Format} {x y : ℚ} (h : Rounds f x y) (hx : IsNumber f x) : y = x := by
  have := h.nearest x hx
  rw [sub_self, abs_zero, abs_nonpos_iff, sub_eq_zero] at this
  exact this.symm

/-- Rounding does not cross a number, upwards. -/
theorem Rounds.le {f : Format} {x y a : ℚ} (h : Rounds f x y) (ha : IsNumber f a) (hxa : x ≤ a) : y ≤ a := by
  by_contra! hlt
  have := h.nearest a ha
  rw [abs_of_nonpos (by linarith), abs_of_nonpos (by linarith)] at this
  linarith

/-- Rounding does not cross a number, downwards. -/
theorem Rounds.ge {f : Format} {x y a : ℚ} (h : Rounds f x y) (ha : IsNumber f a) (hax : a ≤ x) : a ≤ y :=
  neg_le_neg_iff.mp (h.neg.le ha.neg (neg_le_neg hax))

theorem Rounds.abs_le_of_abs_le {f : Format} {x y a : ℚ} (h : Rounds f x y) (ha : IsNumber f a) (hxa : |x| ≤ a) : |y| ≤ a :=
  abs_le.mpr ⟨h.ge ha.neg (neg_le_of_abs_le hxa), h.le ha (le_of_abs_le hxa)⟩

/-! ### The rounding of a quotient -/

/-- The one form of a number: with all its bits, or at the smallest exponent. -/
abbrev Canonical (f : Format) (m : Nat) (e : ℤ) : Prop := representable f m e ∧ (2 ^ (f.prec - 1) ≤ m ∨ e = f.minExp)

theorem roundedMant_error {f : Format} {num den : Nat} (hf : f.Ordinary) (hnum : 0 < num) (hden : 0 < den) :
    |(num : ℚ) / den - roundedMant f num den * 2 ^ lastBitExp f num den| ≤
      num / den / 2 ^ f.prec + 2 ^ (f.minExp - 1) := by
  have hprec : 0 < f.prec := zero_lt_two.trans_le hf.prec
  obtain ⟨-, -, hlow⟩ := lastBitExp_spec f hprec hnum hden
  obtain ⟨hnear, -⟩ := roundedMant_nearest f num hden
  generalize lastBitExp f num den = c at *
  generalize roundedMant f num den = k at *
  have hpos : (0 : ℚ) < 2 ^ c := by positivity
  have hhalf : |(num : ℚ) / den - k * 2 ^ c| ≤ 2 ^ (c - 1) := by
    have hscale : (num : ℚ) / den - k * 2 ^ c = ((num : ℚ) / den / 2 ^ c - k) * 2 ^ c := by
      rw [sub_mul, div_mul_cancel₀ _ hpos.ne']
    rw [hscale, abs_mul, abs_of_pos hpos, zpow_sub_one₀ two_ne_zero]
    linarith [mul_le_mul_of_nonneg_right hnear hpos.le]
  refine hhalf.trans ?_
  obtain rfl | hlow := hlow
  · exact le_add_of_nonneg_left (by positivity)
  · have hbits : (2 : ℚ) ^ (c - 1) ≤ num / den / 2 ^ f.prec := by
      rw [le_div_iff₀ (by positivity)] at hlow ⊢
      rw [← mul_pow_sub_one hprec.ne', zpow_sub_one₀ two_ne_zero]
      linarith
    exact hbits.trans (le_add_of_nonneg_right (by positivity))

/-- The rounded mantissa at the last bit kept is a rounding of the quotient: no negative number is nearer than its magnitude. -/
theorem roundedMant_rounds {f : Format} {num den m : Nat} {e : ℤ} (hf : f.Ordinary) (hnum : 0 < num) (hden : 0 < den)
    (hrep : representable f m e) (hvalue : (m : ℚ) * 2 ^ e = roundedMant f num den * 2 ^ lastBitExp f num den) :
    Rounds f (num / den) (m * 2 ^ e) := by
  have hnonneg : (0 : ℚ) ≤ num / den := by positivity
  refine ⟨isNumber_of_nat hrep, ?_, ?_⟩
  · rintro w ⟨b, k, g, hrep', rfl⟩
    obtain ⟨hle, -⟩ := roundedMant_nearest_number hf hnum hden hrep'
    calc |(num : ℚ) / den - m * 2 ^ e| ≤ |(num : ℚ) / den - k * 2 ^ g| := hvalue ▸ hle
      _ = |(|(num : ℚ) / den| - |(signed b k : ℚ) * 2 ^ g|)| := by rw [abs_signed_mul_zpow, abs_of_nonneg hnonneg]
      _ ≤ |(num : ℚ) / den - signed b k * 2 ^ g| := abs_abs_sub_abs_le ..
  · rw [hvalue, abs_of_nonneg hnonneg]
    exact roundedMant_error hf hnum hden

/-- A quotient below the format's limit rounds to a canonical number of its sign. -/
theorem roundTo_rounds {f : Format} {neg : Bool} {num den : Nat} {x : ℚ} (hf : f.Ordinary) (hden : 0 < den)
    (hx : (signed neg num : ℚ) / den = x) (hlimit : |x| < f.limit) :
    ∃ m e, roundTo f neg num den = .fin neg m e ∧ Canonical f m e ∧ Rounds f x (signed neg m * 2 ^ e) := by
  obtain rfl | hnum := num.eq_zero_or_pos
  · have hzero : x = 0 := by rw [← hx, signed_eq_zero.mpr rfl, Int.cast_zero, zero_div]
    refine ⟨0, f.minExp, roundTo_zero .., ⟨⟨by positivity, le_rfl, hf.exps.le⟩, .inr rfl⟩, ?_⟩
    rw [hzero, signed_mul_zpow_eq_zero.mpr rfl]
    exact ⟨isNumber_zero hf, fun w _ => by simp, by simp; positivity⟩
  · have habs : |x| = num / den := by
      rw [← hx, abs_div, Nat.abs_cast]
      cases neg <;> simp
    obtain ⟨m, e, hround, hrep, hcanon, -, hvalue, -⟩ | ⟨-, hinf⟩ := roundTo_cases neg hf hnum hden
    · refine ⟨m, e, hround, ⟨hrep, hcanon⟩, ?_⟩
      have hpos := roundedMant_rounds hf hnum hden hrep hvalue
      cases neg with
      | false => simpa [← hx] using hpos
      | true => simpa [← hx, neg_div] using hpos.neg
    · exact absurd hlimit (habs ▸ hinf).not_gt

/-! ### The rounding of an operation -/

/-- An operation that rounds once a value below the format's limit has a finite result. -/
theorem RoundedOnce.finite {f : Format} {v : FVal} {x : ℚ} (hf : f.Ordinary) (h : RoundedOnce f v x)
    (hlimit : |x| < f.limit) : ∃ y, finiteValue? v = some y ∧ Rounds f x y := by
  obtain ⟨neg, num, den, hden, rfl, hx⟩ := h
  obtain ⟨m, e, hround, -, hrounds⟩ := roundTo_rounds hf hden hx hlimit
  exact ⟨_, by rw [hround]; rfl, hrounds⟩

/-- An operation exact at zero rounds to zero. -/
theorem rounds_zero {f : Format} (hf : f.Ordinary) : Rounds f 0 0 :=
  ⟨isNumber_zero hf, fun w _ => by simp, by simp; positivity⟩

section
variable {v w : FVal} {x y : ℚ} (hv : finiteValue? v = some x) (hw : finiteValue? w = some y)
include hv hw

theorem fmul_finite (hlimit : |x * y| < binary64.limit) :
    ∃ z, finiteValue? (fmul v w) = some z ∧ Rounds binary64 (x * y) z := by
  obtain ⟨hmul, -⟩ := operations_round hv hw
  exact hmul.finite binary64_ordinary hlimit

theorem fadd_finite (hlimit : |x + y| < binary64.limit) :
    ∃ z, finiteValue? (fadd v w) = some z ∧ Rounds binary64 (x + y) z := by
  obtain ⟨-, hadd, hzero, -⟩ := operations_round hv hw
  by_cases h : x + y = 0
  · exact ⟨0, hzero h, h ▸ rounds_zero binary64_ordinary⟩
  · exact (hadd h).finite binary64_ordinary hlimit

theorem fsub_finite (hlimit : |x - y| < binary64.limit) :
    ∃ z, finiteValue? (fsub v w) = some z ∧ Rounds binary64 (x - y) z := by
  obtain ⟨-, -, -, hsub, hzero, -⟩ := operations_round hv hw
  by_cases h : x - y = 0
  · exact ⟨0, hzero h, h ▸ rounds_zero binary64_ordinary⟩
  · exact (hsub h).finite binary64_ordinary hlimit

theorem fdiv_finite (hy : y ≠ 0) (hlimit : |x / y| < binary64.limit) :
    ∃ z, finiteValue? (fdiv v w) = some z ∧ Rounds binary64 (x / y) z := by
  obtain ⟨-, -, -, -, -, hdiv⟩ := operations_round hv hw
  exact (hdiv hy).finite binary64_ordinary hlimit

end

/-- R164: the result of a sample, rounded to binary32. -/
theorem fl32_rounds_to {neg : Bool} {m : Nat} {e : ℤ} {x : ℚ} (hx : (signed neg m : ℚ) * 2 ^ e = x)
    (hlimit : |x| < binary32.limit) :
    ∃ k g, fl32 (.fin neg m e) = .fin neg k g ∧ Canonical binary32 k g ∧ Rounds binary32 x (signed neg k * 2 ^ g) := by
  obtain ⟨num, den, hden, hround, hvalue⟩ := fl32_rounds neg m e
  rw [hround]
  exact roundTo_rounds binary32_ordinary hden (hvalue.trans hx) hlimit

/-- The magnitudes of the resampler stay far below binary64's limit. -/
theorem lt_limit_of_le {x : ℚ} (h : |x| ≤ 2 ^ (200 : ℤ)) : |x| < binary64.limit := calc
  |x| ≤ 2 ^ (200 : ℤ) := h
  _ ≤ 2 ^ (971 : ℤ) := zpow_le_zpow_right₀ one_le_two (by decide)
  _ < (2 ^ 53 - 1 / 2) * 2 ^ (971 : ℤ) := lt_mul_of_one_lt_left (by positivity) (by norm_num)

end Sys2Proof.Machine
end

section
/-! PROOFS. Binary32 patterns and their values (00_scope.md R13): reading a pattern and writing it back, the one form of a number,
and the codec's exact quotients (40_codec.md R133, R137, R138). -/

namespace Sys2Proof.Machine

/-! ### Patterns -/

theorem signField_append (a : BitVec 1) (b : BitVec 8) (c : BitVec 23) :
    (a ++ (b ++ c) : Word).extractLsb' 31 1 = a := BitVec.extractLsb'_append_eq_left

/-- The sign bit of a pattern (R13). -/
def signBit (w : Word) : Bool := decide (w.extractLsb' 31 1 = 1#1)

theorem ofBool_signBit (w : Word) : BitVec.ofBool (signBit w) = w.extractLsb' 31 1 := ofBool_decide_eq_one _

/-- What a pattern denotes, by its exponent and fraction fields. -/
theorem f32_eq (w : Word) : f32 w =
    if (w.extractLsb' 23 8).toNat = 255 then (if (w.extractLsb' 0 23).toNat = 0 then .inf (signBit w) else .nan)
    else if (w.extractLsb' 23 8).toNat = 0 then .fin (signBit w) (w.extractLsb' 0 23).toNat (-149)
    else .fin (signBit w) (2 ^ 23 + (w.extractLsb' 0 23).toNat) (((w.extractLsb' 23 8).toNat : ℤ) - 150) := rfl

theorem canonical_binary32 {m : Nat} {e : ℤ} :
    Canonical binary32 m e ↔ (m < 2 ^ 24 ∧ -149 ≤ e ∧ e ≤ 104) ∧ (2 ^ 23 ≤ m ∨ e = -149) := Iff.rfl

/-- A finite pattern denotes a number in its one form, with the pattern's sign. -/
theorem f32_fin {w : Word} {neg : Bool} {m : Nat} {e : ℤ} (h : f32 w = .fin neg m e) :
    neg = signBit w ∧ Canonical binary32 m e := by
  have hex := (w.extractLsb' 23 8).isLt
  have hfr := (w.extractLsb' 0 23).isLt
  rw [canonical_binary32]
  rw [f32_eq] at h
  split_ifs at h with hinf hzero <;> cases h
  · exact ⟨rfl, ⟨hfr.trans (by decide), le_rfl, by decide⟩, .inr rfl⟩
  · exact ⟨rfl, ⟨by omega, by omega, by omega⟩, .inl (Nat.le_add_right ..)⟩

theorem ofNat_toNat_eq {w : Nat} {b : BitVec w} {k : Nat} (h : b.toNat = k) : BitVec.ofNat w k = b := by
  rw [← h, BitVec.ofNat_toNat, BitVec.setWidth_eq]

/-- Writing back what a pattern denotes gives the pattern, but for a NaN. -/
theorem bits32_f32 (p : NaNPattern) {w : Word} (h : f32 w ≠ .nan) : bits32 p (f32 w) = w := by
  have hfr := (w.extractLsb' 0 23).isLt
  have hfields := word_eq_fields w
  rw [← ofBool_signBit] at hfields
  rw [f32_eq] at h ⊢
  split_ifs at h ⊢ with hinf hnan hzero
  · rw [← ofNat_toNat_eq hinf, ← ofNat_toNat_eq hnan] at hfields
    exact hfields
  · exact absurd rfl h
  · rw [← ofNat_toNat_eq hzero] at hfields
    simp only [bits32, if_pos hfr, BitVec.ofNat_toNat, BitVec.setWidth_eq]
    exact hfields
  · have hexp : (((w.extractLsb' 23 8).toNat : ℤ) - 150 + 150).toNat = (w.extractLsb' 23 8).toNat := by omega
    simp only [bits32, if_neg (Nat.le_add_right ..).not_gt, hexp, Nat.add_sub_cancel_left, BitVec.ofNat_toNat,
      BitVec.setWidth_eq]
    exact hfields

/-- What a pattern written in its fields denotes. -/
theorem f32_append (neg : Bool) (b : BitVec 8) (c : BitVec 23) : f32 (BitVec.ofBool neg ++ (b ++ c)) =
    if b.toNat = 255 then (if c.toNat = 0 then .inf neg else .nan)
    else if b.toNat = 0 then .fin neg c.toNat (-149)
    else .fin neg (2 ^ 23 + c.toNat) ((b.toNat : ℤ) - 150) := by
  have hsign : signBit (BitVec.ofBool neg ++ (b ++ c)) = neg := by
    rw [signBit, signField_append]
    cases neg <;> rfl
  rw [f32_eq, hsign, exponentField_append, fractionField_append]

/-- Reading a written number gives it. -/
theorem f32_bits32 (p : NaNPattern) {neg : Bool} {m : Nat} {e : ℤ} (h : Canonical binary32 m e) :
    f32 (bits32 p (.fin neg m e)) = .fin neg m e := by
  obtain ⟨⟨hm, hmin, hmax⟩, hform⟩ := canonical_binary32.mp h
  by_cases hsub : m < 2 ^ 23
  · obtain rfl : e = -149 := hform.resolve_left hsub.not_ge
    have hfrac : (BitVec.ofNat 23 m).toNat = m := by rw [BitVec.toNat_ofNat, Nat.mod_eq_of_lt hsub]
    rw [bits32, if_pos hsub, f32_append, hfrac, if_neg (by decide), if_pos (by decide)]
  · have hexp : (BitVec.ofNat 8 (e + 150).toNat).toNat = (e + 150).toNat := by
      rw [BitVec.toNat_ofNat, Nat.mod_eq_of_lt (by omega)]
    have hfrac : (BitVec.ofNat 23 (m - 2 ^ 23)).toNat = m - 2 ^ 23 := by
      rw [BitVec.toNat_ofNat, Nat.mod_eq_of_lt (by omega)]
    have hmant : 2 ^ 23 + (m - 2 ^ 23) = m := by omega
    have hback : (((e + 150).toNat : ℤ) - 150) = e := by omega
    rw [bits32, if_neg hsub, f32_append, hexp, hfrac, if_neg (by omega), if_neg (by omega), hmant, hback]

theorem canonical_zero : Canonical binary32 0 (-149) := canonical_binary32.mpr ⟨⟨by decide, le_rfl, by decide⟩, .inr rfl⟩

theorem canonical_exp_le {f : Format} {m k : Nat} {e g : ℤ} (hf : f.Ordinary) (hm : Canonical f m e)
    (hk : Canonical f k g) (hvalue : (m : ℚ) * 2 ^ e = k * 2 ^ g) : g ≤ e := by
  by_contra! hlt
  obtain ⟨⟨hm, hmin, -⟩, -⟩ := hm
  obtain ⟨-, hform⟩ := hk
  have hfull : 2 ^ (f.prec - 1) ≤ k := hform.resolve_right (by omega)
  have hmQ : (m : ℚ) < 2 ^ f.prec := by exact_mod_cast hm
  have hkQ : (2 : ℚ) ^ (f.prec - 1) ≤ k := by exact_mod_cast hfull
  refine absurd hvalue (ne_of_lt ?_)
  calc (m : ℚ) * 2 ^ e < 2 ^ f.prec * 2 ^ e := by gcongr
    _ = 2 ^ (f.prec - 1) * 2 ^ (e + 1) := by
      rw [← mul_pow_sub_one (show f.prec ≠ 0 by have := hf.prec; omega), zpow_add_one₀ two_ne_zero]
      ring
    _ ≤ k * 2 ^ g := by
      gcongr
      · exact one_le_two
      · omega

/-- A number other than zero has one form, its sign included: a full mantissa fixes the exponent. -/
theorem canonical_unique {f : Format} {a b : Bool} {m k : Nat} {e g : ℤ} (hf : f.Ordinary) (hm : Canonical f m e)
    (hk : Canonical f k g) (hvalue : (signed a m : ℚ) * 2 ^ e = signed b k * 2 ^ g)
    (hne : (signed a m : ℚ) * 2 ^ e ≠ 0) : (.fin a m e : FVal) = .fin b k g := by
  have habs : (m : ℚ) * 2 ^ e = k * 2 ^ g := by
    rw [← abs_signed_mul_zpow a, hvalue, abs_signed_mul_zpow]
  obtain rfl : e = g := le_antisymm (canonical_exp_le hf hk hm habs.symm) (canonical_exp_le hf hm hk habs)
  have hpos : (2 : ℚ) ^ e ≠ 0 := by positivity
  obtain rfl : m = k := by exact_mod_cast mul_right_cancel₀ hpos habs
  have hm0 : m ≠ 0 := fun h => hne (signed_mul_zpow_eq_zero.mpr h)
  have hsign : signed a m = signed b m := by exact_mod_cast mul_right_cancel₀ hpos hvalue
  cases a <;> cases b <;> simp only [signed_false, signed_true] at hsign <;> first | rfl | omega

/-! ### The codec's quotients -/

theorem lt_limit_binary32 {x : ℚ} (h : |x| ≤ 2 ^ (104 : ℤ)) : |x| < binary32.limit := calc
  |x| ≤ 2 ^ (104 : ℤ) := h
  _ < (2 ^ 24 - 1 / 2) * 2 ^ (104 : ℤ) := lt_mul_of_one_lt_left (by positivity) (by norm_num)

/-- R133: the quotient by 32768 is a binary32 number. -/
theorem isNumber_pcm {n : ℤ} (hlo : -32768 ≤ n) (hhi : n ≤ 32767) : IsNumber binary32 ((n : ℚ) / 32768) := by
  refine ⟨decide (n < 0), n.natAbs, -15, ⟨?_, by decide, by decide⟩, ?_⟩
  · simp only [binary32]
    omega
  · rw [signed_decide_natAbs]
    norm_num
    ring

/-- R133: decode is the exact quotient. -/
theorem finiteValue?_decodeSample {n : ℤ} (hlo : -32768 ≤ n) (hhi : n ≤ 32767) :
    finiteValue? (f32 (decodeSample n)) = some ((n : ℚ) / 32768) := by
  have hx : (signed (decide (n < 0)) n.natAbs : ℚ) / (32768 : Nat) = n / 32768 := by
    rw [signed_decide_natAbs, Nat.cast_ofNat]
  have hlimit : |(n : ℚ) / 32768| ≤ 2 ^ (104 : ℤ) := by
    have hnQ : |(n : ℚ)| ≤ 32768 := by exact_mod_cast abs_le.mpr ⟨hlo, by omega⟩
    rw [abs_div, abs_of_pos (by norm_num : (0 : ℚ) < 32768), div_le_iff₀ (by norm_num)]
    exact hnQ.trans (by norm_num)
  obtain ⟨m, e, hround, hcanon, hrounds⟩ := roundTo_rounds binary32_ordinary (by decide) hx (lt_limit_binary32 hlimit)
  rw [decodeSample, hround, f32_bits32 _ hcanon, finiteValue?_fin, hrounds.eq_self (isNumber_pcm hlo hhi)]

/-- Settles O19: order and range are those of the exact quotients. -/
theorem decodeIsExactQuotient : Obligations.DecodeIsExactQuotient := by
  refine ⟨fun n => finiteValue?_decodeSample, by decide, fun m n x y hlo hlt hhi hx hy => ?_⟩
  rw [finiteValue?_decodeSample hlo (by omega), Option.some.injEq] at hx
  rw [finiteValue?_decodeSample (by omega) hhi, Option.some.injEq] at hy
  have hloQ : (-32768 : ℚ) ≤ m := by exact_mod_cast hlo
  have hltQ : (m : ℚ) < n := by exact_mod_cast hlt
  have hhiQ : (n : ℚ) ≤ 32767 := by exact_mod_cast hhi
  subst hx hy
  refine ⟨?_, ?_, ?_⟩ <;> linarith

/-- R130: within [-1, 1] there is nothing to clamp. -/
theorem encodeSample_of_unit {w : Word} {x : ℚ} (hx : finiteValue? (f32 w) = some x) (hlo : -1 ≤ x) (hhi : x ≤ 1) :
    encodeSample w = truncRat (if x < 0 then x * 32768 else x * 32767) := by
  have h := finiteValue?_clampUnit hx
  rw [min_eq_right hhi, max_eq_right hlo] at h
  exact encodeSample_of_clampUnit h

theorem truncRat_of_neg {x : ℚ} (h : x < 0) : truncRat x = ⌈x⌉ := if_pos h

theorem encodeSample_of_neg {w : Word} {x : ℚ} (hx : finiteValue? (f32 w) = some x) (hlo : -1 ≤ x) (hneg : x < 0) :
    encodeSample w = ⌈x * 32768⌉ := by
  rw [encodeSample_of_unit hx hlo (by linarith), if_pos hneg, truncRat_of_neg (by linarith)]

theorem encodeSample_of_nonneg {w : Word} {x : ℚ} (hx : finiteValue? (f32 w) = some x) (hnonneg : 0 ≤ x) (hhi : x ≤ 1) :
    encodeSample w = ⌊x * 32767⌋ := by
  rw [encodeSample_of_unit hx (by linarith) hhi, if_neg hnonneg.not_gt, truncRat_of_nonneg (by positivity)]

/-- Settles O20: the exact quotient times 32768 is the sample; times 32767 it falls short of it by less than one. -/
theorem decodeThenEncode : Obligations.DecodeThenEncode := by
  intro n hlo hhi
  have hx := finiteValue?_decodeSample hlo hhi
  have hloQ : (-32768 : ℚ) ≤ n := by exact_mod_cast hlo
  have hhiQ : (n : ℚ) ≤ 32767 := by exact_mod_cast hhi
  obtain hneg | rfl | hpos := lt_trichotomy n 0
  · have hnegQ : (n : ℚ) < 0 := by exact_mod_cast hneg
    rw [encodeSample_of_neg hx (by linarith) (by linarith), if_pos hneg.le, div_mul_cancel₀ _ (by norm_num), Int.ceil_intCast]
  · decide
  · have hposQ : (0 : ℚ) < n := by exact_mod_cast hpos
    rw [encodeSample_of_nonneg hx (by positivity) (by linarith), if_neg (by omega), Int.floor_eq_iff]
    push_cast
    constructor <;> linarith

/-- Settles O21: a ceiling of `x * 32768` below zero and a floor of `x * 32767` above, over 32768. -/
theorem encodeThenDecodeBounds : Obligations.EncodeThenDecodeBounds := by
  intro w x hx hlo hhi
  obtain hneg | hnonneg := lt_or_ge x 0
  · have hn := encodeSample_of_neg hx hlo hneg
    have hge := Int.le_ceil (x * 32768)
    have hlt := Int.ceil_lt_add_one (x * 32768)
    rw [← hn] at hge hlt
    have hlow : -32768 ≤ encodeSample w := by
      rw [hn]
      exact Int.le_ceil_iff.mpr (by push_cast; linarith)
    have hhigh : encodeSample w ≤ 32767 := by
      rw [hn]
      exact Int.ceil_le.mpr (by push_cast; linarith)
    exact ⟨_, finiteValue?_decodeSample hlow hhigh, fun _ => ⟨by linarith, by linarith⟩, fun h => absurd hneg h.not_gt⟩
  · have hn := encodeSample_of_nonneg hx hnonneg hhi
    have hle := Int.floor_le (x * 32767)
    have hgt := Int.lt_floor_add_one (x * 32767)
    rw [← hn] at hle hgt
    have hlow : -32768 ≤ encodeSample w := by
      rw [hn]
      exact Int.le_floor.mpr (by push_cast; linarith)
    have hhigh : encodeSample w ≤ 32767 := by
      rw [hn]
      exact Int.floor_le_iff.mpr (by push_cast; linarith)
    exact ⟨_, finiteValue?_decodeSample hlow hhigh, fun h => absurd hnonneg h.not_ge, fun _ => ⟨by linarith, by linarith⟩⟩

end Sys2Proof.Machine
end

section
/-! PROOFS. Positions of the resampler (41_resampler.md R164, R166): finite and nonnegative, with an exact fraction; and below the
input's length at every output index of a command. -/

namespace Sys2Proof.Machine

/-! ### Nonnegative values -/

theorem representable_of_roundTo {f : Format} {neg : Bool} {num den : Nat} (hf : f.Ordinary) (hden : 0 < den) :
    roundTo f neg num den = .inf neg ∨ ∃ m e, roundTo f neg num den = .fin neg m e ∧ representable f m e := by
  obtain rfl | hnum := num.eq_zero_or_pos
  · exact .inr ⟨0, f.minExp, roundTo_zero .., by positivity, le_rfl, hf.exps.le⟩
  · obtain ⟨m, e, hround, hrep, -⟩ | ⟨hinf, -⟩ := roundTo_cases neg hf hnum hden
    · exact .inr ⟨m, e, hround, hrep⟩
    · exact .inl hinf

/-- A positive value has the sign `+`. -/
theorem fin_false_of_pos {v : FVal} {x : ℚ} (hv : finiteValue? v = some x) (hpos : 0 < x) :
    ∃ m e, v = .fin false m e ∧ (m : ℚ) * 2 ^ e = x := by
  obtain ⟨neg, m, e, rfl, hx⟩ := finiteValue?_eq_some hv
  cases neg with
  | false => exact ⟨m, e, rfl, by simpa using hx⟩
  | true =>
    have : (0 : ℚ) ≤ m * 2 ^ e := by positivity
    rw [signed_true, Int.cast_neg, neg_mul, Int.cast_natCast] at hx
    linarith

theorem floorNat_bounds (m : Nat) (e : ℤ) :
    (floorNat (.fin false m e) : ℚ) ≤ m * 2 ^ e ∧ (m : ℚ) * 2 ^ e < floorNat (.fin false m e) + 1 := by
  have hnonneg : 0 ≤ ⌊(m : ℚ) * 2 ^ e⌋ := Int.floor_nonneg.mpr (by positivity)
  have hcast : (floorNat (.fin false m e) : ℚ) = ⌊(m : ℚ) * 2 ^ e⌋ := by
    rw [floorNat_fin]
    exact_mod_cast congrArg (Int.cast : ℤ → ℚ) (Int.toNat_of_nonneg hnonneg)
  rw [hcast]
  exact ⟨Int.floor_le _, Int.lt_floor_add_one _⟩

/-! ### The ratio and the positions -/

/-- R162: the ratio of nonzero rates is a positive number. -/
theorem rateRatio_rounds {rin rout : Word} (hin : rin ≠ 0) (hout : rout ≠ 0) :
    ∃ m e, rateRatio rin rout = .fin false m e ∧ (2 : ℚ) ^ (-32 : ℤ) ≤ m * 2 ^ e ∧ (m : ℚ) * 2 ^ e ≤ 2 ^ (32 : ℤ) := by
  have hinQ : (1 : ℚ) ≤ rin.toNat := by
    exact_mod_cast Nat.one_le_iff_ne_zero.mpr fun h => hin (BitVec.eq_of_toNat_eq h)
  have houtQ : (1 : ℚ) ≤ rout.toNat := by
    exact_mod_cast Nat.one_le_iff_ne_zero.mpr fun h => hout (BitVec.eq_of_toNat_eq h)
  have hinU : (rin.toNat : ℚ) ≤ 2 ^ (32 : ℤ) := by exact_mod_cast rin.isLt.le
  have houtU : (rout.toNat : ℚ) ≤ 2 ^ (32 : ℤ) := by exact_mod_cast rout.isLt.le
  have hhigh : (rout.toNat : ℚ) / rin.toNat ≤ 2 ^ (32 : ℤ) := (div_le_self (by positivity) hinQ).trans houtU
  have hlow : (2 : ℚ) ^ (-32 : ℤ) ≤ rout.toNat / rin.toNat := by
    rw [zpow_neg, inv_eq_one_div]
    gcongr
  have hnum {e : ℤ} (hmin : -1074 ≤ e) (hmax : e ≤ 971) : IsNumber binary64 (2 ^ e) := by
    simpa using isNumber_of_nat (f := binary64) (m := 1) (e := e) ⟨by decide, hmin, hmax⟩
  obtain ⟨r, hr, hrounds⟩ := fdiv_finite (finiteValue?_ofNat64 (word_lt_two_pow_53 rout))
    (finiteValue?_ofNat64 (word_lt_two_pow_53 rin)) (by positivity) (lt_limit_of_le (by
      rw [abs_of_nonneg (by positivity)]
      exact hhigh.trans (zpow_le_zpow_right₀ one_le_two (by decide))))
  have hge := hrounds.ge (hnum (by decide) (by decide)) hlow
  have hle := hrounds.le (hnum (by decide) (by decide)) hhigh
  obtain ⟨m, e, hfin, rfl⟩ := fin_false_of_pos hr ((by positivity : (0 : ℚ) < 2 ^ (-32 : ℤ)).trans_le hge)
  exact ⟨m, e, hfin, hge, hle⟩

/-- R164: a position is an infinity or a nonnegative number. -/
theorem samplePos_cases {m : Nat} (e : ℤ) (i : Nat) (hm : m ≠ 0) :
    samplePos (.fin false m e) i = .inf false ∨
      ∃ k g, samplePos (.fin false m e) i = .fin false k g ∧ representable binary64 k g := by
  obtain hi | ⟨a, b, hi, -⟩ := representable_of_roundTo (f := binary64) (neg := false) (num := i) binary64_ordinary one_pos
  · exact .inl (by rw [samplePos, ofNat64, hi]; rfl)
  · rw [samplePos, ofNat64, hi, fdiv, if_neg hm]
    exact representable_of_roundTo binary64_ordinary (Nat.mul_pos (Nat.pos_of_ne_zero hm) (pow2_pos _))

/-- R164: the position of an output index within COUNT_MAX is the quotient, rounded. -/
theorem samplePos_rounds {i m : Nat} {e : ℤ} (hi : i ≤ countMax) (hratio : (2 : ℚ) ^ (-32 : ℤ) ≤ m * 2 ^ e) :
    ∃ k g, samplePos (.fin false m e) i = .fin false k g ∧ representable binary64 k g ∧
      Rounds binary64 (i / (m * 2 ^ e)) (k * 2 ^ g) := by
  have hpos : (0 : ℚ) < m * 2 ^ e := (by positivity : (0 : ℚ) < 2 ^ (-32 : ℤ)).trans_le hratio
  have hm : m ≠ 0 := by
    rintro rfl
    simp at hpos
  have hiQ : (i : ℚ) ≤ 2 ^ (24 : ℤ) := by exact_mod_cast hi.trans (by decide : countMax ≤ 2 ^ 24)
  have hsize : |(i : ℚ) / (m * 2 ^ e)| ≤ 2 ^ (200 : ℤ) := calc
    |(i : ℚ) / (m * 2 ^ e)| = i / (m * 2 ^ e) := abs_of_nonneg (by positivity)
    _ ≤ 2 ^ (24 : ℤ) / 2 ^ (-32 : ℤ) := by gcongr
    _ = 2 ^ (56 : ℤ) := (zpow_sub₀ two_ne_zero _ _).symm
    _ ≤ 2 ^ (200 : ℤ) := zpow_le_zpow_right₀ one_le_two (by decide)
  obtain ⟨p, hp, hrounds⟩ := fdiv_finite (finiteValue?_ofNat64 (hi.trans_lt (by decide))) (finiteValue?_fin_false m e) hpos.ne'
    (lt_limit_of_le hsize)
  obtain hinf | ⟨k, g, hfin, hrep⟩ := samplePos_cases e i hm
  · rw [← samplePos, hinf] at hp
    cases hp
  · rw [← samplePos, hfin] at hp
    cases hp
    exact ⟨k, g, hfin, hrep, by simpa using hrounds⟩

/-! ### The index guard -/

/-- A positive integer within COUNT_MAX less `2^-29` is a binary64 number. -/
theorem isNumber_sub_unit {n : Nat} (hpos : 0 < n) (hn : n ≤ countMax) :
    IsNumber binary64 ((n : ℚ) - 2 ^ (-29 : ℤ)) := by
  have hle : 1 ≤ n * 2 ^ 29 := Nat.mul_pos hpos (by decide)
  have hrep : representable binary64 (n * 2 ^ 29 - 1) (-29) := by
    simp only [countMax] at hn
    exact ⟨by simp only [binary64]; omega, by decide, by decide⟩
  have hvalue : ((n * 2 ^ 29 - 1 : Nat) : ℚ) * 2 ^ (-29 : ℤ) = n - 2 ^ (-29 : ℤ) := by
    have hunit : (2 : ℚ) ^ (-29 : ℤ) = 1 / 536870912 := by norm_num
    rw [Nat.cast_sub hle, hunit]
    push_cast
    ring
  exact hvalue ▸ isNumber_of_nat hrep

/-- Index and length times ratio differ by nearly one, which outweighs the units that rounding may add. -/
theorem index_div_ratio_le {r : ℚ} {len i M : Nat} (hr : 0 < r) (hi : i < M)
    (hlow : (M : ℚ) - 2 ^ (-29 : ℤ) ≤ len * r) (hhigh : len * r < 2 ^ 24) : (i : ℚ) / r ≤ len - 2 ^ (-29 : ℤ) := by
  have hiM : (i : ℚ) + 1 ≤ M := by exact_mod_cast hi
  have hunit : (2 : ℚ) ^ (-29 : ℤ) = 1 / 536870912 := by norm_num
  rw [hunit] at hlow ⊢
  have hlen : (1 : ℚ) ≤ len := by
    have : len ≠ 0 := by
      rintro rfl
      have : (0 : ℚ) ≤ i := by positivity
      rw [Nat.cast_zero, zero_mul] at hlow
      linarith
    exact_mod_cast Nat.one_le_iff_ne_zero.mpr this
  have hsmall : r < 2 ^ 24 := (le_mul_of_one_le_left hr.le hlen).trans_lt hhigh
  rw [div_le_iff₀ hr, sub_mul]
  linarith

/-- R162: M is the floor of the rounded product of length and ratio. -/
theorem outLen_rounds {rin rout : Word} {len m : Nat} {e : ℤ} (hin : rin ≠ 0) (hne : rin ≠ rout) (hlen : len ≤ countMax)
    (hratio : rateRatio rin rout = .fin false m e) (hhigh : (m : ℚ) * 2 ^ e ≤ 2 ^ (32 : ℤ)) :
    ∃ q, Rounds binary64 (len * (m * 2 ^ e)) q ∧ (outLen len rin rout : ℚ) ≤ q ∧ q < outLen len rin rout + 1 := by
  obtain ⟨a, b, hprod⟩ := fmul_rateRatio_eq_fin rout hin hlen
  have hvalue : finiteValue? (rateRatio rin rout) = some ((m : ℚ) * 2 ^ e) := by
    rw [hratio, finiteValue?_fin_false]
  have hlenQ : (len : ℚ) ≤ 2 ^ (24 : ℤ) := by exact_mod_cast hlen.trans (by decide : countMax ≤ 2 ^ 24)
  have hsize : |(len : ℚ) * (m * 2 ^ e)| ≤ 2 ^ (200 : ℤ) := calc
    |(len : ℚ) * (m * 2 ^ e)| = len * (m * 2 ^ e) := abs_of_nonneg (by positivity)
    _ ≤ 2 ^ (24 : ℤ) * 2 ^ (32 : ℤ) := by gcongr
    _ = 2 ^ (56 : ℤ) := (zpow_add₀ two_ne_zero _ _).symm
    _ ≤ 2 ^ (200 : ℤ) := zpow_le_zpow_right₀ one_le_two (by decide)
  obtain ⟨q, hq, hQ⟩ := fmul_finite (finiteValue?_ofNat64 (hlen.trans_lt (by decide))) hvalue (lt_limit_of_le hsize)
  rw [hprod] at hq
  obtain rfl : (a : ℚ) * 2 ^ b = q := by simpa using hq
  rw [outLen_of_ne len hne, hprod]
  exact ⟨_, hQ, floorNat_bounds a b⟩

/-- A value whose rounding has a floor `M` within COUNT_MAX is below it by less than `2^-29`, and below `2^24`. -/
theorem bounds_of_rounds_floor {p q : ℚ} {M : Nat} (hQ : Rounds binary64 p q) (hpos : 0 < M) (hM : M ≤ countMax)
    (hMq : (M : ℚ) ≤ q) (hqM : q < M + 1) : (M : ℚ) - 2 ^ (-29 : ℤ) ≤ p ∧ p < 2 ^ 24 := by
  have hgap : (0 : ℚ) < 2 ^ (-29 : ℤ) := by positivity
  have hMmax : (M : ℚ) + 1 ≤ 2 ^ 24 := by exact_mod_cast Nat.succ_le_succ hM
  have hlimit : IsNumber binary64 (2 ^ 24) := by exact_mod_cast isNumber_natCast (n := 2 ^ 24) (by decide)
  constructor
  · by_contra! hlt
    linarith [hQ.le (isNumber_sub_unit hpos hM) hlt.le]
  · by_contra! hge
    linarith [hQ.ge hlimit hge]

/-- R166: at every output index of a command the position is below the input's length. -/
theorem floorNat_samplePos_lt {rin rout : Word} {len i : Nat} (hin : rin ≠ 0) (hout : rout ≠ 0) (hne : rin ≠ rout)
    (hlen : len ≤ countMax) (hM : outLen len rin rout ≤ countMax) (hi : i < outLen len rin rout) :
    floorNat (samplePos (rateRatio rin rout) i) < len := by
  obtain ⟨m, e, hratio, hlow, hhigh⟩ := rateRatio_rounds hin hout
  have hr : (0 : ℚ) < m * 2 ^ e := (by positivity : (0 : ℚ) < 2 ^ (-32 : ℤ)).trans_le hlow
  obtain ⟨q, hQ, hMq, hqM⟩ := outLen_rounds hin hne hlen hratio hhigh
  obtain ⟨hbelow, habove⟩ := bounds_of_rounds_floor hQ (by omega) hM hMq hqM
  have hle := index_div_ratio_le hr hi hbelow habove
  have hgap : (0 : ℚ) < 2 ^ (-29 : ℤ) := by positivity
  have hlenPos : 0 < len := by
    by_contra! hzero
    obtain rfl : len = 0 := by omega
    have : (0 : ℚ) ≤ i / (m * 2 ^ e) := by positivity
    rw [Nat.cast_zero] at hle
    linarith
  obtain ⟨k, g, hpos, -, hP⟩ := samplePos_rounds (hi.le.trans hM) hlow
  obtain ⟨hfloor, -⟩ := floorNat_bounds k g
  rw [hratio, hpos]
  have := hP.le (isNumber_sub_unit hlenPos hlen) hle
  exact_mod_cast (show (floorNat (.fin false k g) : ℚ) < len by linarith)

/-- Settles O29: an interpolation without an output has an index whose position is not below the input's length. -/
theorem indexGuardUnreachable : Obligations.IndexGuardUnreachable := by
  intro draw x rin rout hin hout hlen hM
  obtain rfl | hne := eq_or_ne rin rout
  · exact ⟨x, resampleWith_self ..⟩
  · obtain ⟨ys, hys, -⟩ | ⟨-, i, hi, hguard⟩ := interpolationFormula draw x rin rout hin hout hne
    · exact ⟨ys, hys⟩
    · exact absurd (floorNat_samplePos_lt hin hout hne hlen hM hi) (not_lt.mpr hguard)

end Sys2Proof.Machine
end

section
/-! PROOFS. The weights of an interpolation and its rounding errors (41_resampler.md R164, R174): the fraction of a position is
exact, its complement is rounded once, and the errors of the sum stay below the spacing of binary32 numbers. -/

namespace Sys2Proof.Machine

/-! ### The weights -/

theorem mul_zpow_rescale (m : Nat) {e c : ℤ} (h : c ≤ e) : (m : ℚ) * 2 ^ e = (m * pow2 (e - c) : Nat) * 2 ^ c := by
  rw [Nat.cast_mul, mul_assoc, pow2_mul_zpow h]

/-- At an exponent not above 0, the fraction of a number has no more bits than the number, and lacks a unit or more to one. -/
theorem exists_fraction {m low : Nat} {e : ℤ} (hle : (low : ℚ) ≤ m * 2 ^ e) (hlt : (m : ℚ) * 2 ^ e < low + 1) :
    ∃ d : Nat, d ≤ m ∧ (m : ℚ) * 2 ^ e - low = d * 2 ^ min e 0 ∧ (2 : ℚ) ^ min e 0 ≤ 1 - (m * 2 ^ e - low) := by
  have hpos : (0 : ℚ) < 2 ^ min e 0 := by positivity
  have hnum := mul_zpow_rescale m (min_le_left e 0)
  have hlow : (low : ℚ) = (low * pow2 (0 - min e 0) : Nat) * 2 ^ min e 0 := by
    simpa using mul_zpow_rescale low (min_le_right e 0)
  have hone : (1 : ℚ) = (pow2 (0 - min e 0) : Nat) * 2 ^ min e 0 := by
    simpa using mul_zpow_rescale 1 (min_le_right e 0)
  have hbits : m * pow2 (e - min e 0) ≤ m ∨ pow2 (0 - min e 0) = 1 := by
    obtain he | he := le_total e 0
    · exact .inl (by rw [min_eq_left he, sub_self]; simp [pow2])
    · exact .inr (by rw [min_eq_right he]; rfl)
  rw [hnum, hlow] at hle
  rw [hnum, hlow, hone, ← add_mul] at hlt
  rw [hnum, hlow]
  generalize low * pow2 (0 - min e 0) = j at *
  generalize m * pow2 (e - min e 0) = i at *
  generalize pow2 (0 - min e 0) = k at *
  replace hle : j ≤ i := by exact_mod_cast le_of_mul_le_mul_right hle hpos
  replace hlt : i < j + k := by exact_mod_cast lt_of_mul_lt_mul_right hlt hpos.le
  refine ⟨i - j, by omega, by rw [Nat.cast_sub hle, sub_mul], ?_⟩
  have hunit : (1 : ℚ) ≤ k + j - i := by
    have : i + 1 ≤ k + j := by omega
    have : ((i + 1 : Nat) : ℚ) ≤ (k + j : Nat) := by exact_mod_cast this
    push_cast at this
    linarith
  calc (2 : ℚ) ^ min e 0 ≤ (k + j - i) * 2 ^ min e 0 := le_mul_of_one_le_left hpos.le hunit
    _ = k * 2 ^ min e 0 - (i * 2 ^ min e 0 - j * 2 ^ min e 0) := by ring
    _ = 1 - (i * 2 ^ min e 0 - j * 2 ^ min e 0) := by rw [← hone]

/-- The operands of R164's formula at a position: the fraction `t` of the position, exact, and `u`, one less `t` rounded once. -/
structure Weights (pos : FVal) (low : Nat) (t u : ℚ) : Prop where
  fin_t : ∃ m e, fsub pos (ofNat64 low) = .fin false m e ∧ (m : ℚ) * 2 ^ e = t
  fin_u : ∃ m e, fsub (ofNat64 1) (fsub pos (ofNat64 low)) = .fin false m e ∧ (m : ℚ) * 2 ^ e = u
  t_nonneg : 0 ≤ t
  t_lt_one : t < 1
  u_pos : 0 < u
  u_rounds : Rounds binary64 (1 - t) u

/-- A difference that is a number and not negative is exact, with the sign `+`. -/
theorem fsub_eq_fin_false {m k : Nat} {e g : ℤ} {x : ℚ} (hx : (m : ℚ) * 2 ^ e - k * 2 ^ g = x) (hnonneg : 0 ≤ x)
    (hsize : x ≤ 2 ^ (200 : ℤ)) (hnumber : IsNumber binary64 x) :
    ∃ a b, fsub (.fin false m e) (.fin false k g) = .fin false a b ∧ (a : ℚ) * 2 ^ b = x := by
  obtain hpos | rfl := hnonneg.lt_or_eq'
  · obtain ⟨z, hz, hrounds⟩ := fsub_finite (finiteValue?_fin_false m e) (finiteValue?_fin_false k g)
      (lt_limit_of_le (by rwa [hx, abs_of_pos hpos]))
    rw [hx] at hrounds
    rw [hrounds.eq_self hnumber] at hz
    exact fin_false_of_pos hz hpos
  · refine ⟨0, binary64.minExp, ?_, by simp⟩
    rw [fsub_fin, fadd_zero (by rw [fsub_value]; simpa using hx)]
    rfl

/-- R164: the weights at a position whose index is within the input. -/
theorem weights_of_position {m low : Nat} {e : ℤ} (hrep : representable binary64 m e)
    (hlow : floorNat (.fin false m e) = low) (hmax : low < 2 ^ 53) :
    ∃ u, Weights (.fin false m e) low (m * 2 ^ e - low) u := by
  obtain ⟨hle, hlt⟩ := floorNat_bounds m e
  rw [hlow] at hle hlt
  obtain ⟨d, hd, hvalue, hunit⟩ := exists_fraction hle hlt
  obtain ⟨hm, hmin, -⟩ := hrep
  have hmin0 : binary64.minExp ≤ min e 0 := le_min hmin (by decide)
  have hmax0 : min e 0 ≤ binary64.maxExp := (min_le_right e 0).trans (by decide)
  have hnumber : IsNumber binary64 (m * 2 ^ e - low) :=
    hvalue ▸ isNumber_of_nat ⟨hd.trans_lt hm, hmin0, hmax0⟩
  have hunitNumber : IsNumber binary64 (2 ^ min e 0) := by
    simpa using isNumber_of_nat (f := binary64) (m := 1) ⟨by decide, hmin0, hmax0⟩
  generalize ht : (m : ℚ) * 2 ^ e - low = t at *
  have ht0 : 0 ≤ t := by linarith
  have ht1 : t < 1 := by linarith
  have hone : (1 : ℚ) ≤ 2 ^ (200 : ℤ) := one_le_zpow₀ one_le_two (by decide)
  obtain ⟨k, g, hlowFin, hlowValue⟩ := ofNat64_eq_fin hmax
  obtain ⟨a, b, htFin, htValue⟩ := fsub_eq_fin_false (m := m) (e := e) (hlowValue ▸ ht) ht0 (ht1.le.trans hone) hnumber
  have htFinite : finiteValue? (fsub (.fin false m e) (ofNat64 low)) = some t := by
    rw [hlowFin, htFin, finiteValue?_fin_false, htValue]
  obtain ⟨u, hu, hrounds⟩ := fsub_finite (finiteValue?_ofNat64 (n := 1) (by decide)) htFinite
    (lt_limit_of_le (by rw [Nat.cast_one, abs_of_pos (by linarith)]; linarith))
  rw [Nat.cast_one] at hrounds
  have hpos : 0 < u := (by positivity : (0 : ℚ) < 2 ^ min e 0).trans_le (hrounds.ge hunitNumber hunit)
  exact ⟨u, ⟨a, b, by rw [hlowFin, htFin], htValue⟩, fin_false_of_pos hu hpos, ht0, ht1, hpos, hrounds⟩

theorem Weights.u_le_one {pos : FVal} {low : Nat} {t u : ℚ} (h : Weights pos low t u) : u ≤ 1 := by
  have hone : IsNumber binary64 1 := by exact_mod_cast isNumber_natCast (n := 1) (by decide)
  exact h.u_rounds.le hone (by linarith [h.t_nonneg])

/-! ### The errors of the sum -/

/-- The relative error of a binary64 rounding, doubled so that it bounds the whole error of a weight. -/
def relErr : ℚ := 1 / 2 ^ 52

/-- The absolute error of a binary64 rounding, which the subnormal numbers need. -/
def absErr : ℚ := 2 ^ (-1075 : ℤ)

theorem absErr_nonneg : 0 ≤ absErr := by
  unfold absErr
  positivity

/-- The absolute error is far below binary32's smallest number. -/
theorem absErr_le : 4 * absErr ≤ 1 / 8 * 2 ^ binary32.minExp := calc
  4 * absErr = 2 ^ (2 : ℤ) * 2 ^ (-1075 : ℤ) := by rw [absErr]; norm_num
  _ = 2 ^ (-1073 : ℤ) := (zpow_add₀ two_ne_zero _ _).symm
  _ ≤ 2 ^ (-3 + binary32.minExp) := zpow_le_zpow_right₀ one_le_two (by decide)
  _ = 2 ^ (-3 : ℤ) * 2 ^ binary32.minExp := zpow_add₀ two_ne_zero _ _
  _ = 1 / 8 * 2 ^ binary32.minExp := by norm_num

theorem Rounds.err {x y : ℚ} (h : Rounds binary64 x y) : |x - y| ≤ relErr * |x| + absErr := by
  refine h.error.trans ?_
  have hnonneg := abs_nonneg x
  have hrel : |x| / 2 ^ 53 ≤ relErr * |x| := by
    rw [relErr, div_mul_eq_mul_div, one_mul]
    gcongr <;> norm_num
  exact add_le_add hrel le_rfl

/-- What the errors of an interpolation amount to beside a bound `c` of both samples. -/
def slack (c : ℚ) : ℚ := 7 * relErr * |c| + 4 * absErr

/-- A weighted sample is at most the bound's part and its distance from the bound. -/
theorem abs_weighted_le {a c u : ℚ} (hca : c ≤ a) (hu0 : 0 ≤ u) : |a * u| ≤ |c| * u + (a - c) * u := by
  have hd : 0 ≤ (a - c) * u := mul_nonneg (sub_nonneg.mpr hca) hu0
  calc |a * u| = |c * u + (a - c) * u| := by ring_nf
    _ ≤ |c * u| + |(a - c) * u| := abs_add_le ..
    _ = |c| * u + (a - c) * u := by rw [abs_mul, abs_of_nonneg hu0, abs_of_nonneg hd]

/-- R174: the rounded sum of the two weighted samples falls below no common lower bound `c` of the samples by more than the
errors beside `c`: what the errors owe to the samples' distance from `c` the sum has more of. -/
theorem interpolation_ge {a b c t u p q s : ℚ} (hca : c ≤ a) (hcb : c ≤ b) (ht0 : 0 ≤ t) (hu0 : 0 ≤ u) (ht1 : t ≤ 1)
    (hu1 : u ≤ 1) (hu : |1 - t - u| ≤ relErr) (hp : |a * u - p| ≤ relErr * |a * u| + absErr)
    (hq : |b * t - q| ≤ relErr * |b * t| + absErr) (hs : |p + q - s| ≤ relErr * |p + q| + absErr) :
    c - slack c ≤ s := by
  have hau := abs_weighted_le hca hu0
  have hbt := abs_weighted_le hcb ht0
  have hdu : 0 ≤ (a - c) * u := mul_nonneg (sub_nonneg.mpr hca) hu0
  have hdt : 0 ≤ (b - c) * t := mul_nonneg (sub_nonneg.mpr hcb) ht0
  have hcu : |c| * u ≤ |c| := mul_le_of_le_one_right (abs_nonneg c) hu1
  have hct : |c| * t ≤ |c| := mul_le_of_le_one_right (abs_nonneg c) ht1
  have hweights : c * (1 - t - u) ≤ |c| * relErr := calc
    c * (1 - t - u) ≤ |c * (1 - t - u)| := le_abs_self _
    _ ≤ |c| * relErr := by rw [abs_mul]; gcongr
  have hsum : |p + q| ≤ |a * u| + |b * t| + (|a * u - p| + |b * t - q|) := calc
    |p + q| = |a * u + b * t - (a * u - p + (b * t - q))| := by ring_nf
    _ ≤ |a * u + b * t| + |a * u - p + (b * t - q)| := abs_sub _ _
    _ ≤ _ := add_le_add (abs_add_le ..) (abs_add_le ..)
  have hc := abs_nonneg c
  have habs := absErr_nonneg
  have hp' := (abs_le.mp hp).2
  have hq' := (abs_le.mp hq).2
  have hs' := (abs_le.mp hs).2
  simp only [slack, relErr] at *
  linarith

/-- R174: the same from above. -/
theorem interpolation_le {a b c t u p q s : ℚ} (hca : a ≤ c) (hcb : b ≤ c) (ht0 : 0 ≤ t) (hu0 : 0 ≤ u) (ht1 : t ≤ 1)
    (hu1 : u ≤ 1) (hu : |1 - t - u| ≤ relErr) (hp : |a * u - p| ≤ relErr * |a * u| + absErr)
    (hq : |b * t - q| ≤ relErr * |b * t| + absErr) (hs : |p + q - s| ≤ relErr * |p + q| + absErr) :
    s ≤ c + slack c := by
  have hflip (x y : ℚ) : |-x - -y| = |x - y| := by rw [neg_sub_neg, abs_sub_comm]
  have h := interpolation_ge (a := -a) (b := -b) (c := -c) (p := -p) (q := -q) (s := -s) (neg_le_neg hca) (neg_le_neg hcb)
    ht0 hu0 ht1 hu1 hu (by rwa [neg_mul, hflip, abs_neg]) (by rwa [neg_mul, hflip, abs_neg])
    (by rwa [← neg_add, hflip, abs_neg])
  rw [slack, abs_neg, ← slack] at h
  linarith

/-- R174: the errors beside a binary32 number are below half its distance from every other one, so they do not carry the
rounding to binary32 past it. -/
theorem Rounds.ge_of_slack {s y c : ℚ} (h : Rounds binary32 s y) (hc : IsNumber binary32 c) (hs : c - slack c ≤ s) :
    c ≤ y := by
  by_contra! hlt
  obtain ⟨hmin, hrel⟩ := hc.gap h.number hlt.ne'
  have hnear := h.nearest c hc
  rw [abs_of_pos (sub_pos.mpr hlt)] at hmin hrel
  have hfar : c - y ≤ 2 * slack c := by
    obtain hsc | hcs := le_total s c
    · rw [abs_of_nonpos (by linarith : s - c ≤ 0)] at hnear
      linarith [(abs_le.mp hnear).2]
    · rw [abs_of_nonneg (by linarith : 0 ≤ s - c)] at hnear
      linarith [(abs_le.mp hnear).2]
  have habs := absErr_le
  have hprec : (2 : ℚ) ^ binary32.prec = 16777216 := by norm_num [binary32]
  rw [hprec] at hrel
  rw [slack, relErr] at hfar
  generalize (2 : ℚ) ^ binary32.minExp = unit at *
  linarith

theorem Rounds.le_of_slack {s y c : ℚ} (h : Rounds binary32 s y) (hc : IsNumber binary32 c) (hs : s ≤ c + slack c) :
    y ≤ c := by
  refine neg_le_neg_iff.mp (h.neg.ge_of_slack hc.neg ?_)
  rw [slack, abs_neg, ← slack]
  linarith

end Sys2Proof.Machine
end

section
/-! PROOFS. The samples of an interpolation (41_resampler.md R164, R167, R174, R175): between their two input samples, and equal to
one where the position is whole or the two are the same. -/

namespace Sys2Proof.Machine

/-! ### One sample -/

/-- R164's formula on two patterns, in its order. -/
def blend (a b : Word) (pos : FVal) (low : Nat) : FVal :=
  fadd (fmul (f32 a) (fsub (ofNat64 1) (fsub pos (ofNat64 low)))) (fmul (f32 b) (fsub pos (ofNat64 low)))

theorem interpolate_of_lt {x : List Word} {ratio : FVal} {i : Nat} (h : floorNat (samplePos ratio i) < x.length) :
    interpolate x ratio i = some (blend (x.getD (floorNat (samplePos ratio i)) 0)
      (x.getD (min (floorNat (samplePos ratio i) + 1) (x.length - 1)) 0) (samplePos ratio i)
      (floorNat (samplePos ratio i))) := if_neg h.not_ge

theorem isNumber_of_finiteValue? {w : Word} {x : ℚ} (h : finiteValue? (f32 w) = some x) : IsNumber binary32 x := by
  obtain ⟨neg, m, e, hw, rfl⟩ := finiteValue?_eq_some h
  obtain ⟨-, hrep, -⟩ := f32_fin hw
  exact ⟨neg, m, e, hrep, rfl⟩

/-- The largest number of binary32. -/
def largest32 : ℚ := (2 ^ 24 - 1) * 2 ^ (104 : ℤ)

theorem isNumber_largest32 : IsNumber binary32 largest32 := by
  have h := isNumber_of_nat (f := binary32) (m := 2 ^ 24 - 1) (e := 104) ⟨by decide, by decide, by decide⟩
  exact (by norm_num [largest32] : ((2 ^ 24 - 1 : Nat) : ℚ) * 2 ^ (104 : ℤ) = largest32) ▸ h

theorem IsNumber.abs_le_largest32 {x : ℚ} (h : IsNumber binary32 x) : |x| ≤ largest32 := by
  obtain ⟨neg, m, e, ⟨hm, -, hmax⟩, rfl⟩ := h
  simp only [binary32] at hm hmax
  have hmQ : (m : ℚ) ≤ 2 ^ 24 - 1 := by
    have : (m : ℚ) + 1 ≤ 2 ^ 24 := by exact_mod_cast hm
    linarith
  rw [abs_signed_mul_zpow, largest32]
  gcongr
  exact one_le_two

theorem largest32_lt_limit : largest32 < binary32.limit := by
  have hlimit : binary32.limit = (2 ^ 24 - 1 / 2) * 2 ^ (104 : ℤ) := rfl
  rw [hlimit, largest32]
  norm_num

theorem abs_lt_limit_of_slack {s : ℚ} (hlo : -largest32 - slack largest32 ≤ s) (hhi : s ≤ largest32 + slack largest32) :
    |s| < binary32.limit := by
  have hunit : (2 : ℚ) ^ binary32.minExp ≤ 1 := zpow_le_one_of_nonpos₀ one_le_two (by decide)
  have habs := absErr_le
  have hpow : (1 : ℚ) ≤ 2 ^ (104 : ℤ) := one_le_zpow₀ one_le_two (by decide)
  have hlimit : binary32.limit = (2 ^ 24 - 1 / 2) * 2 ^ (104 : ℤ) := rfl
  have hmax : |largest32| = largest32 := abs_of_nonneg (by rw [largest32]; positivity)
  rw [slack, hmax, relErr, largest32] at hlo hhi
  rw [hlimit, abs_lt]
  generalize (2 : ℚ) ^ (104 : ℤ) = unit at *
  constructor <;> linarith

/-- A product with a weight is at most the sample in magnitude, and so is its rounding. -/
theorem weighted_finite {v w : FVal} {a u : ℚ} (hv : finiteValue? v = some a) (hw : finiteValue? w = some u)
    (ha : IsNumber binary32 a) (hu0 : 0 ≤ u) (hu1 : u ≤ 1) :
    ∃ p, finiteValue? (fmul v w) = some p ∧ |p| ≤ largest32 ∧ |a * u - p| ≤ relErr * |a * u| + absErr := by
  have hsize : |a * u| ≤ largest32 := calc
    |a * u| ≤ |a| := by rw [abs_mul, abs_of_nonneg hu0]; exact mul_le_of_le_one_right (abs_nonneg a) hu1
    _ ≤ largest32 := ha.abs_le_largest32
  have hlargest : largest32 ≤ 2 ^ (200 : ℤ) := by norm_num [largest32]
  obtain ⟨p, hp, hrounds⟩ := fmul_finite hv hw (lt_limit_of_le (hsize.trans hlargest))
  exact ⟨p, hp, hrounds.abs_le_of_abs_le isNumber_largest32.widen hsize, hrounds.err⟩

theorem Weights.finiteValue?_t {pos : FVal} {low : Nat} {t u : ℚ} (h : Weights pos low t u) :
    finiteValue? (fsub pos (ofNat64 low)) = some t := by
  obtain ⟨m, e, hfin, hvalue⟩ := h.fin_t
  rw [hfin, finiteValue?_fin_false, hvalue]

theorem Weights.finiteValue?_u {pos : FVal} {low : Nat} {t u : ℚ} (h : Weights pos low t u) :
    finiteValue? (fsub (ofNat64 1) (fsub pos (ofNat64 low))) = some u := by
  obtain ⟨m, e, hfin, hvalue⟩ := h.fin_u
  rw [hfin, finiteValue?_fin_false, hvalue]

theorem Weights.u_error {pos : FVal} {low : Nat} {t u : ℚ} (h : Weights pos low t u) : |1 - t - u| ≤ relErr := by
  have herr := h.u_rounds.error
  have ht0 := h.t_nonneg
  have hone : |1 - t| ≤ 1 := by
    rw [abs_of_pos (sub_pos.mpr h.t_lt_one)]
    linarith
  have hsmall : (2 : ℚ) ^ (binary64.minExp - 1) ≤ 2 ^ (-53 : ℤ) := zpow_le_zpow_right₀ one_le_two (by decide)
  have hprec : (2 : ℚ) ^ binary64.prec = 2 ^ 53 := rfl
  rw [hprec] at herr
  rw [relErr]
  norm_num at hsmall herr ⊢
  linarith

/-- R174: the exact errors aside, a sample lies between its two input samples. -/
theorem blend_finite {a b : Word} {x y t u : ℚ} {pos : FVal} {low : Nat} (ha : finiteValue? (f32 a) = some x)
    (hb : finiteValue? (f32 b) = some y) (hw : Weights pos low t u) :
    ∃ s, finiteValue? (blend a b pos low) = some s ∧ (∀ c, c ≤ x → c ≤ y → c - slack c ≤ s) ∧
      (∀ c, x ≤ c → y ≤ c → s ≤ c + slack c) := by
  obtain ⟨p, hp, hpsize, hperr⟩ := weighted_finite ha hw.finiteValue?_u (isNumber_of_finiteValue? ha) hw.u_pos.le hw.u_le_one
  obtain ⟨q, hq, hqsize, hqerr⟩ := weighted_finite hb hw.finiteValue?_t (isNumber_of_finiteValue? hb) hw.t_nonneg
    hw.t_lt_one.le
  have hsize : |p + q| ≤ 2 ^ (200 : ℤ) := calc
    |p + q| ≤ |p| + |q| := abs_add_le ..
    _ ≤ largest32 + largest32 := add_le_add hpsize hqsize
    _ ≤ 2 ^ (200 : ℤ) := by norm_num [largest32]
  obtain ⟨s, hs, hrounds⟩ := fadd_finite hp hq (lt_limit_of_le hsize)
  exact ⟨s, hs,
    fun c hcx hcy => interpolation_ge hcx hcy hw.t_nonneg hw.u_pos.le hw.t_lt_one.le hw.u_le_one hw.u_error hperr hqerr
      hrounds.err,
    fun c hxc hyc => interpolation_le hxc hyc hw.t_nonneg hw.u_pos.le hw.t_lt_one.le hw.u_le_one hw.u_error hperr hqerr
      hrounds.err⟩

/-- R174: a sample lies between its two input samples. -/
theorem fl32_blend_between {a b : Word} {x y t u : ℚ} {pos : FVal} {low : Nat} (ha : finiteValue? (f32 a) = some x)
    (hb : finiteValue? (f32 b) = some y) (hw : Weights pos low t u) :
    ∃ neg m e, fl32 (blend a b pos low) = .fin neg m e ∧ Canonical binary32 m e ∧
      (∀ c, IsNumber binary32 c → c ≤ x → c ≤ y → c ≤ signed neg m * 2 ^ e) ∧
      (∀ c, IsNumber binary32 c → x ≤ c → y ≤ c → (signed neg m : ℚ) * 2 ^ e ≤ c) := by
  obtain ⟨s, hs, hge, hle⟩ := blend_finite ha hb hw
  have hx := abs_le.mp (isNumber_of_finiteValue? ha).abs_le_largest32
  have hy := abs_le.mp (isNumber_of_finiteValue? hb).abs_le_largest32
  have hlo := hge (-largest32) hx.1 hy.1
  rw [slack, abs_neg, ← slack] at hlo
  obtain ⟨neg, k, g, hfin, hvalue⟩ := finiteValue?_eq_some hs
  obtain ⟨m, e, hround, hcanon, hrounds⟩ :=
    fl32_rounds_to hvalue (abs_lt_limit_of_slack hlo (hle largest32 hx.2 hy.2))
  exact ⟨neg, m, e, by rw [hfin, hround], hcanon, fun c hc hcx hcy => hrounds.ge_of_slack hc (hge c hcx hcy),
    fun c hc hxc hyc => hrounds.le_of_slack hc (hle c hxc hyc)⟩

/-! ### No overshoot -/

theorem getD_mem {x : List Word} {i : Nat} (h : i < x.length) : x.getD i 0 ∈ x := by
  rw [List.getD_eq_getElem _ _ h]
  exact List.getElem_mem h

/-- R164: the weights at the position of an output index within COUNT_MAX. -/
theorem exists_weights {rin rout : Word} {i low : Nat} (hin : rin ≠ 0) (hout : rout ≠ 0) (hi : i ≤ countMax)
    (hlow : floorNat (samplePos (rateRatio rin rout) i) = low) (hmax : low ≤ countMax) :
    ∃ m e u, samplePos (rateRatio rin rout) i = .fin false m e ∧
      Weights (samplePos (rateRatio rin rout) i) low (m * 2 ^ e - low) u := by
  obtain ⟨m, e, hratio, hratioLow, -⟩ := rateRatio_rounds hin hout
  obtain ⟨k, g, hpos, hrep, -⟩ := samplePos_rounds hi hratioLow
  rw [hratio, hpos] at hlow ⊢
  obtain ⟨u, hw⟩ := weights_of_position hrep hlow (hmax.trans_lt (by decide))
  exact ⟨k, g, u, rfl, hw⟩

/-- R164: every output sample at unequal rates is the formula at a position whose index is within the input. -/
theorem exists_blend_of_mem {draw : Nat → NaNPattern} {x ys : List Word} {rin rout y : Word} (hin : rin ≠ 0)
    (hout : rout ≠ 0) (hne : rin ≠ rout) (hys : resampleWith draw x rin rout = some ys) (hy : y ∈ ys) :
    ∃ i low high p, i < outLen x.length rin rout ∧ floorNat (samplePos (rateRatio rin rout) i) = low ∧ low < x.length ∧
      high < x.length ∧
      y = bits32 p (fl32 (blend (x.getD low 0) (x.getD high 0) (samplePos (rateRatio rin rout) i) low)) := by
  obtain ⟨zs, hzs, hlength, hall⟩ | ⟨hnone, -⟩ := interpolationFormula draw x rin rout hin hout hne
  case inr => cases hys.symm.trans hnone
  cases hys.symm.trans hzs
  obtain ⟨i, hi, rfl⟩ := List.mem_iff_getElem.mp hy
  obtain ⟨hlow, p, hsample⟩ := hall i (hlength ▸ hi)
  rw [List.getD_eq_getElem _ 0 hi] at hsample
  exact ⟨i, _, _, p, hlength ▸ hi, rfl, hlow, by omega, hsample⟩

/-- Settles O30: of the two input samples of an output sample one is a lower and one an upper bound. -/
theorem interpolationNeverOvershoots : Obligations.InterpolationNeverOvershoots := by
  intro draw x rin rout ys hin hout hlen hM hfinite hys y hy
  obtain rfl | hne := eq_or_ne rin rout
  · rw [resampleWith_self] at hys
    cases hys
    obtain ⟨v, hv⟩ := hfinite y hy
    exact ⟨v, hv, y, hy, y, hy, v, v, hv, hv, le_rfl, le_rfl⟩
  obtain ⟨i, low, high, p, hi, hpos, hlow, hhigh, rfl⟩ := exists_blend_of_mem hin hout hne hys hy
  obtain ⟨a, ha⟩ := hfinite _ (getD_mem hlow)
  obtain ⟨b, hb⟩ := hfinite _ (getD_mem hhigh)
  obtain ⟨k, g, u, -, hw⟩ := exists_weights hin hout (hi.le.trans hM) hpos (hlow.le.trans hlen)
  obtain ⟨neg, m, e, hfl, hcanon, hge, hle⟩ := fl32_blend_between ha hb hw
  refine ⟨signed neg m * 2 ^ e, by rw [hfl, f32_bits32 p hcanon, finiteValue?_fin], ?_⟩
  have hnumA := isNumber_of_finiteValue? ha
  have hnumB := isNumber_of_finiteValue? hb
  obtain hab | hba := le_total a b
  · exact ⟨_, getD_mem hlow, _, getD_mem hhigh, a, b, ha, hb, hge a hnumA le_rfl hab, hle b hnumB hab le_rfl⟩
  · exact ⟨_, getD_mem hhigh, _, getD_mem hlow, b, a, hb, ha, hge b hnumB hba le_rfl, hle a hnumA le_rfl hba⟩

end Sys2Proof.Machine
end

section
/-! PROOFS. Copied samples (41_resampler.md R167, R175): a sample met at a whole position, and the last sample from its position
on. -/

namespace Sys2Proof.Machine

/-! ### Patterns by their values -/

/-- A number in its one form with the value of a pattern, other than zero, is written as that pattern. -/
theorem bits32_eq_of_value {a : Word} {v : FVal} {neg : Bool} {m : Nat} {e : ℤ} (p : NaNPattern) (hv : v = .fin neg m e)
    (hcanon : Canonical binary32 m e) (ha : finiteValue? (f32 a) = some ((signed neg m : ℚ) * 2 ^ e))
    (hne : (signed neg m : ℚ) * 2 ^ e ≠ 0) : bits32 p v = a := by
  obtain ⟨b, k, g, hfin, hvalue⟩ := finiteValue?_eq_some ha
  obtain ⟨-, hcanon'⟩ := f32_fin hfin
  rw [hv, canonical_unique binary32_ordinary hcanon hcanon' hvalue.symm hne, ← hfin]
  exact bits32_f32 p (by rw [hfin]; nofun)

/-- The pattern of a zero is its sign bit alone. -/
theorem bits32_zero (p : NaNPattern) (s : Bool) (e : ℤ) :
    bits32 p (.fin s 0 e) = if s then 0x80000000 else 0x00000000 := by
  cases s <;> rfl

theorem signBit_eq_false_iff {w : Word} : signBit w = false ↔ w.extractLsb' 31 1 = 0#1 := by
  rw [signBit, decide_eq_false_iff_not]
  generalize w.extractLsb' 31 1 = b
  revert b
  decide

theorem f32_of_zero {a : Word} (ha : finiteValue? (f32 a) = some 0) :
    ∃ e, f32 a = .fin (signBit a) 0 e ∧ a = if signBit a then 0x80000000 else 0x00000000 := by
  obtain ⟨neg, m, e, hfin, hvalue⟩ := finiteValue?_eq_some ha
  obtain ⟨rfl, -⟩ := f32_fin hfin
  obtain rfl := signed_mul_zpow_eq_zero.mp hvalue
  refine ⟨e, hfin, ?_⟩
  rw [← bits32_zero default (signBit a) e, ← hfin, bits32_f32 default (by rw [hfin]; nofun)]

/-! ### Zeros and infinities in the formula -/

theorem fmul_zero_left (s : Bool) (e : ℤ) (m : Nat) (g : ℤ) :
    fmul (.fin s 0 e) (.fin false m g) = .fin s 0 binary64.minExp := by
  rw [fmul, Nat.zero_mul, Nat.zero_mul, roundTo_zero, Bool.bne_false]

theorem fmul_zero_right (s : Bool) (m : Nat) (e g : ℤ) :
    fmul (.fin s m e) (.fin false 0 g) = .fin s 0 binary64.minExp := by
  rw [fmul, Nat.mul_zero, Nat.zero_mul, roundTo_zero, Bool.bne_false]

theorem fadd_zeros (s r : Bool) (e g : ℤ) : fadd (.fin s 0 e) (.fin r 0 g) = .fin (s && r) 0 binary64.minExp :=
  fadd_zero (by rw [signed_mul_zpow_eq_zero.mpr rfl, signed_mul_zpow_eq_zero.mpr rfl, add_zero])

theorem fl32_zero (s : Bool) (e : ℤ) : fl32 (.fin s 0 e) = .fin s 0 binary32.minExp := by
  rw [fl32, Nat.zero_mul, roundTo_zero]

theorem fmul_inf_of_ne_zero (s : Bool) {m : Nat} (e : ℤ) (hm : m ≠ 0) : fmul (.inf s) (.fin false m e) = .inf s := by
  rw [fmul, if_neg hm, Bool.bne_false]

theorem mant_ne_zero {m : Nat} {e : ℤ} {x : ℚ} (h : (m : ℚ) * 2 ^ e = x) (hx : x ≠ 0) : m ≠ 0 := by
  rintro rfl
  exact hx (by rw [← h, Nat.cast_zero, zero_mul])

theorem mant_eq_zero {m : Nat} {e : ℤ} (h : (m : ℚ) * 2 ^ e = 0) : m = 0 := by
  rw [mul_eq_zero, or_iff_left (by positivity)] at h
  exact_mod_cast h

/-- An infinite sample times a positive weight stays, and so does its sum with a number. -/
theorem Weights.fmul_inf_u {pos : FVal} {low : Nat} {t u : ℚ} (h : Weights pos low t u) (s : Bool) :
    fmul (.inf s) (fsub (ofNat64 1) (fsub pos (ofNat64 low))) = .inf s := by
  obtain ⟨m, e, hfin, hvalue⟩ := h.fin_u
  rw [hfin, fmul_inf_of_ne_zero s e (mant_ne_zero hvalue h.u_pos.ne')]

/-! ### A whole position -/

/-- R175: at a whole position the second sample has the weight zero. -/
theorem Weights.fmul_t_zero {pos : FVal} {low : Nat} {u : ℚ} (h : Weights pos low 0 u) (s : Bool) (k : Nat) (g : ℤ) :
    fmul (.fin s k g) (fsub pos (ofNat64 low)) = .fin s 0 binary64.minExp := by
  obtain ⟨m, e, hfin, hvalue⟩ := h.fin_t
  obtain rfl := mant_eq_zero hvalue
  rw [hfin, fmul_zero_right]

/-- R175: at a whole position the first sample has the weight one. -/
theorem Weights.u_eq_one {pos : FVal} {low : Nat} {u : ℚ} (h : Weights pos low 0 u) : u = 1 := by
  have hone : IsNumber binary64 1 := by exact_mod_cast isNumber_natCast (n := 1) (by decide)
  have hrounds := h.u_rounds
  rw [sub_zero] at hrounds
  exact hrounds.eq_self hone

/-- R175: at a whole position a finite sample keeps its value. -/
theorem finiteValue?_blend_whole {a b : Word} {x y u : ℚ} {pos : FVal} {low : Nat} (ha : finiteValue? (f32 a) = some x)
    (hb : finiteValue? (f32 b) = some y) (hw : Weights pos low 0 u) : finiteValue? (blend a b pos low) = some x := by
  obtain ⟨s, k, g, hfin, -⟩ := finiteValue?_eq_some hb
  have hnumber := isNumber_of_finiteValue? ha
  have hsize : |x| ≤ 2 ^ (200 : ℤ) := hnumber.abs_le_largest32.trans (by norm_num [largest32])
  have hu := hw.finiteValue?_u
  rw [hw.u_eq_one] at hu
  obtain ⟨p, hp, hprounds⟩ := fmul_finite ha hu (lt_limit_of_le (by rwa [mul_one]))
  rw [mul_one] at hprounds
  rw [hprounds.eq_self hnumber.widen] at hp
  have hq : finiteValue? (fmul (f32 b) (fsub pos (ofNat64 low))) = some 0 := by
    rw [hfin, hw.fmul_t_zero, finiteValue?_fin_zero]
  obtain ⟨z, hz, hzrounds⟩ := fadd_finite hp hq (lt_limit_of_le (by rwa [add_zero]))
  rw [add_zero] at hzrounds
  rw [blend, hz, hzrounds.eq_self hnumber.widen]

/-- A blend that keeps the value of a sample other than zero is written as that sample. -/
theorem bits32_fl32_of_value {a : Word} {v : FVal} {x : ℚ} (p : NaNPattern) (hv : finiteValue? v = some x)
    (ha : finiteValue? (f32 a) = some x) (hne : x ≠ 0) : bits32 p (fl32 v) = a := by
  have hnumber := isNumber_of_finiteValue? ha
  obtain ⟨neg, k, g, rfl, hvalue⟩ := finiteValue?_eq_some hv
  obtain ⟨m, e, hround, hcanon, hrounds⟩ := fl32_rounds_to hvalue (hnumber.abs_le_largest32.trans_lt largest32_lt_limit)
  have hx := hrounds.eq_self hnumber
  rw [← hx] at ha hne
  exact bits32_eq_of_value p hround hcanon ha hne

/-- R175: at a whole position a zero has its sign kept beside a sample with the sign bit 1, and is +0.0 beside one without. -/
theorem bits32_blend_whole_zero {a b : Word} {u : ℚ} {pos : FVal} {low k : Nat} {g : ℤ} (p : NaNPattern)
    (ha : finiteValue? (f32 a) = some 0) (hb : f32 b = .fin (signBit b) k g) (hw : Weights pos low 0 u) :
    bits32 p (fl32 (blend a b pos low)) =
      if a = 0x80000000 ∧ b.extractLsb' 31 1 = 0#1 then 0x00000000 else a := by
  obtain ⟨c, hfin, hbits⟩ := f32_of_zero ha
  obtain ⟨m, e, hu, -⟩ := hw.fin_u
  rw [blend, hfin, hu, fmul_zero_left, hb, hw.fmul_t_zero, fadd_zeros, fl32_zero, bits32_zero]
  simp only [← signBit_eq_false_iff]
  cases hsign : signBit a with
  | false =>
    rw [hsign] at hbits
    simp [hbits]
  | true =>
    rw [hsign] at hbits
    cases signBit b <;> simp [hbits]

/-- R175: a sample met at a whole position is copied, but for -0.0 beside a sample whose sign bit is 0. -/
theorem bits32_blend_whole {a b : Word} {y u : ℚ} {pos : FVal} {low : Nat} (p : NaNPattern) (ha : f32 a ≠ .nan)
    (hb : finiteValue? (f32 b) = some y) (hw : Weights pos low 0 u) :
    bits32 p (fl32 (blend a b pos low)) =
      if a = 0x80000000 ∧ b.extractLsb' 31 1 = 0#1 then 0x00000000 else a := by
  have hnegZero : f32 0x80000000 = .fin true 0 (-149) := by decide
  obtain ⟨r, k, g, hfin, -⟩ := finiteValue?_eq_some hb
  obtain ⟨rfl, -⟩ := f32_fin hfin
  cases hcase : f32 a with
  | nan => exact absurd hcase ha
  | inf s =>
    have hne : a ≠ 0x80000000 := by
      rintro rfl
      cases hnegZero.symm.trans hcase
    rw [if_neg (fun h => hne h.1), blend, hcase, hw.fmul_inf_u, hfin, hw.fmul_t_zero, fadd, fl32, ← hcase,
      bits32_f32 p ha]
  | fin s m e =>
    have hvalue : finiteValue? (f32 a) = some ((signed s m : ℚ) * 2 ^ e) := by rw [hcase, finiteValue?_fin]
    by_cases hzero : (signed s m : ℚ) * 2 ^ e = 0
    · rw [hzero] at hvalue
      exact bits32_blend_whole_zero p hvalue hfin hw
    · have hne : a ≠ 0x80000000 := by
        rintro rfl
        rw [hnegZero, finiteValue?_fin_zero] at hvalue
        exact hzero (Option.some.inj hvalue).symm
      rw [if_neg (fun h => hne h.1)]
      exact bits32_fl32_of_value p (finiteValue?_blend_whole hvalue hb hw) hvalue hzero

/-! ### The last sample -/

/-- R167: between two copies of a finite sample every position gives that sample, the sign of a zero included. -/
theorem bits32_blend_same {a : Word} {x t u : ℚ} {pos : FVal} {low : Nat} (p : NaNPattern)
    (ha : finiteValue? (f32 a) = some x) (hw : Weights pos low t u) : bits32 p (fl32 (blend a a pos low)) = a := by
  by_cases hzero : x = 0
  · subst hzero
    obtain ⟨c, hfin, hbits⟩ := f32_of_zero ha
    obtain ⟨m, e, hu, -⟩ := hw.fin_u
    obtain ⟨k, g, ht, -⟩ := hw.fin_t
    rw [blend, hfin, hu, ht, fmul_zero_left, fmul_zero_left, fadd_zeros, fl32_zero, bits32_zero, Bool.and_self, ← hbits]
  · obtain ⟨neg, m, e, hfl, hcanon, hge, hle⟩ := fl32_blend_between ha ha hw
    have hnumber := isNumber_of_finiteValue? ha
    obtain rfl : (signed neg m : ℚ) * 2 ^ e = x :=
      le_antisymm (hle x hnumber le_rfl le_rfl) (hge x hnumber le_rfl le_rfl)
    exact bits32_eq_of_value p hfl hcanon ha hzero

/-- R167: an infinite sample met at its position gives a NaN, since its second copy has the weight zero. -/
theorem blend_inf_whole {a : Word} {s : Bool} {u : ℚ} {pos : FVal} {low : Nat} (ha : f32 a = .inf s)
    (hw : Weights pos low 0 u) : blend a a pos low = .nan := by
  obtain ⟨m, e, ht, hvalue⟩ := hw.fin_t
  obtain rfl := mant_eq_zero hvalue
  rw [blend, ha, hw.fmul_inf_u, ht]
  rfl

/-- R167: between two copies of an infinite sample a position off the first one gives that sample. -/
theorem blend_inf {a : Word} {s : Bool} {t u : ℚ} {pos : FVal} {low : Nat} (ha : f32 a = .inf s) (hw : Weights pos low t u)
    (ht : t ≠ 0) : blend a a pos low = .inf s := by
  obtain ⟨m, e, hfin, hvalue⟩ := hw.fin_t
  rw [blend, ha, hw.fmul_inf_u, hfin, fmul_inf_of_ne_zero s e (mant_ne_zero hvalue ht)]
  exact if_pos rfl

/-- R164: the weights at a position that is a whole number. -/
theorem exists_weights_whole {rin rout : Word} {i low : Nat} (hin : rin ≠ 0) (hout : rout ≠ 0)
    (hpos : finiteValue? (samplePos (rateRatio rin rout) i) = some (low : ℚ)) (hmax : low ≤ countMax) :
    floorNat (samplePos (rateRatio rin rout) i) = low ∧
      ∃ u, Weights (samplePos (rateRatio rin rout) i) low 0 u := by
  obtain ⟨m, e, hratio, hratioLow, -⟩ := rateRatio_rounds hin hout
  have hm := mant_ne_zero rfl ((by positivity : (0 : ℚ) < 2 ^ (-32 : ℤ)).trans_le hratioLow).ne'
  obtain hinf | ⟨k, g, hfin, hrep⟩ := samplePos_cases e i hm
  · rw [hratio, hinf] at hpos
    cases hpos
  · rw [hratio, hfin] at hpos ⊢
    have hvalue : (k : ℚ) * 2 ^ g = low := by simpa using hpos
    obtain ⟨hle, hlt⟩ := floorNat_bounds k g
    rw [hvalue] at hle hlt
    have hfloor : floorNat (.fin false k g) = low :=
      le_antisymm (by exact_mod_cast hle) (Nat.lt_succ_iff.mp (by exact_mod_cast hlt))
    obtain ⟨u, hw⟩ := weights_of_position hrep hfloor (hmax.trans_lt (by decide))
    rw [hvalue, sub_self] at hw
    exact ⟨hfloor, u, hw⟩

/-- Settles O31: at a whole position the weights are one and zero; from the last sample on both input samples are that one, and
the position is the sample's own exactly where its fraction is zero. -/
theorem exactHitCopiesTheSample : Obligations.ExactHitCopiesTheSample := by
  refine ⟨fun x rin rout i low p hin hout hpos hlow hlen ha ⟨y, hb⟩ => ?_,
    fun x rin rout i last p hin hout hi hx hlen hfloor => ?_⟩
  · obtain ⟨hfloor, u, hw⟩ := exists_weights_whole hin hout hpos (hlow.le.trans hlen)
    have hvalue := interpolate_of_lt (hfloor.trans_lt hlow)
    rw [hfloor] at hvalue
    exact ⟨_, hvalue, bits32_blend_whole p ha hb hw⟩
  · obtain ⟨m, e, u, hpos, hw⟩ := exists_weights hin hout hi hfloor (by omega)
    have hvalue := interpolate_of_lt (hfloor.trans_lt (by omega : last < x.length))
    rw [hfloor, hx, Nat.add_sub_cancel, Nat.min_eq_right (Nat.le_succ last)] at hvalue
    refine ⟨fun ⟨y, ha⟩ => ⟨_, hvalue, bits32_blend_same p ha hw⟩, fun neg ha => ?_⟩
    have hwhole : finiteValue? (samplePos (rateRatio rin rout) i) = some (last : ℚ) ↔ (m : ℚ) * 2 ^ e - last = 0 := by
      rw [hpos, finiteValue?_fin_false, Option.some.injEq, sub_eq_zero]
    split_ifs with h
    · rw [hwhole.mp h] at hw
      rw [hvalue, blend_inf_whole ha hw]
    · refine ⟨_, hvalue, ?_⟩
      rw [blend_inf ha hw (mt hwhole.mpr h), fl32, ← ha, bits32_f32 p (by rw [ha]; nofun)]

end Sys2Proof.Machine
end
